-- ==== Sys2Proof/Syntax.lean ====
section
/-!
DEFINITION. Sys2Proof/Syntax.lean: the commands of the block (spec/30_encoding.md R82), one constructor
per row of spec/opcode_table.json. No command has an operand field: every operand is implicit (R84).
-/

namespace Sys2Proof

/-- The five commands a host can write to CMD (R8, R82). -/
inductive Instr where
  /-- `NOP`, opcode 0x00 (R140). -/
  | nop
  /-- `ENC`, opcode 0x01 (R141, R142). -/
  | enc
  /-- `RNG_SEED`, opcode 0x10 (R166). -/
  | rngSeed
  /-- `RNG_U8`, opcode 0x11 (R168). -/
  | rngU8
  /-- `RNG_U16`, opcode 0x12 (R169). -/
  | rngU16
deriving DecidableEq, Repr

end Sys2Proof
end

