-- ==== Sys2Proof/Word.lean ====
section
/-!
DEFINITION. Sys2Proof/Word.lean: the block's data types (spec/00_scope.md R7, spec/10_state.md R31).
-/

namespace Sys2Proof

/-- A byte: 8 bits, unsigned (R7). -/
abbrev Byte := BitVec 8

/-- A block: sixteen bytes, `b[0]` the first byte (R7). KEY, DATA and POOL are blocks. -/
abbrev Block := Vector Byte 16

/-- Sixteen 0x00 bytes. -/
def zeroBlock : Block := Vector.replicate 16 0x00#8

/-- A block from its hexadecimal spelling, first byte leftmost (R7). -/
def hexBlock (x : BitVec 128) : Block :=
  Vector.ofFn fun i => x.extractLsb' (8 * (15 - i.val)) 8

/-- The registers of the cipher datapath (R31): the round state `S`, the current round key `RK`
and the round counter `ROUND` (0..10). -/
structure CipherWork where
  /-- `S`, the 16-byte round state. -/
  s : Block
  /-- `RK`, the 16-byte current round key. -/
  rk : Block
  /-- `ROUND`, the round counter. -/
  round : Fin 11
deriving DecidableEq, Repr, Inhabited

end Sys2Proof
end

