-- ==== Sys2Proof/Decode.lean ====
section
/-!
DEFINITION. Sys2Proof/Decode.lean: the command decoder and the encoder (spec/30_encoding.md R80-R85).
-/

namespace Sys2Proof

/-- What the decoder says of a command byte. -/
inductive Decoded where
  /-- The byte is the opcode of a command (R82). -/
  | command (i : Instr)
  /-- The byte is not an opcode (R83); written while idle it raises ERR_ILLEGAL (R232). -/
  | illegal
deriving DecidableEq, Repr

/-- One row of the opcode table: a byte `c` is this command when `c & mask = pattern`. -/
structure OpcodeRow where
  mask : Byte
  pattern : Byte
  instr : Instr
deriving DecidableEq, Repr

/-- The opcode map (R82, spec/opcode_table.json). A decoder matches the whole byte: every mask is 0xFF (R80). -/
def opcodeRows : List OpcodeRow :=
  [ ⟨0xFF, 0x00, .nop⟩,
    ⟨0xFF, 0x01, .enc⟩,
    ⟨0xFF, 0x10, .rngSeed⟩,
    ⟨0xFF, 0x11, .rngU8⟩,
    ⟨0xFF, 0x12, .rngU16⟩ ]

/-- The row matches the byte. -/
def OpcodeRow.covers (row : OpcodeRow) (c : Byte) : Bool := c &&& row.mask == row.pattern

/-- The decoder: total on bytes, rejecting every byte outside the map by name (R81, R83). -/
def decode (c : Byte) : Decoded :=
  match opcodeRows.find? (fun row => row.covers c) with
  | some row => .command row.instr
  | none => .illegal

/-- The field UNIT, bits 7:4 (R80). -/
def unitField (c : Byte) : BitVec 4 := c.extractLsb' 4 4

/-- The field FUNC, bits 3:0 (R80). -/
def funcField (c : Byte) : BitVec 4 := c.extractLsb' 0 4

/-- A command byte from its two fields (R80). -/
def commandByte (unit func : BitVec 4) : Byte := unit ++ func

/-- The encoder: UNIT 0x0 is the cipher unit, 0x1 the randomness unit (R80, R82). -/
def encode : Instr → Byte
  | .nop => commandByte 0x0 0x0
  | .enc => commandByte 0x0 0x1
  | .rngSeed => commandByte 0x1 0x0
  | .rngU8 => commandByte 0x1 0x1
  | .rngU16 => commandByte 0x1 0x2

/-- The instruction the decoder reads from a table word of `nbits` bits. Every command is exactly one byte (R85):
a word of more than eight bits, or of none, is no command. THE MODEL'S CHOICE (DESIGN CHOICE, log entry 15): the spec
knows no command word of 1 to 7 bits, and one is read here as the command byte whose higher bits are 0. -/
def decodeTableWord (nbits w : Nat) : Option Instr :=
  if nbits = 0 ∨ 8 < nbits then none
  else
    match decode (BitVec.ofNat 8 (w % 2 ^ nbits)) with
    | .command i => some i
    | .illegal => none

end Sys2Proof
end

