-- ==== Sys2Proof/Config.lean ====
section
/-!
DEFINITION. Sys2Proof/Config.lean: the parameters of spec/00_scope.md R6 and the free values of R10.
A parameter the spec calls OPEN and a value it leaves to the environment is an opaque constant: nothing
in Lean can evaluate it, so every statement holds whatever it is.
-/

namespace Sys2Proof

/-- The agents of R9, one of which takes each step. -/
inductive Agent where
  /-- The host performs its next bus transaction. -/
  | host
  /-- The engine completes the command in flight. -/
  | engine
  /-- The noise source presents one sample. -/
  | noise
deriving DecidableEq, Repr, Inhabited

/-- `NR`: the rounds of AES-128 (R6). -/
def Config.rounds : Nat := 10

/-- `RNG_POOL_BYTES` (R6). -/
def Config.poolBytes : Nat := 16

/-- `RNG_SEED_BYTES` (R6). -/
def Config.seedBytes : Nat := 15

/-- `NOISE_BIT`: the bit of a noise sample that is used (R6, R162). -/
def Config.noiseBit : Nat := 0

/-- `WINDOW_BYTES`: the size of the register window (R6, R50). -/
def Config.windowBytes : Nat := 256

/-- `RNG_KEY`: the fixed 128-bit key of the re-whitening; OPEN (R6, R32; decision D18). Log entry 1. -/
opaque Config.rngKey : Block

/-- `AESENG_BASE`: the platform address of the register window; OPEN (R6, R50; decision D2). Log entry 1. -/
opaque Config.windowBase : Nat

/-- One less than `AES_CYCLES`; OPEN (R6, R267; decision D23). Log entry 1. -/
opaque Config.aesCyclesLessOne : Nat

/-- `AES_CYCLES`: a positive integer, the same for every key and data (R6). -/
def Config.aesCycles : Nat := Config.aesCyclesLessOne + 1

/-- FREE VALUE: which agent moves where no agenda says so (R10 (b), R61). Log entry 2. -/
opaque Config.freeAgent : Nat → Agent

/-- FREE VALUE: how many steps of any agent's pass before the engine's next move where no agenda says so. Each is
finite, which is the fairness of R11. Log entry 2. -/
opaque Config.freeGap : Nat → Nat

/-- FREE VALUE: the value of a noise sample no agenda gives (R10 (a)). Log entry 2. -/
opaque Config.freeSample : Nat → Byte

/-- FREE VALUE: what S, RK and ROUND hold after the datapath has run: "unspecified, never observable"
(R20, R31). Log entry 3. -/
opaque Config.freeWork : Nat → CipherWork

end Sys2Proof
end

