-- ==== Sys2Proof/Machine/Bytes.lean ====
section
/-!
DEFINITION. Sys2Proof/Machine/Bytes.lean: operations on bytes and blocks (spec/00_scope.md R7).
-/

namespace Sys2Proof.Machine

/-- `a ^ b` of blocks, byte by byte (R7). -/
def xorBlock (a b : Block) : Block := Vector.ofFn fun i => a[i] ^^^ b[i]

/-- A bit zero-extended to a byte (R7). -/
def bitByte (b : Bool) : Byte := (BitVec.ofBool b).setWidth 8

/-- `le16(lo, hi) = lo + 256*hi` (R7). -/
def le16 (lo hi : Byte) : BitVec 16 := hi ++ lo

/-- `le32(b0, b1, b2, b3)` (R7). -/
def le32 (b0 b1 b2 b3 : Byte) : BitVec 32 := b3 ++ b2 ++ b1 ++ b0

/-- The four bytes of a 32-bit value, least significant first (R206: "4 bytes, little-endian"). -/
def bytesLe32 (v : BitVec 32) : List Byte :=
  [v.extractLsb' 0 8, v.extractLsb' 8 8, v.extractLsb' 16 8, v.extractLsb' 24 8]

/-- The block whose bytes are the list's first sixteen, 0x00 beyond its end. -/
def blockOfList (l : List Byte) : Block := Vector.ofFn fun i => l.getD i.val 0x00

end Sys2Proof.Machine
end

