-- ==== Sys2Proof/Machine/Aes.lean ====
section
/-!
DEFINITION. Sys2Proof/Machine/Aes.lean: the AES-128 forward cipher datapath (spec/40_aes128.md).
Every function is pure.
-/

namespace Sys2Proof.Machine

/-- `xtime(a)`, that is `a * 0x02` (R102). -/
def xtime (a : Byte) : Byte := (a <<< 1) ^^^ (if a.getLsbD 7 then 0x1B else 0x00)

/-- `xtime^k(a)` (R103). -/
def xtimePow : Nat → Byte → Byte
  | 0, a => a
  | k + 1, a => xtime (xtimePow k a)

/-- `gmul(a, b)`: the XOR of `xtime^k(a)` over every k in 0..7 with `b[k] = 1` (R103). -/
def gmul (a b : Byte) : Byte :=
  (List.range 8).foldl (fun acc k => if b.getLsbD k then acc ^^^ xtimePow k a else acc) 0x00

/-- The sixteen rows of the substitution table, each row's column 0 leftmost (R104). -/
def sboxRows : Vector (BitVec 128) 16 := #v[
  0x637c777bf26b6fc53001672bfed7ab76,
  0xca82c97dfa5947f0add4a2af9ca472c0,
  0xb7fd9326363ff7cc34a5e5f171d83115,
  0x04c723c31896059a071280e2eb27b275,
  0x09832c1a1b6e5aa0523bd6b329e32f84,
  0x53d100ed20fcb15b6acbbe394a4c58cf,
  0xd0efaafb434d338545f9027f503c9fa8,
  0x51a3408f929d38f5bcb6da2110fff3d2,
  0xcd0c13ec5f974417c4a77e3d645d1973,
  0x60814fdc222a908846eeb814de5e0bdb,
  0xe0323a0a4906245cc2d3ac629195e479,
  0xe7c8376d8dd54ea96c56f4ea657aae08,
  0xba78252e1ca6b4c6e8dd741f4bbd8b8a,
  0x703eb5664803f60e613557b986c11d9e,
  0xe1f8981169d98e949b1e87e9ce5528df,
  0x8ca1890dbfe6426841992d0fb054bb16]

/-- `SBOX[x]`: row `x[7:4]`, column `x[3:0]` (R104). -/
def sbox (x : Byte) : Byte :=
  (sboxRows[(x.extractLsb' 4 4).toFin]).extractLsb' (8 * (15 - (x.extractLsb' 0 4).toNat)) 8

/-- `SubBytes` (R106). -/
def subBytes (s : Block) : Block := Vector.ofFn fun i => sbox s[i]

/-- Where byte `i` of the ShiftRows output comes from: for `i = r + 4c`, byte `r + 4((c + r) mod 4)` (R107). -/
def shiftRowsSource (i : Fin 16) : Fin 16 :=
  let r := i.val % 4
  let c := i.val / 4
  ⟨r + 4 * ((c + r) % 4), by omega⟩

/-- `ShiftRows` (R107). -/
def shiftRows (s : Block) : Block := Vector.ofFn fun i => s[shiftRowsSource i]

/-- One column of `MixColumns` (R108). -/
def mixColumn (a0 a1 a2 a3 : Byte) : Vector Byte 4 := #v[
  gmul a0 2 ^^^ gmul a1 3 ^^^ a2 ^^^ a3,
  a0 ^^^ gmul a1 2 ^^^ gmul a2 3 ^^^ a3,
  a0 ^^^ a1 ^^^ gmul a2 2 ^^^ gmul a3 3,
  gmul a0 3 ^^^ a1 ^^^ a2 ^^^ gmul a3 2]

/-- `MixColumns`: each column `s[4c], s[4c+1], s[4c+2], s[4c+3]` by itself (R108). -/
def mixColumns (s : Block) : Block := Vector.ofFn fun i =>
  let c : Fin 4 := ⟨i.val / 4, by omega⟩
  let r : Fin 4 := ⟨i.val % 4, by omega⟩
  (mixColumn (s[4 * c.val]) (s[4 * c.val + 1]) (s[4 * c.val + 2]) (s[4 * c.val + 3]))[r]

/-- `AddRoundKey` (R109). -/
def addRoundKey (s rk : Block) : Block := xorBlock s rk

/-- `RCON[r]` for r = 1..10: `RCON[1] = 0x01`, `RCON[r+1] = xtime(RCON[r])` (R110). -/
def rcon (r : Nat) : Byte := xtimePow (r - 1) 0x01

/-- `NextRoundKey(rk, r)`: round key `r` from round key `r - 1` and nothing else (R111). -/
def nextRoundKey (rk : Block) (r : Nat) : Block :=
  let n0 := rk[0] ^^^ (sbox rk[13] ^^^ rcon r)
  let n1 := rk[1] ^^^ sbox rk[14]
  let n2 := rk[2] ^^^ sbox rk[15]
  let n3 := rk[3] ^^^ sbox rk[12]
  let n4 := rk[4] ^^^ n0
  let n5 := rk[5] ^^^ n1
  let n6 := rk[6] ^^^ n2
  let n7 := rk[7] ^^^ n3
  let n8 := rk[8] ^^^ n4
  let n9 := rk[9] ^^^ n5
  let n10 := rk[10] ^^^ n6
  let n11 := rk[11] ^^^ n7
  let n12 := rk[12] ^^^ n8
  let n13 := rk[13] ^^^ n9
  let n14 := rk[14] ^^^ n10
  let n15 := rk[15] ^^^ n11
  #v[n0, n1, n2, n3, n4, n5, n6, n7, n8, n9, n10, n11, n12, n13, n14, n15]

/-- The datapath before round 1: round key 0 is the key itself (R111, R112). -/
def cipherStart (k p : Block) : CipherWork := ⟨addRoundKey p k, k, 0⟩

/-- One round of R112 on the registers S, RK and ROUND (R31): the round key is derived on the fly from its
predecessor, and the last round omits MixColumns. -/
def cipherRound (w : CipherWork) : CipherWork :=
  let r := w.round.val + 1
  let shifted := shiftRows (subBytes w.s)
  let mixed := if r < Config.rounds then mixColumns shifted else shifted
  let rk := nextRoundKey w.rk r
  ⟨addRoundKey mixed rk, rk, Fin.ofNat 11 r⟩

/-- `n` rounds. -/
def cipherRounds : Nat → CipherWork → CipherWork
  | 0, w => w
  | n + 1, w => cipherRound (cipherRounds n w)

/-- `AES128(K, P)`, the forward cipher (R112). It is total: every key and every block gives an output. Irreducible, so that
no elaborator unfolds ten rounds on its own; the kernel evaluates it, and `rw [aes128]` unfolds it. -/
@[irreducible] def aes128 (k p : Block) : Block := (cipherRounds Config.rounds (cipherStart k p)).s

end Sys2Proof.Machine
end

