-- ==== Sys2Proof/HostNotation.lean ====
section
/-!
DEFINITION. Sys2Proof/HostNotation.lean: the host's bus transactions as data (spec/30_encoding.md R86, R87;
spec/20_memory.md R52). The pseudo-instructions of R86 are programs over these, in Machine/HostPrograms.lean.
-/

namespace Sys2Proof

/-- One element of a host program. The first three are R86's own forms, on a register offset. The last two are
R7's `MemRead` and `MemWrite` on a bus address, with any width, so that the model can refuse the widths that
do not exist (R52). -/
inductive BusOp where
  /-- `WR off, imm8`: the write `W off v` of R87. -/
  | wr (off v : Byte)
  /-- `RD off`: the read `R off` of R87. -/
  | rd (off : Byte)
  /-- `POLL off, mask, val`: `RD off` again and again until the byte read, masked, is `val`. -/
  | poll (off mask val : Byte)
  /-- `MemRead(addr, width)`. -/
  | memRead (addr width : Nat)
  /-- `MemWrite(addr, width, v)`, the width being the number of bytes written. -/
  | memWrite (addr : Nat) (bytes : List Byte)
deriving DecidableEq, Repr

end Sys2Proof
end

