-- ==== Sys2Proof/Machine/State.lean ====
section
/-!
DEFINITION. Sys2Proof/Machine/State.lean: every piece of state of spec/10_state.md R20, the reset pin of R34,
and the host and the environment of R9 as plain data.
-/

namespace Sys2Proof.Machine

/-- `OP`: the command in flight (R20, R30). -/
inductive Op where
  /-- NONE: the block is idle. -/
  | none
  /-- ENC is in flight. -/
  | enc
  /-- RNG_SEED is in flight. -/
  | seed
  /-- RNG_U8 is in flight. -/
  | u8
  /-- RNG_U16 is in flight. -/
  | u16
deriving DecidableEq, Repr

/-- One step of one agent, or one input from outside (R9, R34). -/
inductive Event where
  /-- The host performs its next transaction. -/
  | host
  /-- The engine completes the command in flight, if it is one the engine completes by itself. -/
  | engine
  /-- `noise_valid = 1` with this `noise_sample` (R161). -/
  | sample (x : Byte)
  /-- The pin `rst_n` takes this level (R260). -/
  | resetPin (level : Bool)
  /-- A second bus master issues a transaction, which a model does not admit (R244). -/
  | secondHost
deriving DecidableEq, Repr

/-- The host agent (R9): what it still has to do, and what its reads have returned. -/
structure HostAgent where
  /-- The transactions still to be performed, in program order (R61). -/
  prog : List BusOp
  /-- The byte `bus_rdata` returned by every read performed so far, oldest first (R34, R53). -/
  reads : List Byte
deriving DecidableEq, Repr

/-- The state of the block, its reset pin, the host, and the environment's choices. -/
structure State where
  /-- `KEY[0..15]`, write-only from the host (R21). -/
  key : Block
  /-- `DATA[0..15]` (R22). -/
  data : Block
  /-- STATUS bit 1, DONE (R24). -/
  done : Bool
  /-- STATUS bit 2, SEEDED (R24). STATUS bit 0, BUSY, is computed from `op`. -/
  seeded : Bool
  /-- `ERROR` (R25). -/
  error : Byte
  /-- `RNG_OUT_LO` (R26). -/
  rngOutLo : Byte
  /-- `RNG_OUT_HI` (R26). -/
  rngOutHi : Byte
  /-- `POOL[0..15]` (R27). -/
  pool : Block
  /-- `IDX`, 0..16 (R28). -/
  idx : Fin 17
  /-- `NS_HAVE` (R29, R162). -/
  nsHave : Bool
  /-- `NS_FIRST` (R29, R162). -/
  nsFirst : Bool
  /-- `SHIFT` (R29, R163). -/
  shift : Byte
  /-- `BITCNT`, 0..7 (R29, R163). -/
  bitcnt : Fin 8
  /-- `BYTEPTR`, 1..16 (R29, R164). -/
  byteptr : Fin 17
  /-- `OP` (R30). -/
  op : Op
  /-- `S`, `RK`, `ROUND`: unspecified outside a cipher pass, never observable (R31). -/
  work : CipherWork
  /-- The level of the reset pin `rst_n` (R34, R260). -/
  rstN : Bool
  /-- The host (R9). -/
  host : HostAgent
  /-- The environment's next choices, first first; after the last one they are free values (R10). -/
  agenda : List Event
  /-- THE MODEL'S OWN: the index of the next free choice of the environment (log entry 2). -/
  freeNext : Nat
  /-- THE MODEL'S OWN: the index of the next free value of S, RK and ROUND (log entry 3). -/
  freeWorkNext : Nat
deriving DecidableEq, Repr

/-- Why the machine stops with a fault. -/
inductive Fault where
  /-- Raised by a host `MemRead` or `MemWrite` whose bus address is outside the register window (R50): the platform
  does not select the block for it. Safe: the model stops. -/
  | outsideWindow (addr : Nat)
deriving DecidableEq, Repr

/-- Why a step is refused. -/
inductive Refusal where
  /-- Raised by an arm of `exec` whose instruction has no meaning yet; no arm is in that case. Safe. -/
  | notModelled (mnemonic : String)
  /-- Raised by a host access that is not one byte wide: "a model admits only 1-byte transactions and refuses
  any other width by name" (R52, D27). Safe. -/
  | accessWidth (bytes : Nat)
  /-- Raised by a transaction of a second bus master: "a model admits one host only" (R244, D26). Safe. -/
  | secondHost
deriving DecidableEq, Repr

/-- The machine right after reset (R20, R260): the block idle at its reset values with `rst_n = 1`, the host with
nothing to do, no choice of the environment fixed. S, RK and ROUND have no reset value in the spec: zero is the
model's choice (log entry 4). -/
def State.reset : State where
  key := zeroBlock
  data := zeroBlock
  done := false
  seeded := false
  error := 0x00
  rngOutLo := 0x00
  rngOutHi := 0x00
  pool := zeroBlock
  idx := 16
  nsHave := false
  nsFirst := false
  shift := 0x00
  bitcnt := 0
  byteptr := 1
  op := .none
  work := ⟨zeroBlock, zeroBlock, 0⟩
  rstN := true
  host := ⟨[], []⟩
  agenda := []
  freeNext := 0
  freeWorkNext := 0

end Sys2Proof.Machine
end

