-- ==== Sys2Proof/Machine/Flags.lean ====
section
/-!
DEFINITION. Sys2Proof/Machine/Flags.lean: STATUS (spec/10_state.md R24) and ERROR (R25).
-/

namespace Sys2Proof.Machine

/-- The three error causes (R25, R230-R233). -/
inductive ErrFlag where
  /-- ERR_BUSY, code 0 (R231). -/
  | busy
  /-- ERR_ILLEGAL, code 1 (R232). -/
  | illegal
  /-- ERR_UNSEEDED, code 2 (R233). -/
  | unseeded
deriving DecidableEq, Repr

/-- The cause's bit of ERROR (R231-R233). -/
def ErrFlag.mask : ErrFlag → Byte
  | .busy => 0x01
  | .illegal => 0x02
  | .unseeded => 0x04

/-- The cause's code, the number of its bit (R231-R233). -/
def ErrFlag.code : ErrFlag → Nat
  | .busy => 0
  | .illegal => 1
  | .unseeded => 2

/-- The flag is set. -/
def State.errorSet (s : State) (f : ErrFlag) : Bool := s.error &&& f.mask != 0x00

/-- BUSY: computed, not stored (R24). -/
def State.busy (s : State) : Bool := s.op != .none

/-- `SEEDED<<2 | DONE<<1 | BUSY`, zero-extended (R24, R53). -/
def State.statusByte (s : State) : Byte :=
  (BitVec.ofBool s.seeded ++ BitVec.ofBool s.done ++ BitVec.ofBool s.busy : BitVec 3).setWidth 8

/-- What a read of ERROR returns: bits 7:3 read as 0 (R25, R53). -/
def State.errorByte (s : State) : Byte := s.error &&& 0x07

end Sys2Proof.Machine
end

