-- ==== Sys2Proof/Machine/Operands.lean ====
section
/-!
DEFINITION. Sys2Proof/Machine/Operands.lean: which register an offset, or a bus address, names
(spec/20_memory.md R50, R51). The commands' own operands are implicit (spec/30_encoding.md R84).
-/

namespace Sys2Proof.Machine

/-- A row of the register map (R51). -/
inductive WindowReg where
  | cmd
  | status
  | error
  | rngOutLo
  | rngOutHi
  /-- `KEY[i]`, at offset 0x10 + i (R56). -/
  | key (i : Fin 16)
  /-- `DATA[i]`, at offset 0x20 + i (R56). -/
  | data (i : Fin 16)
  /-- 0x03, 0x06..0x0F, 0x30..0xFF (R55). -/
  | reserved
deriving DecidableEq, Repr

/-- The row an offset decodes to: exactly one for every offset (R51). -/
def windowReg (off : Byte) : WindowReg :=
  if off = 0x00 then .cmd
  else if off = 0x01 then .status
  else if off = 0x02 then .error
  else if off = 0x04 then .rngOutLo
  else if off = 0x05 then .rngOutHi
  else if h : 0x10 ≤ off.toNat ∧ off.toNat ≤ 0x1F then .key ⟨off.toNat - 0x10, by omega⟩
  else if h : 0x20 ≤ off.toNat ∧ off.toNat ≤ 0x2F then .data ⟨off.toNat - 0x20, by omega⟩
  else .reserved

/-- The offset of `KEY[i]` (R56). -/
def keyOffset (i : Fin 16) : Byte := BitVec.ofNat 8 (0x10 + i.val)

/-- The offset of `DATA[i]` (R56). -/
def dataOffset (i : Fin 16) : Byte := BitVec.ofNat 8 (0x20 + i.val)

/-- `off = addr - AESENG_BASE` for an address in the window (R7, R50). -/
def windowOffset (addr : Nat) : Option Byte :=
  if Config.windowBase ≤ addr ∧ addr < Config.windowBase + Config.windowBytes then
    some (BitVec.ofNat 8 (addr - Config.windowBase))
  else none

end Sys2Proof.Machine
end

