-- ==== Sys2Proof/Machine/Ops.lean ====
section
/-!
DEFINITION. Sys2Proof/Machine/Ops.lean: the operations the commands and the bus share: raising an error and clearing
it (the block's only exception mechanism, spec/60_exceptions.md R235, R238), accepting a command and completing
it, and the register reads and writes.
-/

namespace Sys2Proof.Machine

/-- `raise Err(F)`: set the flag, reject the transaction, change nothing else (R7, R230, R235). -/
def raise (f : ErrFlag) (s : State) : State := { s with error := s.error ||| f.mask }

/-- The "return" from an error: write-one-to-clear (R54, R238). -/
def clearErrors (v : Byte) (s : State) : State := { s with error := s.error &&& ~~~(v &&& 0x07) }

/-- A host transaction has an effect only while `rst_n = 1` (R260). -/
def whenRunning (k : State → State) (s : State) : State := if s.rstN then k s else s

/-- A write to CMD, KEY or DATA: ERR_BUSY while a command is in flight (R54, R231). -/
def whenIdle (k : State → State) (s : State) : State :=
  whenRunning (fun t => if t.busy then raise .busy t else k t) s

/-- `Accept(op)` (R81). The acceptance of RNG_SEED also clears SEEDED and the collection registers (R29, R166). -/
def accept (op : Op) (s : State) : State :=
  let t := { s with op := op, done := false }
  match op with
  | .seed =>
    { t with seeded := false, nsHave := false, nsFirst := false, shift := 0x00, bitcnt := 0, byteptr := 1 }
  | .none => t
  | .enc => t
  | .u8 => t
  | .u16 => t

/-- A draw is accepted only from a seeded pool (R81, R233). -/
def acceptDraw (op : Op) (s : State) : State :=
  if s.seeded then accept op s else raise .unseeded s

/-- The end of every command: BUSY reads 0 and DONE reads 1 (R142, R165, R168, R169). -/
def complete (s : State) : State := { s with op := .none, done := true }

/-- The datapath has run: S, RK and ROUND hold no value the spec gives (R20, R31). Log entry 3. -/
def disturbWork (s : State) : State :=
  { s with work := Config.freeWork s.freeWorkNext, freeWorkNext := s.freeWorkNext + 1 }

/-- A CMD write of a byte that is no opcode (R83, R232). -/
def illegalCommand (s : State) : State := whenIdle (raise .illegal) s

/-- `KEY[i] <- v` (R21). -/
def setKey (i : Fin 16) (v : Byte) (s : State) : State := { s with key := s.key.set i v }

/-- `DATA[i] <- v` (R22). -/
def setData (i : Fin 16) (v : Byte) (s : State) : State := { s with data := s.data.set i v }

/-- What a read of a register returns (R53). -/
def readReg (s : State) : WindowReg → Byte
  | .cmd => 0x00
  | .status => s.statusByte
  | .error => s.errorByte
  | .rngOutLo => if s.busy then 0x00 else s.rngOutLo
  | .rngOutHi => if s.busy then 0x00 else s.rngOutHi
  | .key _ => 0x00
  | .data i => if s.busy then 0x00 else s.data[i]
  | .reserved => 0x00

/-- `HostRead(off)`: `bus_rdata` of a read (R53); 0x00 while `rst_n = 0` (R260). -/
def hostRead (off : Byte) (s : State) : Byte :=
  if s.rstN then readReg s (windowReg off) else 0x00

/-- The output port `noise_req`: 1 while `OP = SEED` (R34, R161), 0 in reset (R260). -/
def State.noiseReq (s : State) : Bool := s.rstN && s.op == .seed

/-- The host has received a byte. -/
def logRead (v : Byte) (s : State) : State :=
  { s with host := { s.host with reads := s.host.reads ++ [v] } }

/-- What remains of the host's program. -/
def setProg (p : List BusOp) (s : State) : State := { s with host := { s.host with prog := p } }

/-- What remains of the environment's choices. -/
def setAgenda (es : List Event) (s : State) : State := { s with agenda := es }

/-- The reset value of every piece of state of R20, whatever was in flight (R260, R261). The host and the
environment are outside the block and keep theirs. -/
def blockReset (s : State) : State :=
  { State.reset with
    rstN := s.rstN, host := s.host, agenda := s.agenda, freeNext := s.freeNext, freeWorkNext := s.freeWorkNext }

/-- The reset pin takes a level: while it is 0 the block takes and holds its reset values, and S, RK and ROUND, which
have none, hold free values (R20, R260). -/
def setResetPin (level : Bool) (s : State) : State :=
  if level then { s with rstN := true } else { disturbWork (blockReset s) with rstN := false }

end Sys2Proof.Machine
end

