-- ==== Sys2Proof/Machine/Cipher.lean ====
section
/-!
DEFINITION. Sys2Proof/Machine/Cipher.lean: the cipher unit's commands NOP and ENC (spec/41_cipher_commands.md).
A meaning is the step of the host's CMD write (R81); the completion of ENC is the engine's (R142).
-/

namespace Sys2Proof.Machine

/-- `NOP` (R140): no effect, and ERR_BUSY while a command is in flight. -/
def execNop (s : State) : Host.Outcome State Fault Refusal := .next (whenIdle id s)

/-- `ENC`, acceptance (R141). -/
def execEnc (s : State) : Host.Outcome State Fault Refusal := .next (whenIdle (accept .enc) s)

/-- `ENC`, completion (R142): `DATA <- AES128(KEY, DATA)`, all sixteen bytes at once. -/
def encComplete (s : State) : State :=
  complete (disturbWork { s with data := aes128 s.key s.data })

end Sys2Proof.Machine
end

