-- ==== Sys2Proof/Machine/Rng.lean ====
section
/-!
DEFINITION. Sys2Proof/Machine/Rng.lean: the randomness unit (spec/42_rng.md): entropy collection, the draws, and the
commands RNG_SEED, RNG_U8 and RNG_U16. A meaning is the step of the host's CMD write (spec/30_encoding.md R81);
the rest of a command is the engine's.
-/

namespace Sys2Proof.Machine

/-- `SeedComplete()` (R165). -/
def seedComplete (s : State) : State :=
  complete { s with pool := s.pool.set 0 0x00, idx := 16, seeded := true }

/-- `StoreByte(v)` (R164): `POOL[BYTEPTR] <- v`; the fifteenth byte completes the seed. -/
def storeByte (v : Byte) (s : State) : State :=
  let t := { s with pool := s.pool.setIfInBounds s.byteptr.val v }
  if h : s.byteptr.val + 1 < 1 + Config.seedBytes then
    { t with byteptr := ⟨s.byteptr.val + 1, by simp only [Config.seedBytes] at h; omega⟩ }
  else seedComplete { t with byteptr := 16 }

/-- `KeepBit(k)` (R163): the bit enters at bit 0, and the eighth one of a byte stores it. -/
def keepBit (k : Bool) (s : State) : State :=
  let v := (s.shift <<< 1) ||| bitByte k
  if s.bitcnt = 7 then { storeByte v { s with shift := v } with shift := 0x00, bitcnt := 0 }
  else { s with shift := v, bitcnt := s.bitcnt + 1 }

/-- The bit of a noise sample that is used (R162). -/
def noiseBitOf (x : Byte) : Bool := x.getLsbD Config.noiseBit

/-- `ConsumeSample(x)` (R162): non-overlapping pairs; a differing pair keeps the second sample's bit. -/
def consumeSample (x : Byte) (s : State) : State :=
  let b := noiseBitOf x
  if s.nsHave then
    let t := { s with nsHave := false }
    if b = s.nsFirst then t else keepBit b t
  else { s with nsFirst := b, nsHave := true }

/-- A sample the noise source presents: consumed in its cycle while `noise_req = 1`, otherwise ignored (R161). -/
def offerSample (x : Byte) (s : State) : State :=
  if s.noiseReq then consumeSample x s else s

/-- The re-whitening `POOL <- AES128(RNG_KEY, POOL); IDX <- 0` under a given key (R167). -/
def rewhiten (rngKey : Block) (s : State) : State :=
  disturbWork { s with pool := aes128 rngKey s.pool, idx := 0 }

/-- `v <- POOL[IDX]; IDX <- IDX + 1` at a position inside the pool (R167). -/
def takeByte (i : Fin 16) (s : State) : Byte × State := (s.pool[i], { s with idx := i.succ })

/-- `RngDraw()` (R167) under a given re-whitening key: a pool used up (`IDX = 16`) is re-whitened first. -/
def rngDrawWith (rngKey : Block) (s : State) : Byte × State :=
  if h : s.idx.val < 16 then takeByte ⟨s.idx.val, h⟩ s else takeByte 0 (rewhiten rngKey s)

/-- `RNG_U8`, completion (R168), under a given re-whitening key. -/
def u8CompleteWith (rngKey : Block) (s : State) : State :=
  let d := rngDrawWith rngKey s
  complete { d.2 with rngOutLo := d.1, rngOutHi := 0x00 }

/-- `RNG_U16`, completion (R169), under a given re-whitening key: the first byte drawn is the high byte. -/
def u16CompleteWith (rngKey : Block) (s : State) : State :=
  let hi := rngDrawWith rngKey s
  let lo := rngDrawWith rngKey hi.2
  complete { lo.2 with rngOutHi := hi.1, rngOutLo := lo.1 }

/-- `RngDraw()` of the hardware, whose key is `RNG_KEY` (R32, R167). -/
def rngDraw (s : State) : Byte × State := rngDrawWith Config.rngKey s

/-- `RNG_U8`, completion (R168). -/
def u8Complete (s : State) : State := u8CompleteWith Config.rngKey s

/-- `RNG_U16`, completion (R169). -/
def u16Complete (s : State) : State := u16CompleteWith Config.rngKey s

/-- `RNG_SEED`, acceptance (R166). -/
def execRngSeed (s : State) : Host.Outcome State Fault Refusal := .next (whenIdle (accept .seed) s)

/-- `RNG_U8`, acceptance (R168). -/
def execRngU8 (s : State) : Host.Outcome State Fault Refusal := .next (whenIdle (acceptDraw .u8) s)

/-- `RNG_U16`, acceptance (R169). -/
def execRngU16 (s : State) : Host.Outcome State Fault Refusal := .next (whenIdle (acceptDraw .u16) s)

end Sys2Proof.Machine
end

