-- ==== Sys2Proof/Machine/Dispatch.lean ====
section
/-!
DEFINITION. Sys2Proof/Machine/Dispatch.lean: the meaning of each command (spec/30_encoding.md R81, R82).
-/

namespace Sys2Proof.Machine

def exec (i : Instr) (s : State) : Host.Outcome State Fault Refusal :=
  match i with
  | .nop => Sys2Proof.Machine.execNop s
  | .enc => Sys2Proof.Machine.execEnc s
  | .rngSeed => Sys2Proof.Machine.execRngSeed s
  | .rngU8 => Sys2Proof.Machine.execRngU8 s
  | .rngU16 => Sys2Proof.Machine.execRngU16 s

end Sys2Proof.Machine
end

