-- ==== Sys2Proof/Machine/Bus.lean ====
section
/-!
DEFINITION. Sys2Proof/Machine/Bus.lean: the host's bus transactions (spec/20_memory.md R52-R55,
spec/30_encoding.md R81, R86).
-/

namespace Sys2Proof.Machine

/-- A host write to CMD: the command decoder (R54, R81). The meaning of a command, and `illegalCommand`, check BUSY
before anything else (R234). -/
def commandWrite (c : Byte) (s : State) : Host.Outcome State Fault Refusal :=
  match decode c with
  | .command i => exec i s
  | .illegal => .next (illegalCommand s)

/-- `HostWrite(off, v)` (R54). -/
def hostWrite (off v : Byte) (s : State) : Host.Outcome State Fault Refusal :=
  match windowReg off with
  | .cmd => commandWrite v s
  | .status => .next s
  | .error => .next (whenRunning (clearErrors v) s)
  | .rngOutLo => .next s
  | .rngOutHi => .next s
  | .key i => .next (whenIdle (setKey i v) s)
  | .data i => .next (whenIdle (setData i v) s)
  | .reserved => .next s

/-- A host read: the byte goes to the host, and nothing in the block changes (R53, R60). -/
def readToHost (off : Byte) (s : State) : State := logRead (hostRead off s) s

/-- One try of a POLL loop: the loop stays the host's next transaction until the byte read matches (R86). -/
def pollOnce (off mask val : Byte) (s : State) : State :=
  let t := readToHost off s
  if hostRead off s &&& mask = val then t else setProg (.poll off mask val :: s.host.prog) t

/-- One transaction, already taken off the host's program. A width other than one byte is refused by name (R52);
an address outside the window does not reach the block. -/
def transaction (b : BusOp) (s : State) : Host.Outcome State Fault Refusal :=
  match b with
  | .wr off v => hostWrite off v s
  | .rd off => .next (readToHost off s)
  | .poll off mask val => .next (pollOnce off mask val s)
  | .memRead addr width =>
    if width = 1 then
      match windowOffset addr with
      | some off => .next (readToHost off s)
      | none => .fault (.outsideWindow addr)
    else .refused (.accessWidth width)
  | .memWrite addr bytes =>
    match bytes with
    | [v] =>
      match windowOffset addr with
      | some off => hostWrite off v s
      | none => .fault (.outsideWindow addr)
    | _ => .refused (.accessWidth bytes.length)

/-- The host's step: its next transaction in program order, or nothing when it has none left (R9, R61). -/
def hostStep (s : State) : Host.Outcome State Fault Refusal :=
  match s.host.prog with
  | [] => .next s
  | b :: rest => transaction b (setProg rest s)

end Sys2Proof.Machine
end

