-- ==== Sys2Proof/Machine/Engine.lean ====
section
/-!
DEFINITION. Sys2Proof/Machine/Engine.lean: the engine's completion steps, and what each event does
(spec/00_scope.md R9, spec/41_cipher_commands.md R142, spec/42_rng.md R161, R168, R169).
-/

namespace Sys2Proof.Machine

/-- The completion step of the command in flight. A seed completes only through its samples (R165, R172), and an idle
block has nothing to complete. -/
def completion (s : State) : State :=
  match s.op with
  | .none => s
  | .enc => encComplete s
  | .seed => s
  | .u8 => u8Complete s
  | .u16 => u16Complete s

/-- The engine's step (R9); in reset it does nothing (R260, R261). -/
def engineStep (s : State) : State := whenRunning completion s

/-- What one event does (R9). -/
def perform (e : Event) (s : State) : Host.Outcome State Fault Refusal :=
  match e with
  | .host => hostStep s
  | .engine => .next (engineStep s)
  | .sample x => .next (offerSample x s)
  | .resetPin level => .next (setResetPin level s)
  | .secondHost => .refused .secondHost

/-- Where free choice `n` stands between the engine's moves: how many gaps are behind it, and how many steps of its
own gap are still to come. -/
def freeTurn : Nat → Nat × Nat
  | 0 => (0, Config.freeGap 0)
  | n + 1 =>
    match freeTurn n with
    | (k, 0) => (k + 1, Config.freeGap (k + 1))
    | (k, r + 1) => (k, r)

/-- The event an environment chooses where no agenda says which (R10): any agent, and any sample value, but at the end of
each gap the engine moves, so that it moves again after every step (the fairness of R11). Every order of events in
which the engine moves again and again is of this form. The reset pin is never chosen. Log entries 2 and 11. -/
def freeEvent (n : Nat) : Event :=
  match (freeTurn n).2 with
  | 0 => .engine
  | _ + 1 =>
    match Config.freeAgent n with
    | .host => .host
    | .engine => .engine
    | .noise => .sample (Config.freeSample n)

end Sys2Proof.Machine
end

