-- ==== Sys2Proof/Machine/Step.lean ====
section
/-!
DEFINITION. Sys2Proof/Machine/Step.lean: one step of the system (spec/00_scope.md R9, R10, spec/20_memory.md R61).
-/

namespace Sys2Proof.Machine

/-- One step: the first event of the agenda, or, after its last, whatever the environment chooses. Every interleaving
of the host's transactions, in program order, with the engine's steps and the noise samples is a run (R61). -/
def step (s : State) : Host.Outcome State Fault Refusal :=
  match s.agenda with
  | e :: rest => perform e (setAgenda rest s)
  | [] => perform (freeEvent s.freeNext) { s with freeNext := s.freeNext + 1 }

/-- `k` steps, stopping at the first fault or refusal. -/
def run : Nat → State → Host.Outcome State Fault Refusal
  | 0, s => .next s
  | k + 1, s =>
    match step s with
    | .next s' => run k s'
    | .fault r => .fault r
    | .refused r => .refused r

/-- The state whose next step is the host's write of this table word to CMD. The block fetches nothing (R8): the
next "instruction" is the next byte the host writes to CMD, so the word goes to the front of the host's program and
the host's move to the front of the agenda. Log entry 5. THE MODEL'S CHOICE (DESIGN CHOICE, log entry 15): the spec
knows no command word of another width than 8 bits (R85); of a wider one only the low byte is written to CMD, and of
a narrower one the byte whose higher bits are 0. -/
def State.withFetchWord (s : State) (nbits w : Nat) : State :=
  { s with
    host := { s.host with prog := .wr 0x00 (BitVec.ofNat 8 (w % 2 ^ nbits)) :: s.host.prog }
    agenda := .host :: s.agenda }

end Sys2Proof.Machine
end

