-- ==== Sys2Proof/Machine/HostPrograms.lean ====
section
/-!
DEFINITION. Sys2Proof/Machine/HostPrograms.lean: the pseudo-instructions of spec/30_encoding.md R86 as the transactions
they stand for, and running a host program to its end (spec/70_reset_and_hazards.md R270).
-/

namespace Sys2Proof.Machine

/-- `NOP`, `ENC`, `RNG_SEED`, `RNG_U8`, `RNG_U16`: `WR 0x00, <opcode>` (R86). -/
def cmdProg (i : Instr) : List BusOp := [.wr 0x00 (encode i)]

/-- `WAIT`: `POLL 0x01, 0x01, 0x00` (R86). -/
def waitProg : List BusOp := [.poll 0x01 0x01 0x00]

/-- `WRKEY b0 .. b15`, in increasing offset (R86). -/
def wrKeyProg (k : Block) : List BusOp := (List.finRange 16).map fun i => .wr (keyOffset i) k[i]

/-- `WRDATA b0 .. b15` (R86). -/
def wrDataProg (p : Block) : List BusOp := (List.finRange 16).map fun i => .wr (dataOffset i) p[i]

/-- `RDDATA` (R86). -/
def rdDataProg : List BusOp := (List.finRange 16).map fun i => .rd (dataOffset i)

/-- `RDRNG`: the low byte, then the high byte (R57, R86). -/
def rdRngProg : List BusOp := [.rd 0x04, .rd 0x05]

/-- `CLRERR mask` (R86). -/
def clrErrProg (mask : Byte) : List BusOp := [.wr 0x02 mask]

/-- The boot order of R263: seed and wait, load the key, clear the errors. -/
def bootProg (k : Block) : List BusOp := cmdProg .rngSeed ++ waitProg ++ wrKeyProg k ++ clrErrProg 0x07

/-- The host begins this program. -/
def loadProg (p : List BusOp) (s : State) : State := setProg p s

/-- The end of a host program: its last transaction performed, and BUSY = 0 (R270). -/
def programEnded (s : State) : Bool := s.host.prog.isEmpty && !s.busy

/-- Runs until the host's program has ended, for at most `fuel` steps; nothing if it has not ended by then, or if the
machine stopped. -/
def runProgram : Nat → State → Option State
  | 0, s => if programEnded s then some s else none
  | fuel + 1, s =>
    if programEnded s then some s
    else
      match step s with
      | .next s' => runProgram fuel s'
      | .fault _ => none
      | .refused _ => none

/-- The last `n` bytes the host has read. -/
def lastReads (n : Nat) (s : State) : List Byte := s.host.reads.drop (s.host.reads.length - n)

/-- The 16-bit value of the last `RDRNG`: `le16(lo, hi)` (R57, R86). -/
def lastRng (s : State) : BitVec 16 :=
  le16 ((lastReads 2 s).getD 0 0x00) ((lastReads 2 s).getD 1 0x00)

/-- Loading the key once, for every later encryption (R143, R200). -/
def hostLoadKey (fuel : Nat) (k : Block) (s : State) : Option State :=
  runProgram fuel (loadProg (wrKeyProg k) s)

/-- The transactions of `HostEnc(P)` (R200). -/
def hostEncProg (p : Block) : List BusOp := wrDataProg p ++ cmdProg .enc ++ waitProg ++ rdDataProg

/-- `HostEnc(P)`: one encryption by the block with the key already in KEY (R200). -/
def hostEnc (fuel : Nat) (p : Block) (s : State) : Option (Block × State) :=
  match runProgram fuel (loadProg (hostEncProg p) s) with
  | some t => some (blockOfList (lastReads 16 t), t)
  | none => none

end Sys2Proof.Machine
end

