-- ==== Sys2Proof/Machine/HostProcedures.lean ====
section
/-!
DEFINITION. Sys2Proof/Machine/HostProcedures.lean: the host procedures built on ENC (spec/43_modes.md): the MIC chain,
the keystream, the cipher-input layouts and the join keys. Each is written once over an encryption primitive: the
block itself (`hostEnc`, with the machine's state threaded through) or the cipher alone (`pureEnc`). The host's own
work between transactions (XOR, doubling, comparison) is ordinary computation.
-/

namespace Sys2Proof.Machine

/-- An encryption primitive over a state `σ`: the ciphertext and the state after, or nothing where it did not end. -/
abbrev Encryptor (σ : Type) := Block → σ → Option (Block × σ)

/-- The cipher alone, under a fixed key. -/
def pureEnc (k : Block) : Encryptor Unit := fun p u => some (aes128 k p, u)

/-- `for j in 1..n : T <- HostEnc(T ^ Mj)` (R201). -/
def chainFrom {σ : Type} (enc : Encryptor σ) (t : Block) : List Block → σ → Option (Block × σ)
  | [], s => some (t, s)
  | m :: ms, s =>
    match enc (xorBlock t m) s with
    | some (t', s') => chainFrom enc t' ms s'
    | none => none

/-- The CBC-MAC chain, from `T = 00^16` (R201). -/
def cbcMac {σ : Type} (enc : Encryptor σ) (ms : List Block) (s : σ) : Option (Block × σ) :=
  chainFrom enc zeroBlock ms s

/-- A block as a 128-bit big-endian integer, `x[0]` most significant (R202). -/
def blockBits (x : Block) : BitVec 128 := x.foldl (fun acc b => (acc <<< 8) ||| b.setWidth 128) 0

/-- `dbl(x)` (R202). -/
def dbl (x : Block) : Block :=
  hexBlock ((blockBits x <<< 1) ^^^ (if x[0].getLsbD 7 then 0x87 else 0x00))

/-- `n = max(1, ceil(len / 16))` (R202). -/
def macBlockCount (len : Nat) : Nat := max 1 ((len + 15) / 16)

/-- The bytes of block `j` (from 0) of a message: sixteen, or fewer in the last one (R202). -/
def messagePart (m : List Byte) (j : Nat) : List Byte := (m.drop (16 * j)).take 16

/-- The last block of a CMAC: XORed with K1 when it is full, else padded with `80 00..00` and XORed with K2 (R202). -/
def cmacLast (k1 k2 : Block) (m : List Byte) : Block :=
  let part := messagePart m (macBlockCount m.length - 1)
  if part.length = 16 then xorBlock (blockOfList part) k1
  else xorBlock (blockOfList (part ++ [0x80])) k2

/-- `M1 .. Mn` with the subkey on the last one (R202). -/
def cmacBlocks (k1 k2 : Block) (m : List Byte) : List Block :=
  (List.range (macBlockCount m.length - 1)).map (fun j => blockOfList (messagePart m j)) ++ [cmacLast k1 k2 m]

/-- `CMAC(K, m)` (R202). -/
def cmac {σ : Type} (enc : Encryptor σ) (m : List Byte) (s : σ) : Option (Block × σ) :=
  match enc zeroBlock s with
  | some (l, s') => cbcMac enc (cmacBlocks (dbl l) (dbl (dbl l)) m) s'
  | none => none

/-- The MIC's four bytes: the first four of the chain output, in that order on the wire (R203). -/
def micBytes (t : Block) : Vector Byte 4 := #v[t[0], t[1], t[2], t[3]]

/-- The MIC's 32-bit value (R203). -/
def micValue (t : Block) : BitVec 32 := le32 t[0] t[1] t[2] t[3]

/-- What the counter blocks and the first MIC block are made from (R206). -/
structure FrameInput where
  /-- `Dir`: false for uplink (0x00), true for downlink (0x01). -/
  downlink : Bool
  devAddr : BitVec 32
  /-- The full 32-bit frame counter. -/
  fCnt : BitVec 32
deriving DecidableEq, Repr

/-- The sixteen bytes both layouts share, between the first byte and the last (R206). -/
def frameLayout (first : Byte) (f : FrameInput) (last : Byte) : Block :=
  blockOfList ([first, 0x00, 0x00, 0x00, 0x00, bitByte f.downlink] ++ bytesLe32 f.devAddr ++ bytesLe32 f.fCnt
    ++ [0x00, last])

/-- `A_i`, the counter block of keystream block `i` (R206). -/
def counterBlock (f : FrameInput) (i : Byte) : Block := frameLayout 0x01 f i

/-- `B0`, the first block of the MIC input, for a message of this many bytes (R206). -/
def micFirstBlock (f : FrameInput) (len : Byte) : Block := frameLayout 0x49 f len

/-- The MIC of a frame: `CMAC(NwkSKey, B0 || msg)[0..3]` (R203, R206). The layout has one byte for `len(msg)`: a
longer message has no B0, and this procedure gives nothing for it. Log entry 7. -/
def frameMic {σ : Type} (enc : Encryptor σ) (f : FrameInput) (msg : List Byte) (s : σ) :
    Option (Vector Byte 4 × σ) :=
  if msg.length < 256 then
    match cmac enc ((micFirstBlock f (BitVec.ofNat 8 msg.length)).toList ++ msg) s with
    | some (t, s') => some (micBytes t, s')
    | none => none
  else none

/-- Verification before use: the MIC is recomputed and compared with the received one (R204). -/
def verifyMic {σ : Type} (enc : Encryptor σ) (f : FrameInput) (msg : List Byte) (received : Vector Byte 4)
    (s : σ) : Option (Bool × σ) :=
  match frameMic enc f msg s with
  | some (mic, s') => some (mic == received, s')
  | none => none

/-- Writing the key a procedure encrypts under, over a state `σ`. On the block it is `hostLoadKey`. -/
abbrev KeyLoader (σ : Type) := Block → σ → Option σ

/-- The cipher alone, the key being the state. -/
def keyedEnc : Encryptor Block := fun p k => some (aes128 k p, k)

/-- Its key loader: the new key takes the old one's place. -/
def keyedLoad : KeyLoader Block := fun k _ => some k

/-- `for j in 1..n : Sj <- HostEnc(Aj)`, the keystream bytes `S1 || S2 || ...` (R205). -/
def keystream {σ : Type} (enc : Encryptor σ) : List Block → σ → Option (List Byte × σ)
  | [], s => some ([], s)
  | a :: as, s =>
    match enc a s with
    | some (k, s') =>
      match keystream enc as s' with
      | some (ks, s'') => some (k.toList ++ ks, s'')
      | none => none
    | none => none

/-- `ceil(len / 16)` (R205). -/
def keystreamBlockCount (len : Nat) : Nat := (len + 15) / 16

/-- The stream cipher: the payload XORed with the keystream of its `ceil(len / 16)` counter blocks (R205); a host that
has built fewer counter blocks gets nothing. The same procedure turns the ciphertext back into the payload. -/
def streamCipher {σ : Type} (enc : Encryptor σ) (counters : List Block) (payload : List Byte) (s : σ) :
    Option (List Byte × σ) :=
  if keystreamBlockCount payload.length ≤ counters.length then
    match keystream enc (counters.take (keystreamBlockCount payload.length)) s with
    | some (ks, s') => some (List.zipWith (fun p k => p ^^^ k) payload ks, s')
    | none => none
  else none

/-- The counter blocks `A_1 .. A_n` of a frame (R206). -/
def counterBlocks (f : FrameInput) (n : Nat) : List Block :=
  (List.range n).map fun j => counterBlock f (BitVec.ofNat 8 (j + 1))

/-- The payload cipher of a frame (R205, R206). The layout has one byte for `i`: a payload of more than 255 blocks has no
counter blocks, and this procedure gives nothing for it. Log entry 7. -/
def framePayload {σ : Type} (enc : Encryptor σ) (f : FrameInput) (payload : List Byte) (s : σ) :
    Option (List Byte × σ) :=
  let n := keystreamBlockCount payload.length
  if n < 256 then streamCipher enc (counterBlocks f n) payload s else none

/-- A frame as the host has received it, as far as the cipher's inputs go (R204, R206). -/
structure ReceivedFrame where
  /-- From the header byte to the ciphered payload. -/
  header : List Byte
  /-- The ciphered payload. -/
  payload : List Byte
  /-- The 4 received MIC bytes. -/
  mic : Vector Byte 4
deriving DecidableEq, Repr

/-- `msg`: "the frame from the header byte to the end of the ciphered payload" (R206). -/
def ReceivedFrame.msg (r : ReceivedFrame) : List Byte := r.header ++ r.payload

/-- What the host's engine is given of a received frame (R204). -/
inductive Received where
  /-- The MIC did not match: "no valid message", as if nothing were received. -/
  | noValidMessage
  /-- The MIC matched: the frame's payload, deciphered. -/
  | message (payload : List Byte)
deriving DecidableEq, Repr

/-- Receiving a frame (R204): the MIC is recomputed under the network session key and compared BEFORE the rest is used.
On a mismatch the procedure ends there, with no further ENC and no further transaction; on a match the payload is
deciphered under the payload's key by the stream cipher (R205). Which key that is, R205 and R206 do not say: the
host gives it. Log entry 16. -/
def receiveFrame {σ : Type} (load : KeyLoader σ) (enc : Encryptor σ) (nwkKey payloadKey : Block) (f : FrameInput)
    (r : ReceivedFrame) (s : σ) : Option (Received × σ) :=
  match load nwkKey s with
  | none => none
  | some s1 =>
    match verifyMic enc f r.msg r.mic s1 with
    | none => none
    | some (false, s2) => some (.noValidMessage, s2)
    | some (true, s2) =>
      match load payloadKey s2 with
      | none => none
      | some s3 =>
        match framePayload enc f r.payload s3 with
        | some (p, s4) => some (.message p, s4)
        | none => none

/-- The input block of a join key: the tag, AppNonce and NetID (3 bytes each), DevNonce (2 bytes), and seven 0x00
bytes (R207). -/
def joinBlock (tag : Byte) (appNonce netId : Vector Byte 3) (devNonce : Vector Byte 2) : Block :=
  blockOfList ([tag] ++ appNonce.toList ++ netId.toList ++ devNonce.toList)

/-- `NwkSKey` and `AppSKey`: two ENC commands under the device's root key (R207). -/
def joinKeys {σ : Type} (enc : Encryptor σ) (appNonce netId : Vector Byte 3) (devNonce : Vector Byte 2) (s : σ) :
    Option ((Block × Block) × σ) :=
  match enc (joinBlock 0x01 appNonce netId devNonce) s with
  | some (nwk, s') =>
    match enc (joinBlock 0x02 appNonce netId devNonce) s' with
    | some (app, s'') => some ((nwk, app), s'')
    | none => none
  | none => none

/-- The join-accept body is turned back into plaintext with ENC, block by block (R207). -/
def joinAcceptPlain {σ : Type} (enc : Encryptor σ) : List Block → σ → Option (List Block × σ)
  | [], s => some ([], s)
  | c :: cs, s =>
    match enc c s with
    | some (p, s') =>
      match joinAcceptPlain enc cs s' with
      | some (ps, s'') => some (p :: ps, s'')
      | none => none
    | none => none

end Sys2Proof.Machine
end

