-- ==== Sys2Proof/Machine/Timing.lean ====
section
/-!
DEFINITION. Sys2Proof/Machine/Timing.lean: the latencies of spec/70_reset_and_hazards.md R267. They are timing only:
`step` completes a command at some later step and uses none of them (log entry 6).
-/

namespace Sys2Proof.Machine

/-- The command in flight will re-whiten the pool: RNG_U8 when the pool is used up, RNG_U16 when either of its
draws finds it so (R168, R169). -/
def willRewhiten (s : State) : Bool :=
  match s.op with
  | .none => false
  | .enc => false
  | .seed => false
  | .u8 => decide (s.idx.val = 16)
  | .u16 => decide (15 ≤ s.idx.val)

/-- The cycles from acceptance to completion of the command in flight (R267): none for an idle block, and none the
block fixes for a seed, whose duration the noise source sets (R172). -/
def latency (s : State) : Option Nat :=
  match s.op with
  | .none => none
  | .enc => some Config.aesCycles
  | .seed => none
  | .u8 => some (if willRewhiten s then 1 + Config.aesCycles else 1)
  | .u16 => some (if willRewhiten s then 1 + Config.aesCycles else 1)

end Sys2Proof.Machine
end

