-- ==== Sys2Proof/WellFormed.lean ====
section
/-!
DEFINITION. Sys2Proof/WellFormed.lean: which commands and which host transactions exist at all.
-/

namespace Sys2Proof

/-- No command has a field that could be ill-formed (R84, R85). -/
def Instr.wf : Instr → Bool
  | .nop => true
  | .enc => true
  | .rngSeed => true
  | .rngU8 => true
  | .rngU16 => true

/-- The bus address lies in the register window (R50). -/
def inWindow (addr : Nat) : Bool :=
  decide (Config.windowBase ≤ addr) && decide (addr < Config.windowBase + Config.windowBytes)

/-- A host transaction the block can be given: one byte wide, in the window (R50, R52). -/
def BusOp.wf : BusOp → Bool
  | .wr _ _ => true
  | .rd _ => true
  | .poll _ _ _ => true
  | .memRead addr width => width == 1 && inWindow addr
  | .memWrite addr bytes => bytes.length == 1 && inWindow addr

end Sys2Proof
end

