-- ==== Sys2Proof/Safety.lean ====
section
/-!
DEFINITION. Sys2Proof/Safety.lean: the terms the claims are stated in: the invariant of spec/10_state.md R35, what one
step is about to do, and what the spec says of whole runs.
-/

namespace Sys2Proof.Machine

/-- The block is out of reset and idle: it accepts commands (R260). -/
def State.ready (s : State) : Prop := s.rstN = true ∧ s.op = .none

/-- A command is in flight (R30). -/
def State.inFlight (s : State) : Prop := s.rstN = true ∧ s.op ≠ .none

/-- Every piece of state of R20 that has a reset value holds it (R260). -/
def State.atResetValues (s : State) : Prop :=
  s.key = zeroBlock ∧ s.data = zeroBlock ∧ s.done = false ∧ s.seeded = false ∧ s.error = 0x00 ∧
  s.rngOutLo = 0x00 ∧ s.rngOutHi = 0x00 ∧ s.pool = zeroBlock ∧ s.idx = 16 ∧ s.nsHave = false ∧
  s.nsFirst = false ∧ s.shift = 0x00 ∧ s.bitcnt = 0 ∧ s.byteptr = 1 ∧ s.op = .none

/-- The invariant: the six clauses (a) to (f) of R35, and three the spec's other rules give. -/
structure State.Inv (s : State) : Prop where
  /-- (a) `BUSY = 1` exactly when `OP /= NONE`. -/
  busy_iff : s.statusByte.getLsbD 0 = true ↔ s.op ≠ .none
  /-- (b) `SEEDED = 0` whenever `OP = SEED`. -/
  seeding_unseeded : s.op = .seed → s.seeded = false
  /-- (c) `0 <= IDX <= 16`. -/
  idx_le : s.idx.val ≤ 16
  /-- (d) while `OP = SEED`, `1 <= BYTEPTR <= 15`. -/
  byteptr_range : s.op = .seed → 1 ≤ s.byteptr.val ∧ s.byteptr.val ≤ 15
  /-- (e) `0 <= BITCNT <= 7`. -/
  bitcnt_le : s.bitcnt.val ≤ 7
  /-- (f) `OP` in {U8, U16} implies `SEEDED = 1`. -/
  drawing_seeded : s.op = .u8 ∨ s.op = .u16 → s.seeded = true
  /-- DONE is 0 while a command is in flight (R24: cleared at acceptance, set at completion). -/
  done_idle : s.done = true → s.op = .none
  /-- ERROR bits 7:3 are 0 (R25). -/
  error_reserved : s.error &&& 0xF8 = 0x00
  /-- In reset the block holds its reset values (R260). -/
  held_in_reset : s.rstN = false → s.atResetValues

/-- The event the next step performs. -/
def State.nextEvent (s : State) : Event :=
  match s.agenda with
  | e :: _ => e
  | [] => freeEvent s.freeNext

/-- The offset and the byte of the register write the next step performs, if it performs one. -/
def State.nextWrite (s : State) : Option (Byte × Byte) :=
  match s.nextEvent, s.host.prog with
  | .host, .wr off v :: _ => some (off, v)
  | .host, .memWrite addr [v] :: _ =>
    match windowOffset addr with
    | some off => some (off, v)
    | none => none
  | _, _ => none

/-- A host transaction or a noise sample: what may happen beside the command in flight (R61). -/
def Event.isTraffic : Event → Bool
  | .host => true
  | .sample _ => true
  | .engine => false
  | .resetPin _ => false
  | .secondHost => false

/-- The events of a run without reset and with one host: a host transaction, the engine's move, a noise sample (R9, R244). -/
def Event.isOrdinary : Event → Bool
  | .host => true
  | .engine => true
  | .sample _ => true
  | .resetPin _ => false
  | .secondHost => false

/-- The event of step `n` from here: the agenda's, and after its last one the environment's free choice. -/
def State.eventAt (s : State) (n : Nat) : Event :=
  match s.agenda[n]? with
  | some e => e
  | none => freeEvent (s.freeNext + (n - s.agenda.length))

/-- The events of the next `n` steps. -/
def State.eventsUpTo (s : State) (n : Nat) : List Event := (List.range n).map s.eventAt

/-- The noise samples among these events, in order. -/
def samplesIn (es : List Event) : List Byte :=
  es.filterMap fun e =>
    match e with
    | .sample x => some x
    | .host => none
    | .engine => none
    | .resetPin _ => none
    | .secondHost => none

/-- Host and engine taking turns, `n` times: a fair environment without noise (R11). -/
def fairAgenda : Nat → List Event
  | 0 => []
  | n + 1 => .host :: .engine :: fairAgenda n

/-- The bits a list of samples yields, beginning with a first sample of a pair: of each non-overlapping pair that
differs, the second sample's bit (R162). -/
def keptBits : List Byte → List Bool
  | [] => []
  | [_] => []
  | x :: y :: rest => if noiseBitOf x = noiseBitOf y then keptBits rest else noiseBitOf y :: keptBits rest

/-- The bits kept from the samples of the next `n` steps, the first sample of them beginning a pair. -/
def State.bitsKeptBy (s : State) (n : Nat) : List Bool := keptBits (samplesIn (s.eventsUpTo n))

/-- The kept bits of a whole seed: eight for each of the `RNG_SEED_BYTES` bytes, 120 (R164). -/
def seedBits : Nat := 8 * Config.seedBytes

/-- ENVIRONMENT ASSUMPTION of a seed that has just been accepted (R11, R172): the noise source delivers enough sample
pairs whose chosen bits differ. A claim that seeding ends rests on it. -/
def State.noiseDelivers (s : State) : Prop := ∃ n, seedBits ≤ (s.bitsKeptBy n).length

/-- The same assumption as spec/90_conflicts.md C6 words it: from every step on, the noise source delivers differing
pairs again and again. `noiseDelivers` follows from it (`noiseDelivers_of_fair`). -/
def State.noiseFair (s : State) : Prop :=
  ∀ n k, ∃ m, k ≤ (keptBits (samplesIn ((List.range' n m).map s.eventAt))).length

/-- How many of these events are the host's. -/
def hostTurns (es : List Event) : Nat := es.countP (· == .host)

/-- The collection registers as the acceptance of RNG_SEED leaves them, in a seed in flight (R29, R81). -/
def State.seedJustAccepted (s : State) : Prop :=
  s.rstN = true ∧ s.op = .seed ∧ s.nsHave = false ∧ s.shift = 0x00 ∧ s.bitcnt = 0 ∧ s.byteptr = 1

/-- A byte from its bits, the first one most significant (R163). -/
def byteOfBits (bits : List Bool) : Byte := bits.foldl (fun acc b => (acc <<< 1) ||| bitByte b) 0x00

/-- The pool after a seed: `00 || e1 || ... || e15`, with `e_j` made of kept bits `8(j-1) .. 8j-1` (R163-R165). -/
def seedPool (bits : List Bool) : Block := Vector.ofFn fun j =>
  if j.val = 0 then 0x00 else byteOfBits ((bits.drop (8 * (j.val - 1))).take 8)

/-- `n` draws one after the other: the bytes drawn, in order, and the state after (R170). -/
def drawMany : Nat → State → List Byte × State
  | 0, s => ([], s)
  | n + 1, s =>
    let d := rngDraw s
    let r := drawMany n d.2
    (d.1 :: r.1, r.2)

/-- `X(n)`: the pool re-whitened `n` times (R170). -/
def whitened : Nat → Block → Block
  | 0, x => x
  | n + 1, x => aes128 Config.rngKey (whitened n x)

/-- Two outcomes that agree but for a part of the state. -/
def outcomesAgree (rel : State → State → Prop) :
    Host.Outcome State Fault Refusal → Host.Outcome State Fault Refusal → Prop
  | .next a, .next b => rel a b
  | .fault x, .fault y => x = y
  | .refused x, .refused y => x = y
  | _, _ => False

end Sys2Proof.Machine
end

