-- ==== Sys2Proof/Certificates/Slice0/Obligations.lean ====
section
/-!
DEFINITION. Sys2Proof/Certificates/Slice0/Obligations.lean: the statements for the provers. Each docstring names the
rule of spec/ the statement formalises.
-/

open Sys2Proof Sys2Proof.Machine

/-! ## Encoding -/

/-- R82: each opcode of the map decodes to its command, and the encoder gives that opcode. The bytes are written out
from the table. -/
def Obligations.OpcodeBytesDecodeToCommands : Prop :=
  (decode 0x00#8 = .command .nop ∧ decode 0x01#8 = .command .enc ∧ decode 0x10#8 = .command .rngSeed ∧
    decode 0x11#8 = .command .rngU8 ∧ decode 0x12#8 = .command .rngU16) ∧
  (encode .nop = 0x00#8 ∧ encode .enc = 0x01#8 ∧ encode .rngSeed = 0x10#8 ∧ encode .rngU8 = 0x11#8 ∧
    encode .rngU16 = 0x12#8)

/-- R83, R232: exactly the bytes 0x02..0x0F and 0x13..0xFF are illegal, and one of them written to CMD of an idle block
raises ERR_ILLEGAL and has no other effect. -/
def Obligations.IllegalBytesOnlySetErrIllegal : Prop :=
  (∀ c : Byte, decode c = .illegal ↔ (0x02 ≤ c.toNat ∧ c.toNat ≤ 0x0F) ∨ 0x13 ≤ c.toNat) ∧
  ∀ (c : Byte) (s : State), decode c = .illegal → s.ready →
    hostWrite 0x00 c s = .next { s with error := s.error ||| 0x02 }

/-- R80, R82, R85: decode and encode agree on every command and on every byte, and no byte matches two rows of the
opcode table. -/
def Obligations.DecodeAndEncodeAgree : Prop :=
  (∀ i : Instr, i.wf = true ∧ decode (encode i) = .command i) ∧
  (∀ (c : Byte) (i : Instr), decode c = .command i → encode i = c) ∧
  ∀ (c : Byte) (r r' : OpcodeRow), r ∈ opcodeRows → r' ∈ opcodeRows → r.covers c = true → r'.covers c = true →
    r = r'

/-- R8, R54, R81: when the host is to move and its next transaction writes a command's byte to CMD, by offset or by bus
address, the step is `exec` of that command, with the event and the transaction taken off their lists. -/
def Obligations.StepRunsDecodedCommand : Prop :=
  ∀ (s : State) (rest : List Event) (p : List BusOp) (c : Byte) (i : Instr),
    s.agenda = .host :: rest → decode c = .command i →
    (s.host.prog = .wr 0x00 c :: p ∨ s.host.prog = .memWrite Config.windowBase [c] :: p) →
    step s = exec i (setProg p (setAgenda rest s))

/-- R9, R10, R61: where no agenda fixes the next event, the step is one agent's move, of which nothing says which one: the
host's, the engine's, or a noise sample. Nothing but the index of the free choice has changed before it. THE MODEL'S
CHOICES, which no rule states: the agenda and the counter of free choices (log entry 2), and that a free choice is
never a move of the reset pin (log entry 11, UNSAFE for a run after its agenda). -/
def Obligations.EmptyAgendaStepIsOneAgentsMove : Prop :=
  ∀ s : State, s.agenda = [] → ∃ e : Event, (e = .host ∨ e = .engine ∨ ∃ x, e = .sample x) ∧
    step s = perform e { s with freeNext := s.freeNext + 1 }

/-! ## The command decoder and the commands -/

/-- R81: the whole decoder, for every byte, on an idle block and on a busy one. The equalities give the whole next state,
so the acceptance step changes nothing else. -/
def Obligations.CommandDecoderDispatches : Prop :=
  (∀ s : State, s.ready →
    hostWrite 0x00 0x00 s = .next s ∧
    hostWrite 0x00 0x01 s = .next { s with op := .enc, done := false } ∧
    hostWrite 0x00 0x10 s = .next { s with
      op := .seed, done := false, seeded := false, nsHave := false, nsFirst := false, shift := 0x00, bitcnt := 0,
      byteptr := 1 } ∧
    hostWrite 0x00 0x11 s = .next (if s.seeded then { s with op := .u8, done := false }
      else { s with error := s.error ||| 0x04 }) ∧
    hostWrite 0x00 0x12 s = .next (if s.seeded then { s with op := .u16, done := false }
      else { s with error := s.error ||| 0x04 }) ∧
    ∀ c : Byte, c ∉ [0x00#8, 0x01#8, 0x10#8, 0x11#8, 0x12#8] →
      hostWrite 0x00 c s = .next { s with error := s.error ||| 0x02 }) ∧
  ∀ (s : State) (c : Byte), s.inFlight → hostWrite 0x00 c s = .next { s with error := s.error ||| 0x01 }

/-- R140: NOP on an idle block completes at once and changes nothing; on a busy one it raises ERR_BUSY and nothing else. -/
def Obligations.NopChangesNothing : Prop :=
  encode .nop = 0x00#8 ∧
  (∀ s : State, s.ready → exec .nop s = .next s) ∧
  ∀ s : State, s.inFlight → exec .nop s = .next { s with error := s.error ||| 0x01 }

/-- R141: ENC on an idle block is accepted: OP is ENC, DONE is 0, and every other piece of state is unchanged; on a busy
block it raises ERR_BUSY and nothing else. There is no other error. -/
def Obligations.EncIsAccepted : Prop :=
  encode .enc = 0x01#8 ∧
  (∀ s : State, s.ready → exec .enc s = .next { s with op := .enc, done := false }) ∧
  ∀ s : State, s.inFlight → exec .enc s = .next { s with error := s.error ||| 0x01 }

/-- R142: the engine's step completes an ENC in flight. DATA is the cipher of KEY and the old DATA, BUSY reads 0, DONE
is 1; KEY, ERROR, SEEDED, POOL, IDX and RNG_OUT are unchanged. The datapath's registers take free values
(log entry 3). -/
def Obligations.EncCompletionEncryptsData : Prop :=
  ∀ (s : State) (rest : List Event), s.rstN = true → s.op = .enc → s.agenda = .engine :: rest →
    step s = .next { s with
      agenda := rest, data := aes128 s.key s.data, op := .none, done := true,
      work := Config.freeWork s.freeWorkNext, freeWorkNext := s.freeWorkNext + 1 }

/-- R166 (acceptance): RNG_SEED on an idle block, seeded or not, is accepted: SEEDED and DONE are cleared, the collection
registers take their start values, and KEY, DATA, POOL, IDX, RNG_OUT and ERROR are unchanged. -/
def Obligations.RngSeedIsAccepted : Prop :=
  encode .rngSeed = 0x10#8 ∧
  (∀ s : State, s.ready → exec .rngSeed s = .next { s with
    op := .seed, done := false, seeded := false, nsHave := false, nsFirst := false, shift := 0x00, bitcnt := 0,
    byteptr := 1 }) ∧
  ∀ s : State, s.inFlight → exec .rngSeed s = .next { s with error := s.error ||| 0x01 }

/-- R168: RNG_U8 is accepted by a seeded idle block; the engine's step then draws one byte, re-whitening a used-up pool
first, into RNG_OUT_LO, with RNG_OUT_HI = 0x00. Nothing else changes (the datapath's registers apart, log
entry 3). -/
def Obligations.RngU8DrawsOneByte : Prop :=
  encode .rngU8 = 0x11#8 ∧
  (∀ s : State, s.ready → s.seeded = true → exec .rngU8 s = .next { s with op := .u8, done := false }) ∧
  (∀ s : State, s.ready → s.seeded = false → exec .rngU8 s = .next { s with error := s.error ||| 0x04 }) ∧
  (∀ s : State, s.inFlight → exec .rngU8 s = .next { s with error := s.error ||| 0x01 }) ∧
  ∀ (s : State) (rest : List Event), s.rstN = true → s.op = .u8 → s.agenda = .engine :: rest →
    (∀ i : Fin 16, s.idx.val = i.val → step s = .next { s with
      agenda := rest, rngOutLo := s.pool[i], rngOutHi := 0x00, idx := i.succ, op := .none, done := true }) ∧
    (s.idx = 16 → step s = .next { s with
      agenda := rest, pool := aes128 Config.rngKey s.pool, rngOutLo := (aes128 Config.rngKey s.pool)[0],
      rngOutHi := 0x00, idx := 1, op := .none, done := true,
      work := Config.freeWork s.freeWorkNext, freeWorkNext := s.freeWorkNext + 1 })

/-- R169: RNG_U16 is accepted by a seeded idle block; the engine's step then draws two bytes, the first one the high byte,
re-whitening the pool before whichever draw finds it used up. Nothing else changes (the datapath's
registers apart, log entry 3). -/
def Obligations.RngU16DrawsHighByteFirst : Prop :=
  encode .rngU16 = 0x12#8 ∧
  (∀ s : State, s.ready → s.seeded = true → exec .rngU16 s = .next { s with op := .u16, done := false }) ∧
  (∀ s : State, s.ready → s.seeded = false → exec .rngU16 s = .next { s with error := s.error ||| 0x04 }) ∧
  (∀ s : State, s.inFlight → exec .rngU16 s = .next { s with error := s.error ||| 0x01 }) ∧
  ∀ (s : State) (rest : List Event), s.rstN = true → s.op = .u16 → s.agenda = .engine :: rest →
    (∀ i : Fin 15, s.idx.val = i.val → step s = .next { s with
      agenda := rest, rngOutHi := s.pool[i.val], rngOutLo := s.pool[i.val + 1], idx := i.succ.succ,
      op := .none, done := true }) ∧
    (s.idx = 15 → step s = .next { s with
      agenda := rest, pool := aes128 Config.rngKey s.pool, rngOutHi := s.pool[15],
      rngOutLo := (aes128 Config.rngKey s.pool)[0], idx := 1, op := .none, done := true,
      work := Config.freeWork s.freeWorkNext, freeWorkNext := s.freeWorkNext + 1 }) ∧
    (s.idx = 16 → step s = .next { s with
      agenda := rest, pool := aes128 Config.rngKey s.pool, rngOutHi := (aes128 Config.rngKey s.pool)[0],
      rngOutLo := (aes128 Config.rngKey s.pool)[1], idx := 2, op := .none, done := true,
      work := Config.freeWork s.freeWorkNext, freeWorkNext := s.freeWorkNext + 1 })

/-- R169 corner case (c): one RNG_U16 takes exactly the two bytes two RNG_U8 would, and leaves POOL and IDX as they
would. -/
def Obligations.WordDrawIsTwoByteDraws : Prop :=
  ∀ s : State,
    (u16Complete s).pool = (u8Complete (u8Complete s)).pool ∧
    (u16Complete s).idx = (u8Complete (u8Complete s)).idx ∧
    (u16Complete s).rngOutHi = (u8Complete s).rngOutLo ∧
    (u16Complete s).rngOutLo = (u8Complete (u8Complete s)).rngOutLo

/-! ## Errors -/

/-- R233: RNG_U8 or RNG_U16 written to an idle block with SEEDED = 0 sets ERR_UNSEEDED; no draw, and POOL, IDX and
RNG_OUT, like everything else, are unchanged. -/
def Obligations.UnseededDrawIsRejected : Prop :=
  ∀ s : State, s.ready → s.seeded = false →
    hostWrite 0x00 0x11 s = .next { s with error := s.error ||| 0x04 } ∧
    hostWrite 0x00 0x12 s = .next { s with error := s.error ||| 0x04 }

/-- R231: while a command is in flight a write to CMD, KEY or DATA is dropped and sets ERR_BUSY; no other write and no
read sets ERR_BUSY. -/
def Obligations.BusyWritesSetErrBusyOnly : Prop :=
  (∀ (s : State) (off v : Byte), s.inFlight → (off = 0x00 ∨ (0x10 ≤ off.toNat ∧ off.toNat ≤ 0x2F)) →
    hostWrite off v s = .next { s with error := s.error ||| 0x01 }) ∧
  (∀ (s t : State) (off v : Byte), ¬ (s.inFlight ∧ (off = 0x00 ∨ (0x10 ≤ off.toNat ∧ off.toNat ≤ 0x2F))) →
    hostWrite off v s = .next t → t.errorSet .busy = true → s.errorSet .busy = true) ∧
  ∀ (s : State) (off mask val : Byte),
    (readToHost off s).error = s.error ∧ (pollOnce off mask val s).error = s.error

/-- R234: the priority of the errors of one CMD write: BUSY, then ILLEGAL, then UNSEEDED; at most one flag is raised. -/
def Obligations.CommandWriteErrorPriority : Prop :=
  ∀ (s : State) (c : Byte), s.rstN = true → ∃ t, hostWrite 0x00 c s = .next t ∧ t.error =
    if s.op ≠ .none then s.error ||| 0x01
    else if decode c = .illegal then s.error ||| 0x02
    else if (c = 0x11 ∨ c = 0x12) ∧ s.seeded = false then s.error ||| 0x04
    else s.error

/-- R230: no engine step and no noise sample changes ERROR, and a host write that sets an ERROR bit changes nothing but
that one flag. -/
def Obligations.ErrorsComeFromRejectedWritesOnly : Prop :=
  (∀ s : State, (engineStep s).error = s.error) ∧
  (∀ (s : State) (x : Byte), (offerSample x s).error = s.error) ∧
  ∀ (s t : State) (off v : Byte) (f : ErrFlag), hostWrite off v s = .next t → s.errorSet f = false →
    t.errorSet f = true → t = { s with error := s.error ||| f.mask }

/-- R54, R238: `CLRERR`: a write to ERROR, accepted while busy too, clears the flags written as 1, leaves the others, and
changes nothing else. -/
def Obligations.WritingErrorClearsWrittenFlags : Prop :=
  (∀ (s : State) (v : Byte), s.rstN = true → ∃ t, hostWrite 0x02 v s = .next t ∧ t = { s with error := t.error } ∧
    ∀ f : ErrFlag, t.errorSet f = (s.errorSet f && v &&& f.mask == 0x00)) ∧
  ∀ (s : State) (f g : ErrFlag), (raise f s).errorSet g = (decide (g = f) || s.errorSet g)

/-- R25: an ERROR flag stays set in every step but one that writes a 1 to its bit, or a reset. -/
def Obligations.ErrorFlagIsSticky : Prop :=
  ∀ (s t : State) (f : ErrFlag), step s = .next t → s.errorSet f = true → t.errorSet f = false →
    s.nextEvent = .resetPin false ∨ ∃ v : Byte, s.nextWrite = some (0x02, v) ∧ v &&& f.mask = f.mask

/-- R266: a rejected command write leaves DONE, and the command in flight, as they were. -/
def Obligations.RejectedCommandKeepsDone : Prop :=
  ∀ (s t : State) (c : Byte) (f : ErrFlag), hostWrite 0x00 c s = .next t → s.errorSet f = false →
    t.errorSet f = true → t.done = s.done ∧ t.op = s.op ∧ t.seeded = s.seeded

/-! ## The register window -/

/-- R53: what a host read returns at every offset out of reset, and that it changes nothing: the byte goes to the host. -/
def Obligations.HostReadReturnsRegister : Prop :=
  ∀ s : State, s.rstN = true →
    hostRead 0x00 s = 0x00 ∧
    (hostRead 0x01 s).toNat = 4 * s.seeded.toNat + 2 * s.done.toNat + (decide (s.op ≠ .none)).toNat ∧
    hostRead 0x02 s = s.error &&& 0x07 ∧
    hostRead 0x04 s = (if s.op ≠ .none then 0x00 else s.rngOutLo) ∧
    hostRead 0x05 s = (if s.op ≠ .none then 0x00 else s.rngOutHi) ∧
    (∀ i : Fin 16, hostRead (BitVec.ofNat 8 (0x10 + i.val)) s = 0x00) ∧
    (∀ i : Fin 16, hostRead (BitVec.ofNat 8 (0x20 + i.val)) s = if s.op ≠ .none then 0x00 else s.data[i]) ∧
    (∀ off : Byte, (off = 0x03 ∨ (0x06 ≤ off.toNat ∧ off.toNat ≤ 0x0F) ∨ 0x30 ≤ off.toNat) →
      hostRead off s = 0x00) ∧
    ∀ off : Byte, transaction (.rd off) s =
      .next { s with host := { s.host with reads := s.host.reads ++ [hostRead off s] } }

/-- R54: what a host write does at every offset out of reset. A write to CMD of an idle block is the decoder's
(`CommandDecoderDispatches`). -/
def Obligations.HostWriteStoresRegister : Prop :=
  ∀ (s : State) (v : Byte), s.rstN = true →
    hostWrite 0x00 v s = (if s.op ≠ .none then .next { s with error := s.error ||| 0x01 } else commandWrite v s) ∧
    hostWrite 0x02 v s = .next { s with error := s.error &&& ~~~(v &&& 0x07) } ∧
    (∀ i : Fin 16, hostWrite (BitVec.ofNat 8 (0x10 + i.val)) v s = .next
      (if s.op ≠ .none then { s with error := s.error ||| 0x01 } else { s with key := s.key.set i v })) ∧
    (∀ i : Fin 16, hostWrite (BitVec.ofNat 8 (0x20 + i.val)) v s = .next
      (if s.op ≠ .none then { s with error := s.error ||| 0x01 } else { s with data := s.data.set i v })) ∧
    ∀ off : Byte, off ≠ 0x00 → off ≠ 0x02 → (off.toNat < 0x10 ∨ 0x30 ≤ off.toNat) → hostWrite off v s = .next s

/-- R55: reserved offsets and reserved bits read as 0 and ignore writes, and touching them raises no error. -/
def Obligations.ReservedOffsetsAndBitsAreInert : Prop :=
  (∀ (s : State) (off v : Byte), (off = 0x03 ∨ (0x06 ≤ off.toNat ∧ off.toNat ≤ 0x0F) ∨ 0x30 ≤ off.toNat) →
    hostRead off s = 0x00 ∧ hostWrite off v s = .next s) ∧
  (∀ s : State, hostRead 0x01 s &&& 0xF8 = 0x00 ∧ hostRead 0x02 s &&& 0xF8 = 0x00) ∧
  ∀ (s : State) (v : Byte), hostWrite 0x01 v s = .next s ∧ hostWrite 0x02 (v ||| 0xF8) s = hostWrite 0x02 v s

/-- R52, R244 and R50: an access that is not one byte wide, and a second host, are refused by name; a one-byte access in the
window is the transaction at its offset. That an address outside the window faults is the model's
choice (log entry 8). -/
def Obligations.OnlyOneByteAccessesOfOneHost : Prop :=
  (∀ (s : State) (addr width : Nat), width ≠ 1 →
    transaction (.memRead addr width) s = .refused (.accessWidth width)) ∧
  (∀ (s : State) (addr : Nat) (bytes : List Byte), bytes.length ≠ 1 →
    transaction (.memWrite addr bytes) s = .refused (.accessWidth bytes.length)) ∧
  (∀ s : State, perform .secondHost s = .refused .secondHost) ∧
  (∀ (s : State) (off v : Byte),
    transaction (.memRead (Config.windowBase + off.toNat) 1) s = transaction (.rd off) s ∧
    transaction (.memWrite (Config.windowBase + off.toNat) [v]) s = transaction (.wr off v) s) ∧
  ∀ (s : State) (addr : Nat) (v : Byte), inWindow addr = false →
    transaction (.memRead addr 1) s = .fault (.outsideWindow addr) ∧
    transaction (.memWrite addr [v]) s = .fault (.outsideWindow addr)

/-- R21, R143: KEY changes only by a host write to a KEY offset of an idle block, which stores that byte, and by a reset: no
command, no engine step and no noise sample modifies it. -/
def Obligations.KeyChangesOnlyByHostWrite : Prop :=
  ∀ s t : State, step s = .next t → t.key ≠ s.key →
    s.nextEvent = .resetPin false ∨
    ∃ (i : Fin 16) (v : Byte), s.nextWrite = some (BitVec.ofNat 8 (0x10 + i.val), v) ∧ s.ready ∧
      t.key = s.key.set i v

/-- R22: DATA changes only by a host write to a DATA offset of an idle block, by the completion of an ENC, and by a reset. -/
def Obligations.DataChangesOnlyByHostWriteAndEnc : Prop :=
  ∀ s t : State, step s = .next t → t.data ≠ s.data →
    s.nextEvent = .resetPin false ∨
    (s.nextEvent = .engine ∧ s.op = .enc ∧ t.data = aes128 s.key s.data) ∨
    ∃ (i : Fin 16) (v : Byte), s.nextWrite = some (BitVec.ofNat 8 (0x20 + i.val), v) ∧ s.ready ∧
      t.data = s.data.set i v

/-- R26: only the completions of RNG_U8 and RNG_U16, and a reset, write RNG_OUT_LO and RNG_OUT_HI. -/
def Obligations.DrawResultChangesOnlyByDraws : Prop :=
  ∀ s t : State, step s = .next t → (t.rngOutLo ≠ s.rngOutLo ∨ t.rngOutHi ≠ s.rngOutHi) →
    s.nextEvent = .resetPin false ∨ (s.nextEvent = .engine ∧ (s.op = .u8 ∨ s.op = .u16))

/-- R171: ENC commands, errors and NOP never touch POOL or IDX: they change only while a seed takes samples, when a draw
completes, and by a reset. -/
def Obligations.PoolChangesOnlyBySeedAndDraws : Prop :=
  ∀ s t : State, step s = .next t → (t.pool ≠ s.pool ∨ t.idx ≠ s.idx) →
    s.nextEvent = .resetPin false ∨ (s.nextEvent = .engine ∧ (s.op = .u8 ∨ s.op = .u16)) ∨
    ((∃ x, s.nextEvent = .sample x) ∧ s.op = .seed)

/-- R30, R144: at most one command is in flight: out of reset no step replaces the command in flight by another, and only the
engine, a noise sample of a seed, or a reset ends it. -/
def Obligations.CommandInFlightIsExclusive : Prop :=
  ∀ s t : State, step s = .next t → s.op ≠ .none → t.op ≠ s.op →
    t.op = .none ∧
    (s.nextEvent = .resetPin false ∨ (s.nextEvent = .engine ∧ s.op ≠ .seed) ∨
      ((∃ x, s.nextEvent = .sample x) ∧ s.op = .seed))

/-! ## Entropy collection and the stream -/

/-- R161: samples are consumed while `OP = SEED`, and only then is `noise_req` 1; otherwise a sample is ignored. -/
def Obligations.SamplesCountOnlyWhileSeeding : Prop :=
  ∀ (s : State) (x : Byte),
    (s.noiseReq = true ↔ s.rstN = true ∧ s.op = .seed) ∧
    (s.rstN = true → s.op = .seed → offerSample x s = consumeSample x s) ∧
    (s.op ≠ .seed → offerSample x s = s)

/-- R162: from no held sample, a pair of samples whose bits 0 differ keeps the second one's bit, an equal pair keeps
nothing, and after either no sample is held. Bits 7:1 are ignored. -/
def Obligations.SamplePairKeepsSecondDifferingBit : Prop :=
  (∀ (s : State) (x y : Byte), s.nsHave = false →
    consumeSample y (consumeSample x s) =
      if x.getLsbD 0 = y.getLsbD 0 then { s with nsFirst := x.getLsbD 0 }
      else keepBit (y.getLsbD 0) { s with nsFirst := x.getLsbD 0 }) ∧
  (∀ (s : State) (x : Byte), s.nsHave = false →
    consumeSample x s = { s with nsFirst := x.getLsbD 0, nsHave := true }) ∧
  ∀ (s : State) (x y : Byte), x.getLsbD 0 = y.getLsbD 0 → consumeSample x s = consumeSample y s

/-- R163: eight kept bits from an empty SHIFT store the byte whose bit 7 is the first of them, and leave SHIFT empty. -/
def Obligations.EightKeptBitsStoreTheirByte : Prop :=
  ∀ (s : State) (v : Byte), s.shift = 0x00 → s.bitcnt = 0 → s.byteptr.val < 15 →
    (List.range 8).foldl (fun t j => keepBit (v.getLsbD (7 - j)) t) s =
      { s with pool := s.pool.setIfInBounds s.byteptr.val v, byteptr := Fin.ofNat 17 (s.byteptr.val + 1) }

/-- R163, R164, R165, R172: from the acceptance of RNG_SEED, whatever samples come, the seed is in flight exactly as long as
fewer than 120 bits have been kept; with the 120th it is complete, with the pool `00 || e1 || ... || e15`,
IDX = 16, SEEDED and DONE set. -/
def Obligations.SeedCompletesWithThe120thKeptBit : Prop :=
  ∀ (s : State) (xs : List Byte), s.rstN = true → s.op = .seed → s.nsHave = false → s.shift = 0x00 → s.bitcnt = 0 →
    s.byteptr = 1 → s.agenda = xs.map .sample →
    ∃ t, run xs.length s = .next t ∧ t.key = s.key ∧ t.data = s.data ∧ t.error = s.error ∧
      t.rngOutLo = s.rngOutLo ∧ t.rngOutHi = s.rngOutHi ∧ t.host = s.host ∧
      if (keptBits xs).length < 120 then t.op = .seed ∧ t.seeded = s.seeded ∧ t.done = s.done
      else t.op = .none ∧ t.seeded = true ∧ t.done = true ∧ t.idx = 16 ∧ t.pool = seedPool (keptBits xs)

/-- R170: the bytes drawn after a seed are the blocks X1, X2, ..., each the encryption of the one before under RNG_KEY, each
from byte 0 to byte 15. It holds whatever RNG_KEY is. -/
def Obligations.StreamIsRepeatedWhitening : Prop :=
  ∀ (s : State) (n : Nat), s.idx = 16 →
    (drawMany n s).1 = (List.range n).map fun j =>
      (whitened (j / 16 + 1) s.pool)[j % 16]'(Nat.mod_lt j (by decide))

/-! ## The cipher -/

/-- R107: ShiftRows, as the row rotation and as the permutation table of the rule. -/
def Obligations.ShiftRowsRotatesRows : Prop :=
  (∀ (s : Block) (r c : Fin 4), (shiftRows s)[r.val + 4 * c.val] = s[r.val + 4 * ((c.val + r.val) % 4)]) ∧
  ∀ s : Block, shiftRows s =
    #v[s[0], s[5], s[10], s[15], s[4], s[9], s[14], s[3], s[8], s[13], s[2], s[7], s[12], s[1], s[6], s[11]]

/-- R105: every non-zero byte has a multiplicative inverse, and SBOX is the affine map of the inverse (of 0x00, for 0x00). -/
def Obligations.SboxIsAffineOfInverse : Prop :=
  (∀ a : Byte, a ≠ 0x00 → ∃ b : Byte, gmul a b = 0x01) ∧
  (∀ a b : Byte, (gmul a b = 0x01 ∨ (a = 0x00 ∧ b = 0x00)) →
    sbox a = b ^^^ b.rotateLeft 1 ^^^ b.rotateLeft 2 ^^^ b.rotateLeft 3 ^^^ b.rotateLeft 4 ^^^ 0x63)

/-- R101, R102, R103: `gmul` is the product of polynomials over GF(2): it is additive in each argument, 0x01 is its
unit, it is commutative, multiplying by 0x02 is the shift reduced by 0x1B, and it may be done before or after any
product, so that the product of every x^i and x^j is fixed. -/
def Obligations.GmulIsFieldProduct : Prop :=
  (∀ a b c : Byte, gmul (a ^^^ b) c = gmul a c ^^^ gmul b c ∧ gmul a (b ^^^ c) = gmul a b ^^^ gmul a c) ∧
  (∀ a b : Byte, gmul a b = gmul b a) ∧
  (∀ a b : Byte, gmul a (gmul b 0x02) = gmul (gmul a b) 0x02) ∧
  (∀ a : Byte, gmul a 0x01 = a ∧ gmul 0x00 a = 0x00 ∧ gmul a 0x03 = gmul a 0x02 ^^^ a) ∧
  ∀ a : Byte, gmul a 0x02 = if a.getLsbD 7 then (a <<< 1) ^^^ 0x1B else a <<< 1

/-- R108: MixColumns, column by column. -/
def Obligations.MixColumnsMixesEachColumn : Prop :=
  ∀ (s : Block) (c : Fin 4),
    (mixColumns s)[4 * c.val] =
      gmul s[4 * c.val] 2 ^^^ gmul s[4 * c.val + 1] 3 ^^^ s[4 * c.val + 2] ^^^ s[4 * c.val + 3] ∧
    (mixColumns s)[4 * c.val + 1] =
      s[4 * c.val] ^^^ gmul s[4 * c.val + 1] 2 ^^^ gmul s[4 * c.val + 2] 3 ^^^ s[4 * c.val + 3] ∧
    (mixColumns s)[4 * c.val + 2] =
      s[4 * c.val] ^^^ s[4 * c.val + 1] ^^^ gmul s[4 * c.val + 2] 2 ^^^ gmul s[4 * c.val + 3] 3 ∧
    (mixColumns s)[4 * c.val + 3] =
      gmul s[4 * c.val] 3 ^^^ s[4 * c.val + 1] ^^^ s[4 * c.val + 2] ^^^ gmul s[4 * c.val + 3] 2

/-- R110, R111: each round key is made from the one before: its first word from the last word rotated, substituted and
XORed with RCON[r], its other words by the XOR chain. Round key 0 is the key itself. -/
def Obligations.RoundKeyFollowsFromPredecessor : Prop :=
  (rcon 1 = 0x01 ∧ ∀ r : Nat, 1 ≤ r → rcon (r + 1) = xtime (rcon r)) ∧
  (∀ k p : Block, (cipherStart k p).rk = k) ∧
  ∀ (rk : Block) (r : Nat),
    (nextRoundKey rk r)[0] = rk[0] ^^^ (sbox rk[13] ^^^ rcon r) ∧
    (nextRoundKey rk r)[1] = rk[1] ^^^ sbox rk[14] ∧
    (nextRoundKey rk r)[2] = rk[2] ^^^ sbox rk[15] ∧
    (nextRoundKey rk r)[3] = rk[3] ^^^ sbox rk[12] ∧
    ∀ i : Fin 12, (nextRoundKey rk r)[i.val + 4] = rk[i.val + 4] ^^^ (nextRoundKey rk r)[i.val]

/-- R112: AES128 is the rule's loop: the initial AddRoundKey, then for r = 1..10 SubBytes, ShiftRows, MixColumns for r < 10,
and AddRoundKey with round key r. -/
def Obligations.Aes128IsTheRuleLoop : Prop :=
  ∀ k p : Block, aes128 k p =
    ((List.range' 1 10).foldl (fun (w : Block × Block) r =>
      let shifted := shiftRows (subBytes w.2)
      let rk := nextRoundKey w.1 r
      (rk, addRoundKey (if r < 10 then mixColumns shifted else shifted) rk)) (k, addRoundKey p k)).2

/-! ## Reset, invariant, timing -/

/-- R260, R261: a reset, whatever is in flight, gives every piece of state its reset value; while `rst_n = 0` the block holds
them whatever happens, host writes have no effect, reads return 0x00 and `noise_req` is 0; and when `rst_n`
returns to 1 the block is idle and accepts commands. -/
def Obligations.ResetGivesAndHoldsResetValues : Prop :=
  (∀ (s : State) (rest : List Event), s.agenda = .resetPin false :: rest →
    ∃ t, step s = .next t ∧ t.atResetValues ∧ t.rstN = false ∧ t.host = s.host ∧ t.agenda = rest) ∧
  (∀ s t : State, s.rstN = false → s.atResetValues → step s = .next t → t.atResetValues) ∧
  (∀ (s : State) (off v : Byte), s.rstN = false →
    hostWrite off v s = .next s ∧ hostRead off s = 0x00 ∧ s.noiseReq = false) ∧
  ∀ (s : State) (rest : List Event), s.rstN = false → s.atResetValues → s.agenda = .resetPin true :: rest →
    step s = .next { s with rstN := true, agenda := rest } ∧ State.ready { s with rstN := true, agenda := rest }

/-- The state after reset: every register of R20 at its reset value, the block out of reset and idle, and the invariant of R35
holds of it. -/
def Obligations.ResetStateSatisfiesInvariant : Prop :=
  State.reset.atResetValues ∧ State.reset.ready ∧ State.reset.Inv

/-- R35: every step keeps the invariant, in every state, whatever the host, the engine, the noise source and the reset pin
do. -/
def Obligations.StepKeepsInvariant : Prop :=
  ∀ s t : State, s.Inv → step s = .next t → t.Inv

/-- R267, R268: the latencies, and that they depend on no secret: not on KEY, DATA, POOL or the result registers. A draw's long
latency is exactly its re-whitening. -/
def Obligations.LatencyDependsOnCommandAndIdxOnly : Prop :=
  (∀ s t : State, s.op = t.op → s.idx = t.idx → latency s = latency t) ∧
  (∀ s : State, s.op = .enc → latency s = some Config.aesCycles) ∧
  ∀ s : State, s.rstN = true → s.op = .u8 ∨ s.op = .u16 →
    (latency s = some 1 ∧ (engineStep s).pool = s.pool) ∨
    (latency s = some (1 + Config.aesCycles) ∧ (engineStep s).pool = aes128 Config.rngKey s.pool)

/-! ## Whole runs -/

/-- R11, R61, R62, R142: whatever transactions the host tries and whatever samples come while ENC, RNG_U8 or RNG_U16 is in flight,
the engine's step completes it, with the result the values at acceptance give. A seed in flight has its own statement,
`SeedIgnoresHostTraffic`. -/
def Obligations.ResultIgnoresTrafficInFlight : Prop :=
  ∀ (s : State) (es rest : List Event), s.rstN = true → s.agenda = es ++ .engine :: rest →
    (∀ e ∈ es, e.isTraffic = true) → (∀ b ∈ s.host.prog, b.wf = true) →
    (s.op = .enc → ∃ t, run (es.length + 1) s = .next t ∧ t.ready ∧ t.done = true ∧
      t.data = aes128 s.key s.data ∧ t.key = s.key ∧ t.pool = s.pool ∧ t.idx = s.idx) ∧
    (s.op = .u8 → ∃ t, run (es.length + 1) s = .next t ∧ t.ready ∧ t.done = true ∧
      t.rngOutLo = (rngDraw s).1 ∧ t.rngOutHi = 0x00 ∧ t.key = s.key ∧ t.data = s.data ∧
      t.pool = (rngDraw s).2.pool ∧ t.idx = (rngDraw s).2.idx) ∧
    (s.op = .u16 → ∃ t, run (es.length + 1) s = .next t ∧ t.ready ∧ t.done = true ∧
      t.rngOutHi = (rngDraw s).1 ∧ t.rngOutLo = (rngDraw (rngDraw s).2).1 ∧ t.key = s.key ∧ t.data = s.data ∧
      t.pool = (rngDraw (rngDraw s).2).2.pool ∧ t.idx = (rngDraw (rngDraw s).2).2.idx)

/-- R21, R53, R237: the host cannot learn KEY by its transactions, those tried while an ENC is in flight among them: in every
step but the engine's completion of an ENC, two states that differ in KEY only take the same step, with the same
bytes read, and differ in KEY only after it. -/
def Obligations.KeyIsNotObservable : Prop :=
  ∀ (s : State) (k : Block), (s.nextEvent = .engine → s.op ≠ .enc) →
    outcomesAgree (fun a b => b = { a with key := b.key }) (step s) (step { s with key := k })

/-- R11, R172: an accepted ENC, RNG_U8 or RNG_U16 completes after finitely many steps, in every run without reset or second
host whose host program stays in the window; an accepted RNG_SEED completes if the noise source delivers enough
differing pairs, and as long as it has not, the seed is in flight: the block has no timeout. The fairness of the free
choices is part of the step (log entry 2); what the noise source delivers is an assumption of the claim. -/
def Obligations.AcceptedCommandCompletes : Prop :=
  ∀ s : State, s.rstN = true → (∀ e ∈ s.agenda, e.isOrdinary = true) → (∀ b ∈ s.host.prog, b.wf = true) →
    (s.op = .enc ∨ s.op = .u8 ∨ s.op = .u16 → ∃ n t, run n s = .next t ∧ t.ready ∧ t.done = true) ∧
    (s.seedJustAccepted →
      (s.noiseDelivers → ∃ n t, run n s = .next t ∧ t.ready ∧ t.done = true ∧ t.seeded = true) ∧
      ∀ n, (s.bitsKeptBy n).length < 120 → ∃ t, run n s = .next t ∧ t.op = .seed)

/-- R62, R163-R166 (c), R172: nothing the host tries between the samples, and no engine move, changes a seed. After any order
of host transactions, engine moves and samples that keeps fewer than 120 bits the seed is in flight, and the step that
brings the 120th completes it with the pool of those bits. KEY, DATA and RNG_OUT are unchanged. -/
def Obligations.SeedIgnoresHostTraffic : Prop :=
  ∀ (s : State) (n : Nat), s.seedJustAccepted → (∀ e ∈ s.agenda, e.isOrdinary = true) →
    (∀ b ∈ s.host.prog, b.wf = true) → (s.bitsKeptBy n).length < 120 →
    (∃ t, run n s = .next t ∧ t.op = .seed ∧ t.seeded = s.seeded ∧ t.done = s.done ∧ t.key = s.key ∧
      t.data = s.data ∧ t.rngOutLo = s.rngOutLo ∧ t.rngOutHi = s.rngOutHi) ∧
    (120 ≤ (s.bitsKeptBy (n + 1)).length → ∃ t, run (n + 1) s = .next t ∧ t.ready ∧ t.done = true ∧
      t.seeded = true ∧ t.idx = 16 ∧ t.pool = seedPool (s.bitsKeptBy (n + 1)) ∧ t.key = s.key ∧
      t.data = s.data ∧ t.rngOutLo = s.rngOutLo ∧ t.rngOutHi = s.rngOutHi)

/-- R31: the datapath's registers are never visible: whatever S, RK and ROUND hold, the step is the same. -/
def Obligations.WorkRegistersAreNotObservable : Prop :=
  ∀ (s : State) (w : CipherWork),
    outcomesAgree (fun a b => b = { a with work := b.work }) (step s) (step { s with work := w })

/-- R200: `HostEnc(P)` on an idle block, whenever it ends, under every interleaving with engine steps and noise samples that holds
no reset, has returned `AES128(KEY, P)`, has left KEY, and has lost no write (ERROR unchanged). -/
def Obligations.HostEncReturnsCipherUnderEveryInterleaving : Prop :=
  ∀ (fuel : Nat) (p c : Block) (s t : State), s.ready → (∀ e ∈ s.agenda, e ≠ .resetPin false) →
    hostEnc fuel p s = some (c, t) → c = aes128 s.key p ∧ t.key = s.key ∧ t.error = s.error ∧ t.ready

/-- R11, R200: `HostEnc(P)` ends, in every order of host transactions, engine moves and noise samples in which the host has
17 turns (sixteen writes and ENC), the engine then moves, and the host has 17 turns more (the last POLL and sixteen
reads). `fairAgenda 34`, host and engine in turn, is such an order. -/
def Obligations.HostEncEndsUnderFairAgenda : Prop :=
  ∀ (fuel : Nat) (p : Block) (s : State) (es es' rest : List Event), s.ready →
    s.agenda = es ++ .engine :: (es' ++ rest) → (∀ e ∈ es ++ es', e.isOrdinary = true) →
    17 ≤ hostTurns es → 17 ≤ hostTurns es' → es.length + 1 + es'.length ≤ fuel →
    ∃ t, hostEnc fuel p s = some (aes128 s.key p, t)

/-- R143, R200: a WRKEY program on an idle block loads the key, under every interleaving that holds no reset. -/
def Obligations.HostLoadKeyStoresKey : Prop :=
  ∀ (fuel : Nat) (k : Block) (s t : State), s.ready → (∀ e ∈ s.agenda, e ≠ .resetPin false) →
    hostLoadKey fuel k s = some t → t.key = k ∧ t.data = s.data ∧ t.error = s.error ∧ t.ready

/-- R201: the CBC-MAC chain run on the block is the chain of the cipher under the key in KEY. -/
def Obligations.HostCbcMacIsCipherChain : Prop :=
  ∀ (fuel : Nat) (ms : List Block) (c : Block) (s t : State), s.ready → (∀ e ∈ s.agenda, e ≠ .resetPin false) →
    cbcMac (hostEnc fuel) ms s = some (c, t) →
    cbcMac (pureEnc s.key) ms () = some (c, ()) ∧
    c = ms.foldl (fun x m => aes128 s.key (xorBlock x m)) zeroBlock

/-- R202: CMAC run on the block is CMAC of the cipher under the key in KEY. -/
def Obligations.HostCmacIsCipherCmac : Prop :=
  ∀ (fuel : Nat) (m : List Byte) (c : Block) (s t : State), s.ready → (∀ e ∈ s.agenda, e ≠ .resetPin false) →
    cmac (hostEnc fuel) m s = some (c, t) → cmac (pureEnc s.key) m () = some (c, ())

/-- R202: CMAC of the cipher in the rule's own form: `dbl` byte by byte; the empty message (the one block 80 00..00, with K2);
a message of whole blocks (K1 on the last one); and one with a short last block (padded with 80 00..00, with K2). -/
def Obligations.CmacFollowsItsRule : Prop :=
  (∀ x : Block, (∀ i : Fin 15, (dbl x)[i.val] = (x[i.val] <<< 1) ||| (x[i.val + 1] >>> 7)) ∧
    (dbl x)[15] = (x[15] <<< 1) ^^^ (if x[0].getLsbD 7 then 0x87 else 0x00)) ∧
  ∀ k k1 k2 : Block, k1 = dbl (aes128 k zeroBlock) → k2 = dbl k1 →
    cmac (pureEnc k) [] () = some (aes128 k (xorBlock
      #v[0x80, 0x00, 0x00, 0x00, 0x00, 0x00, 0x00, 0x00, 0x00, 0x00, 0x00, 0x00, 0x00, 0x00, 0x00, 0x00] k2), ()) ∧
    ∀ (ms : List Block) (t : Block), t = ms.foldl (fun x m => aes128 k (xorBlock x m)) zeroBlock →
      (∀ m : Block, cmac (pureEnc k) ((ms ++ [m]).flatMap Vector.toList) () =
        some (aes128 k (xorBlock t (xorBlock m k1)), ())) ∧
      ∀ (part : List Byte) (m : Block), 1 ≤ part.length → part.length < 16 →
        m.toList = part ++ 0x80 :: List.replicate (15 - part.length) 0x00 →
        cmac (pureEnc k) (ms.flatMap Vector.toList ++ part) () =
          some (aes128 k (xorBlock t (xorBlock m k2)), ())

/-- R205: with a counter block for every sixteen bytes the stream cipher gives a ciphertext as long as the payload, byte n of
which is byte n of the payload XORed with byte n mod 16 of the encryption of counter block n / 16 (from 0), and with
the same counter blocks it turns the ciphertext back into the payload. -/
def Obligations.StreamCipherUndoesItself : Prop :=
  ∀ (k : Block) (counters : List Block) (p : List Byte), (p.length + 15) / 16 ≤ counters.length →
    ∃ out, streamCipher (pureEnc k) counters p () = some (out, ()) ∧ out.length = p.length ∧
      (∀ (n : Nat) (x : Byte), p[n]? = some x → ∃ a, counters[n / 16]? = some a ∧
        out[n]? = some (x ^^^ (aes128 k a)[n % 16]'(Nat.mod_lt n (by decide)))) ∧
      streamCipher (pureEnc k) counters out () = some (p, ())

/-- R204: a received frame is used only after its MIC has matched. Receiving it on the block recomputes the MIC under the
network session key; on a mismatch the answer is "no valid message" and the procedure ends in the state the
comparison leaves, with no further ENC and no other key written; on a match the answer is the payload, deciphered
under the key the host gives for it (log entry 16). -/
def Obligations.ReceiveVerifiesMicBeforeUse : Prop :=
  ∀ (fuel : Nat) (nwkKey payloadKey : Block) (f : FrameInput) (r : ReceivedFrame) (answer : Received) (s u : State),
    s.ready → (∀ e ∈ s.agenda, e ≠ .resetPin false) →
    receiveFrame (hostLoadKey fuel) (hostEnc fuel) nwkKey payloadKey f r s = some (answer, u) →
    ∃ (t : Block) (s1 : State), hostLoadKey fuel nwkKey s = some s1 ∧
      cmac (pureEnc nwkKey) ((micFirstBlock f (BitVec.ofNat 8 r.msg.length)).toList ++ r.msg) () = some (t, ()) ∧
      (r.mic ≠ #v[t[0], t[1], t[2], t[3]] → answer = .noValidMessage ∧
        verifyMic (hostEnc fuel) f r.msg r.mic s1 = some (false, u) ∧ u.key = nwkKey) ∧
      (r.mic = #v[t[0], t[1], t[2], t[3]] → u.key = payloadKey ∧
        ∃ p, framePayload (pureEnc payloadKey) f r.payload () = some (p, ()) ∧ answer = .message p)

/-- R203, R206: the bytes of the counter block A_i and of the first MIC block B0, and the MIC as the first four bytes of
`CMAC(NwkSKey, B0 || msg)`. That a message of 256 bytes or more has no MIC here is the model's choice (log
entry 7). -/
def Obligations.FrameBlocksHaveTheirLayout : Prop :=
  (∀ (f : FrameInput) (i : Byte), counterBlock f i =
    #v[0x01, 0x00, 0x00, 0x00, 0x00, if f.downlink then 0x01 else 0x00,
      f.devAddr.extractLsb' 0 8, f.devAddr.extractLsb' 8 8, f.devAddr.extractLsb' 16 8, f.devAddr.extractLsb' 24 8,
      f.fCnt.extractLsb' 0 8, f.fCnt.extractLsb' 8 8, f.fCnt.extractLsb' 16 8, f.fCnt.extractLsb' 24 8, 0x00, i]) ∧
  (∀ (f : FrameInput) (n : Byte), micFirstBlock f n =
    #v[0x49, 0x00, 0x00, 0x00, 0x00, if f.downlink then 0x01 else 0x00,
      f.devAddr.extractLsb' 0 8, f.devAddr.extractLsb' 8 8, f.devAddr.extractLsb' 16 8, f.devAddr.extractLsb' 24 8,
      f.fCnt.extractLsb' 0 8, f.fCnt.extractLsb' 8 8, f.fCnt.extractLsb' 16 8, f.fCnt.extractLsb' 24 8, 0x00, n]) ∧
  ∀ (k t : Block) (f : FrameInput) (msg : List Byte), msg.length < 256 →
    cmac (pureEnc k) ((micFirstBlock f (BitVec.ofNat 8 msg.length)).toList ++ msg) () = some (t, ()) →
    frameMic (pureEnc k) f msg () = some (#v[t[0], t[1], t[2], t[3]], ())

/-- R207: the join keys are two encryptions under the root key, of blocks that differ in their first byte only. -/
def Obligations.JoinKeysAreTwoEncryptions : Prop :=
  ∀ (k : Block) (a n : Vector Byte 3) (d : Vector Byte 2), joinKeys (pureEnc k) a n d () = some
    ((aes128 k #v[0x01, a[0], a[1], a[2], n[0], n[1], n[2], d[0], d[1], 0x00, 0x00, 0x00, 0x00, 0x00, 0x00, 0x00],
      aes128 k #v[0x02, a[0], a[1], a[2], n[0], n[1], n[2], d[0], d[1], 0x00, 0x00, 0x00, 0x00, 0x00, 0x00, 0x00]), ())
end

