-- ==== Sys2Proof/Laws/State.lean ====
section
/-!
SUPPORT. Sys2Proof/Laws/State.lean: one lemma per field per update of the state, so that no proof unfolds a record
update.
-/

namespace Sys2Proof.Machine

/-! ### `raise` -/

@[simp] theorem raise_key (f : ErrFlag) (s : State) : (raise f s).key = s.key := rfl
@[simp] theorem raise_data (f : ErrFlag) (s : State) : (raise f s).data = s.data := rfl
@[simp] theorem raise_done (f : ErrFlag) (s : State) : (raise f s).done = s.done := rfl
@[simp] theorem raise_seeded (f : ErrFlag) (s : State) : (raise f s).seeded = s.seeded := rfl
@[simp] theorem raise_error (f : ErrFlag) (s : State) : (raise f s).error = s.error ||| f.mask := rfl
@[simp] theorem raise_rngOutLo (f : ErrFlag) (s : State) : (raise f s).rngOutLo = s.rngOutLo := rfl
@[simp] theorem raise_rngOutHi (f : ErrFlag) (s : State) : (raise f s).rngOutHi = s.rngOutHi := rfl
@[simp] theorem raise_pool (f : ErrFlag) (s : State) : (raise f s).pool = s.pool := rfl
@[simp] theorem raise_idx (f : ErrFlag) (s : State) : (raise f s).idx = s.idx := rfl
@[simp] theorem raise_nsHave (f : ErrFlag) (s : State) : (raise f s).nsHave = s.nsHave := rfl
@[simp] theorem raise_nsFirst (f : ErrFlag) (s : State) : (raise f s).nsFirst = s.nsFirst := rfl
@[simp] theorem raise_shift (f : ErrFlag) (s : State) : (raise f s).shift = s.shift := rfl
@[simp] theorem raise_bitcnt (f : ErrFlag) (s : State) : (raise f s).bitcnt = s.bitcnt := rfl
@[simp] theorem raise_byteptr (f : ErrFlag) (s : State) : (raise f s).byteptr = s.byteptr := rfl
@[simp] theorem raise_op (f : ErrFlag) (s : State) : (raise f s).op = s.op := rfl
@[simp] theorem raise_work (f : ErrFlag) (s : State) : (raise f s).work = s.work := rfl
@[simp] theorem raise_rstN (f : ErrFlag) (s : State) : (raise f s).rstN = s.rstN := rfl
@[simp] theorem raise_host (f : ErrFlag) (s : State) : (raise f s).host = s.host := rfl
@[simp] theorem raise_agenda (f : ErrFlag) (s : State) : (raise f s).agenda = s.agenda := rfl
@[simp] theorem raise_freeNext (f : ErrFlag) (s : State) : (raise f s).freeNext = s.freeNext := rfl
@[simp] theorem raise_freeWorkNext (f : ErrFlag) (s : State) : (raise f s).freeWorkNext = s.freeWorkNext := rfl

/-! ### `clearErrors` -/

@[simp] theorem clearErrors_key (v : Byte) (s : State) : (clearErrors v s).key = s.key := rfl
@[simp] theorem clearErrors_data (v : Byte) (s : State) : (clearErrors v s).data = s.data := rfl
@[simp] theorem clearErrors_done (v : Byte) (s : State) : (clearErrors v s).done = s.done := rfl
@[simp] theorem clearErrors_seeded (v : Byte) (s : State) : (clearErrors v s).seeded = s.seeded := rfl
@[simp] theorem clearErrors_error (v : Byte) (s : State) : (clearErrors v s).error = s.error &&& ~~~(v &&& 0x07) := rfl
@[simp] theorem clearErrors_rngOutLo (v : Byte) (s : State) : (clearErrors v s).rngOutLo = s.rngOutLo := rfl
@[simp] theorem clearErrors_rngOutHi (v : Byte) (s : State) : (clearErrors v s).rngOutHi = s.rngOutHi := rfl
@[simp] theorem clearErrors_pool (v : Byte) (s : State) : (clearErrors v s).pool = s.pool := rfl
@[simp] theorem clearErrors_idx (v : Byte) (s : State) : (clearErrors v s).idx = s.idx := rfl
@[simp] theorem clearErrors_nsHave (v : Byte) (s : State) : (clearErrors v s).nsHave = s.nsHave := rfl
@[simp] theorem clearErrors_nsFirst (v : Byte) (s : State) : (clearErrors v s).nsFirst = s.nsFirst := rfl
@[simp] theorem clearErrors_shift (v : Byte) (s : State) : (clearErrors v s).shift = s.shift := rfl
@[simp] theorem clearErrors_bitcnt (v : Byte) (s : State) : (clearErrors v s).bitcnt = s.bitcnt := rfl
@[simp] theorem clearErrors_byteptr (v : Byte) (s : State) : (clearErrors v s).byteptr = s.byteptr := rfl
@[simp] theorem clearErrors_op (v : Byte) (s : State) : (clearErrors v s).op = s.op := rfl
@[simp] theorem clearErrors_work (v : Byte) (s : State) : (clearErrors v s).work = s.work := rfl
@[simp] theorem clearErrors_rstN (v : Byte) (s : State) : (clearErrors v s).rstN = s.rstN := rfl
@[simp] theorem clearErrors_host (v : Byte) (s : State) : (clearErrors v s).host = s.host := rfl
@[simp] theorem clearErrors_agenda (v : Byte) (s : State) : (clearErrors v s).agenda = s.agenda := rfl
@[simp] theorem clearErrors_freeNext (v : Byte) (s : State) : (clearErrors v s).freeNext = s.freeNext := rfl
@[simp] theorem clearErrors_freeWorkNext (v : Byte) (s : State) : (clearErrors v s).freeWorkNext = s.freeWorkNext := rfl

/-! ### `complete` -/

@[simp] theorem complete_key (s : State) : (complete s).key = s.key := rfl
@[simp] theorem complete_data (s : State) : (complete s).data = s.data := rfl
@[simp] theorem complete_done (s : State) : (complete s).done = true := rfl
@[simp] theorem complete_seeded (s : State) : (complete s).seeded = s.seeded := rfl
@[simp] theorem complete_error (s : State) : (complete s).error = s.error := rfl
@[simp] theorem complete_rngOutLo (s : State) : (complete s).rngOutLo = s.rngOutLo := rfl
@[simp] theorem complete_rngOutHi (s : State) : (complete s).rngOutHi = s.rngOutHi := rfl
@[simp] theorem complete_pool (s : State) : (complete s).pool = s.pool := rfl
@[simp] theorem complete_idx (s : State) : (complete s).idx = s.idx := rfl
@[simp] theorem complete_nsHave (s : State) : (complete s).nsHave = s.nsHave := rfl
@[simp] theorem complete_nsFirst (s : State) : (complete s).nsFirst = s.nsFirst := rfl
@[simp] theorem complete_shift (s : State) : (complete s).shift = s.shift := rfl
@[simp] theorem complete_bitcnt (s : State) : (complete s).bitcnt = s.bitcnt := rfl
@[simp] theorem complete_byteptr (s : State) : (complete s).byteptr = s.byteptr := rfl
@[simp] theorem complete_op (s : State) : (complete s).op = .none := rfl
@[simp] theorem complete_work (s : State) : (complete s).work = s.work := rfl
@[simp] theorem complete_rstN (s : State) : (complete s).rstN = s.rstN := rfl
@[simp] theorem complete_host (s : State) : (complete s).host = s.host := rfl
@[simp] theorem complete_agenda (s : State) : (complete s).agenda = s.agenda := rfl
@[simp] theorem complete_freeNext (s : State) : (complete s).freeNext = s.freeNext := rfl
@[simp] theorem complete_freeWorkNext (s : State) : (complete s).freeWorkNext = s.freeWorkNext := rfl

/-! ### `disturbWork` -/

@[simp] theorem disturbWork_key (s : State) : (disturbWork s).key = s.key := rfl
@[simp] theorem disturbWork_data (s : State) : (disturbWork s).data = s.data := rfl
@[simp] theorem disturbWork_done (s : State) : (disturbWork s).done = s.done := rfl
@[simp] theorem disturbWork_seeded (s : State) : (disturbWork s).seeded = s.seeded := rfl
@[simp] theorem disturbWork_error (s : State) : (disturbWork s).error = s.error := rfl
@[simp] theorem disturbWork_rngOutLo (s : State) : (disturbWork s).rngOutLo = s.rngOutLo := rfl
@[simp] theorem disturbWork_rngOutHi (s : State) : (disturbWork s).rngOutHi = s.rngOutHi := rfl
@[simp] theorem disturbWork_pool (s : State) : (disturbWork s).pool = s.pool := rfl
@[simp] theorem disturbWork_idx (s : State) : (disturbWork s).idx = s.idx := rfl
@[simp] theorem disturbWork_nsHave (s : State) : (disturbWork s).nsHave = s.nsHave := rfl
@[simp] theorem disturbWork_nsFirst (s : State) : (disturbWork s).nsFirst = s.nsFirst := rfl
@[simp] theorem disturbWork_shift (s : State) : (disturbWork s).shift = s.shift := rfl
@[simp] theorem disturbWork_bitcnt (s : State) : (disturbWork s).bitcnt = s.bitcnt := rfl
@[simp] theorem disturbWork_byteptr (s : State) : (disturbWork s).byteptr = s.byteptr := rfl
@[simp] theorem disturbWork_op (s : State) : (disturbWork s).op = s.op := rfl
@[simp] theorem disturbWork_work (s : State) : (disturbWork s).work = Config.freeWork s.freeWorkNext := rfl
@[simp] theorem disturbWork_rstN (s : State) : (disturbWork s).rstN = s.rstN := rfl
@[simp] theorem disturbWork_host (s : State) : (disturbWork s).host = s.host := rfl
@[simp] theorem disturbWork_agenda (s : State) : (disturbWork s).agenda = s.agenda := rfl
@[simp] theorem disturbWork_freeNext (s : State) : (disturbWork s).freeNext = s.freeNext := rfl
@[simp] theorem disturbWork_freeWorkNext (s : State) : (disturbWork s).freeWorkNext = s.freeWorkNext + 1 := rfl

/-! ### `setKey` -/

@[simp] theorem setKey_key (i : Fin 16) (v : Byte) (s : State) : (setKey i v s).key = s.key.set i v := rfl
@[simp] theorem setKey_data (i : Fin 16) (v : Byte) (s : State) : (setKey i v s).data = s.data := rfl
@[simp] theorem setKey_done (i : Fin 16) (v : Byte) (s : State) : (setKey i v s).done = s.done := rfl
@[simp] theorem setKey_seeded (i : Fin 16) (v : Byte) (s : State) : (setKey i v s).seeded = s.seeded := rfl
@[simp] theorem setKey_error (i : Fin 16) (v : Byte) (s : State) : (setKey i v s).error = s.error := rfl
@[simp] theorem setKey_rngOutLo (i : Fin 16) (v : Byte) (s : State) : (setKey i v s).rngOutLo = s.rngOutLo := rfl
@[simp] theorem setKey_rngOutHi (i : Fin 16) (v : Byte) (s : State) : (setKey i v s).rngOutHi = s.rngOutHi := rfl
@[simp] theorem setKey_pool (i : Fin 16) (v : Byte) (s : State) : (setKey i v s).pool = s.pool := rfl
@[simp] theorem setKey_idx (i : Fin 16) (v : Byte) (s : State) : (setKey i v s).idx = s.idx := rfl
@[simp] theorem setKey_nsHave (i : Fin 16) (v : Byte) (s : State) : (setKey i v s).nsHave = s.nsHave := rfl
@[simp] theorem setKey_nsFirst (i : Fin 16) (v : Byte) (s : State) : (setKey i v s).nsFirst = s.nsFirst := rfl
@[simp] theorem setKey_shift (i : Fin 16) (v : Byte) (s : State) : (setKey i v s).shift = s.shift := rfl
@[simp] theorem setKey_bitcnt (i : Fin 16) (v : Byte) (s : State) : (setKey i v s).bitcnt = s.bitcnt := rfl
@[simp] theorem setKey_byteptr (i : Fin 16) (v : Byte) (s : State) : (setKey i v s).byteptr = s.byteptr := rfl
@[simp] theorem setKey_op (i : Fin 16) (v : Byte) (s : State) : (setKey i v s).op = s.op := rfl
@[simp] theorem setKey_work (i : Fin 16) (v : Byte) (s : State) : (setKey i v s).work = s.work := rfl
@[simp] theorem setKey_rstN (i : Fin 16) (v : Byte) (s : State) : (setKey i v s).rstN = s.rstN := rfl
@[simp] theorem setKey_host (i : Fin 16) (v : Byte) (s : State) : (setKey i v s).host = s.host := rfl
@[simp] theorem setKey_agenda (i : Fin 16) (v : Byte) (s : State) : (setKey i v s).agenda = s.agenda := rfl
@[simp] theorem setKey_freeNext (i : Fin 16) (v : Byte) (s : State) : (setKey i v s).freeNext = s.freeNext := rfl
@[simp] theorem setKey_freeWorkNext (i : Fin 16) (v : Byte) (s : State) : (setKey i v s).freeWorkNext = s.freeWorkNext := rfl

/-! ### `setData` -/

@[simp] theorem setData_key (i : Fin 16) (v : Byte) (s : State) : (setData i v s).key = s.key := rfl
@[simp] theorem setData_data (i : Fin 16) (v : Byte) (s : State) : (setData i v s).data = s.data.set i v := rfl
@[simp] theorem setData_done (i : Fin 16) (v : Byte) (s : State) : (setData i v s).done = s.done := rfl
@[simp] theorem setData_seeded (i : Fin 16) (v : Byte) (s : State) : (setData i v s).seeded = s.seeded := rfl
@[simp] theorem setData_error (i : Fin 16) (v : Byte) (s : State) : (setData i v s).error = s.error := rfl
@[simp] theorem setData_rngOutLo (i : Fin 16) (v : Byte) (s : State) : (setData i v s).rngOutLo = s.rngOutLo := rfl
@[simp] theorem setData_rngOutHi (i : Fin 16) (v : Byte) (s : State) : (setData i v s).rngOutHi = s.rngOutHi := rfl
@[simp] theorem setData_pool (i : Fin 16) (v : Byte) (s : State) : (setData i v s).pool = s.pool := rfl
@[simp] theorem setData_idx (i : Fin 16) (v : Byte) (s : State) : (setData i v s).idx = s.idx := rfl
@[simp] theorem setData_nsHave (i : Fin 16) (v : Byte) (s : State) : (setData i v s).nsHave = s.nsHave := rfl
@[simp] theorem setData_nsFirst (i : Fin 16) (v : Byte) (s : State) : (setData i v s).nsFirst = s.nsFirst := rfl
@[simp] theorem setData_shift (i : Fin 16) (v : Byte) (s : State) : (setData i v s).shift = s.shift := rfl
@[simp] theorem setData_bitcnt (i : Fin 16) (v : Byte) (s : State) : (setData i v s).bitcnt = s.bitcnt := rfl
@[simp] theorem setData_byteptr (i : Fin 16) (v : Byte) (s : State) : (setData i v s).byteptr = s.byteptr := rfl
@[simp] theorem setData_op (i : Fin 16) (v : Byte) (s : State) : (setData i v s).op = s.op := rfl
@[simp] theorem setData_work (i : Fin 16) (v : Byte) (s : State) : (setData i v s).work = s.work := rfl
@[simp] theorem setData_rstN (i : Fin 16) (v : Byte) (s : State) : (setData i v s).rstN = s.rstN := rfl
@[simp] theorem setData_host (i : Fin 16) (v : Byte) (s : State) : (setData i v s).host = s.host := rfl
@[simp] theorem setData_agenda (i : Fin 16) (v : Byte) (s : State) : (setData i v s).agenda = s.agenda := rfl
@[simp] theorem setData_freeNext (i : Fin 16) (v : Byte) (s : State) : (setData i v s).freeNext = s.freeNext := rfl
@[simp] theorem setData_freeWorkNext (i : Fin 16) (v : Byte) (s : State) : (setData i v s).freeWorkNext = s.freeWorkNext := rfl

/-! ### `logRead` -/

@[simp] theorem logRead_key (v : Byte) (s : State) : (logRead v s).key = s.key := rfl
@[simp] theorem logRead_data (v : Byte) (s : State) : (logRead v s).data = s.data := rfl
@[simp] theorem logRead_done (v : Byte) (s : State) : (logRead v s).done = s.done := rfl
@[simp] theorem logRead_seeded (v : Byte) (s : State) : (logRead v s).seeded = s.seeded := rfl
@[simp] theorem logRead_error (v : Byte) (s : State) : (logRead v s).error = s.error := rfl
@[simp] theorem logRead_rngOutLo (v : Byte) (s : State) : (logRead v s).rngOutLo = s.rngOutLo := rfl
@[simp] theorem logRead_rngOutHi (v : Byte) (s : State) : (logRead v s).rngOutHi = s.rngOutHi := rfl
@[simp] theorem logRead_pool (v : Byte) (s : State) : (logRead v s).pool = s.pool := rfl
@[simp] theorem logRead_idx (v : Byte) (s : State) : (logRead v s).idx = s.idx := rfl
@[simp] theorem logRead_nsHave (v : Byte) (s : State) : (logRead v s).nsHave = s.nsHave := rfl
@[simp] theorem logRead_nsFirst (v : Byte) (s : State) : (logRead v s).nsFirst = s.nsFirst := rfl
@[simp] theorem logRead_shift (v : Byte) (s : State) : (logRead v s).shift = s.shift := rfl
@[simp] theorem logRead_bitcnt (v : Byte) (s : State) : (logRead v s).bitcnt = s.bitcnt := rfl
@[simp] theorem logRead_byteptr (v : Byte) (s : State) : (logRead v s).byteptr = s.byteptr := rfl
@[simp] theorem logRead_op (v : Byte) (s : State) : (logRead v s).op = s.op := rfl
@[simp] theorem logRead_work (v : Byte) (s : State) : (logRead v s).work = s.work := rfl
@[simp] theorem logRead_rstN (v : Byte) (s : State) : (logRead v s).rstN = s.rstN := rfl
@[simp] theorem logRead_host (v : Byte) (s : State) : (logRead v s).host = ⟨s.host.prog, s.host.reads ++ [v]⟩ := rfl
@[simp] theorem logRead_agenda (v : Byte) (s : State) : (logRead v s).agenda = s.agenda := rfl
@[simp] theorem logRead_freeNext (v : Byte) (s : State) : (logRead v s).freeNext = s.freeNext := rfl
@[simp] theorem logRead_freeWorkNext (v : Byte) (s : State) : (logRead v s).freeWorkNext = s.freeWorkNext := rfl

/-! ### `setProg` -/

@[simp] theorem setProg_key (p : List BusOp) (s : State) : (setProg p s).key = s.key := rfl
@[simp] theorem setProg_data (p : List BusOp) (s : State) : (setProg p s).data = s.data := rfl
@[simp] theorem setProg_done (p : List BusOp) (s : State) : (setProg p s).done = s.done := rfl
@[simp] theorem setProg_seeded (p : List BusOp) (s : State) : (setProg p s).seeded = s.seeded := rfl
@[simp] theorem setProg_error (p : List BusOp) (s : State) : (setProg p s).error = s.error := rfl
@[simp] theorem setProg_rngOutLo (p : List BusOp) (s : State) : (setProg p s).rngOutLo = s.rngOutLo := rfl
@[simp] theorem setProg_rngOutHi (p : List BusOp) (s : State) : (setProg p s).rngOutHi = s.rngOutHi := rfl
@[simp] theorem setProg_pool (p : List BusOp) (s : State) : (setProg p s).pool = s.pool := rfl
@[simp] theorem setProg_idx (p : List BusOp) (s : State) : (setProg p s).idx = s.idx := rfl
@[simp] theorem setProg_nsHave (p : List BusOp) (s : State) : (setProg p s).nsHave = s.nsHave := rfl
@[simp] theorem setProg_nsFirst (p : List BusOp) (s : State) : (setProg p s).nsFirst = s.nsFirst := rfl
@[simp] theorem setProg_shift (p : List BusOp) (s : State) : (setProg p s).shift = s.shift := rfl
@[simp] theorem setProg_bitcnt (p : List BusOp) (s : State) : (setProg p s).bitcnt = s.bitcnt := rfl
@[simp] theorem setProg_byteptr (p : List BusOp) (s : State) : (setProg p s).byteptr = s.byteptr := rfl
@[simp] theorem setProg_op (p : List BusOp) (s : State) : (setProg p s).op = s.op := rfl
@[simp] theorem setProg_work (p : List BusOp) (s : State) : (setProg p s).work = s.work := rfl
@[simp] theorem setProg_rstN (p : List BusOp) (s : State) : (setProg p s).rstN = s.rstN := rfl
@[simp] theorem setProg_host (p : List BusOp) (s : State) : (setProg p s).host = ⟨p, s.host.reads⟩ := rfl
@[simp] theorem setProg_agenda (p : List BusOp) (s : State) : (setProg p s).agenda = s.agenda := rfl
@[simp] theorem setProg_freeNext (p : List BusOp) (s : State) : (setProg p s).freeNext = s.freeNext := rfl
@[simp] theorem setProg_freeWorkNext (p : List BusOp) (s : State) : (setProg p s).freeWorkNext = s.freeWorkNext := rfl

/-! ### `setAgenda` -/

@[simp] theorem setAgenda_key (es : List Event) (s : State) : (setAgenda es s).key = s.key := rfl
@[simp] theorem setAgenda_data (es : List Event) (s : State) : (setAgenda es s).data = s.data := rfl
@[simp] theorem setAgenda_done (es : List Event) (s : State) : (setAgenda es s).done = s.done := rfl
@[simp] theorem setAgenda_seeded (es : List Event) (s : State) : (setAgenda es s).seeded = s.seeded := rfl
@[simp] theorem setAgenda_error (es : List Event) (s : State) : (setAgenda es s).error = s.error := rfl
@[simp] theorem setAgenda_rngOutLo (es : List Event) (s : State) : (setAgenda es s).rngOutLo = s.rngOutLo := rfl
@[simp] theorem setAgenda_rngOutHi (es : List Event) (s : State) : (setAgenda es s).rngOutHi = s.rngOutHi := rfl
@[simp] theorem setAgenda_pool (es : List Event) (s : State) : (setAgenda es s).pool = s.pool := rfl
@[simp] theorem setAgenda_idx (es : List Event) (s : State) : (setAgenda es s).idx = s.idx := rfl
@[simp] theorem setAgenda_nsHave (es : List Event) (s : State) : (setAgenda es s).nsHave = s.nsHave := rfl
@[simp] theorem setAgenda_nsFirst (es : List Event) (s : State) : (setAgenda es s).nsFirst = s.nsFirst := rfl
@[simp] theorem setAgenda_shift (es : List Event) (s : State) : (setAgenda es s).shift = s.shift := rfl
@[simp] theorem setAgenda_bitcnt (es : List Event) (s : State) : (setAgenda es s).bitcnt = s.bitcnt := rfl
@[simp] theorem setAgenda_byteptr (es : List Event) (s : State) : (setAgenda es s).byteptr = s.byteptr := rfl
@[simp] theorem setAgenda_op (es : List Event) (s : State) : (setAgenda es s).op = s.op := rfl
@[simp] theorem setAgenda_work (es : List Event) (s : State) : (setAgenda es s).work = s.work := rfl
@[simp] theorem setAgenda_rstN (es : List Event) (s : State) : (setAgenda es s).rstN = s.rstN := rfl
@[simp] theorem setAgenda_host (es : List Event) (s : State) : (setAgenda es s).host = s.host := rfl
@[simp] theorem setAgenda_agenda (es : List Event) (s : State) : (setAgenda es s).agenda = es := rfl
@[simp] theorem setAgenda_freeNext (es : List Event) (s : State) : (setAgenda es s).freeNext = s.freeNext := rfl
@[simp] theorem setAgenda_freeWorkNext (es : List Event) (s : State) : (setAgenda es s).freeWorkNext = s.freeWorkNext := rfl

/-! ### `accept` -/

@[simp] theorem accept_key (op : Op) (s : State) : (accept op s).key = s.key := by cases op <;> rfl
@[simp] theorem accept_data (op : Op) (s : State) : (accept op s).data = s.data := by cases op <;> rfl
@[simp] theorem accept_done (op : Op) (s : State) : (accept op s).done = false := by cases op <;> rfl
@[simp] theorem accept_seeded (op : Op) (s : State) :
    (accept op s).seeded = if op = .seed then false else s.seeded := by cases op <;> rfl
@[simp] theorem accept_error (op : Op) (s : State) : (accept op s).error = s.error := by cases op <;> rfl
@[simp] theorem accept_rngOutLo (op : Op) (s : State) : (accept op s).rngOutLo = s.rngOutLo := by cases op <;> rfl
@[simp] theorem accept_rngOutHi (op : Op) (s : State) : (accept op s).rngOutHi = s.rngOutHi := by cases op <;> rfl
@[simp] theorem accept_pool (op : Op) (s : State) : (accept op s).pool = s.pool := by cases op <;> rfl
@[simp] theorem accept_idx (op : Op) (s : State) : (accept op s).idx = s.idx := by cases op <;> rfl
@[simp] theorem accept_nsHave (op : Op) (s : State) :
    (accept op s).nsHave = if op = .seed then false else s.nsHave := by cases op <;> rfl
@[simp] theorem accept_nsFirst (op : Op) (s : State) :
    (accept op s).nsFirst = if op = .seed then false else s.nsFirst := by cases op <;> rfl
@[simp] theorem accept_shift (op : Op) (s : State) :
    (accept op s).shift = if op = .seed then 0x00 else s.shift := by cases op <;> rfl
@[simp] theorem accept_bitcnt (op : Op) (s : State) :
    (accept op s).bitcnt = if op = .seed then 0 else s.bitcnt := by cases op <;> rfl
@[simp] theorem accept_byteptr (op : Op) (s : State) :
    (accept op s).byteptr = if op = .seed then 1 else s.byteptr := by cases op <;> rfl
@[simp] theorem accept_op (op : Op) (s : State) : (accept op s).op = op := by cases op <;> rfl
@[simp] theorem accept_work (op : Op) (s : State) : (accept op s).work = s.work := by cases op <;> rfl
@[simp] theorem accept_rstN (op : Op) (s : State) : (accept op s).rstN = s.rstN := by cases op <;> rfl
@[simp] theorem accept_host (op : Op) (s : State) : (accept op s).host = s.host := by cases op <;> rfl
@[simp] theorem accept_agenda (op : Op) (s : State) : (accept op s).agenda = s.agenda := by cases op <;> rfl
@[simp] theorem accept_freeNext (op : Op) (s : State) : (accept op s).freeNext = s.freeNext := by cases op <;> rfl
@[simp] theorem accept_freeWorkNext (op : Op) (s : State) : (accept op s).freeWorkNext = s.freeWorkNext := by cases op <;> rfl

end Sys2Proof.Machine
end

