-- ==== Sys2Proof/Laws/Ops.lean ====
section
/-!
SUPPORT. Sys2Proof/Laws/Ops.lean: what each shared operation of Machine/Ops.lean, Flags.lean and Operands.lean can do,
said once.
-/

namespace Sys2Proof.Machine

/-! ### BUSY and the guards -/

@[simp] theorem busy_eq_false_iff (s : State) : s.busy = false ↔ s.op = .none := by
  simp [State.busy]

@[simp] theorem busy_eq_true_iff (s : State) : s.busy = true ↔ s.op ≠ .none := by
  simp [State.busy]

theorem whenRunning_of_reset {s : State} (k : State → State) (h : s.rstN = false) : whenRunning k s = s := by
  simp [whenRunning, h]

theorem whenRunning_of_running {s : State} (k : State → State) (h : s.rstN = true) : whenRunning k s = k s := by
  simp [whenRunning, h]

theorem whenIdle_of_reset {s : State} (k : State → State) (h : s.rstN = false) : whenIdle k s = s := by
  simp [whenIdle, whenRunning, h]

theorem whenIdle_of_idle {s : State} (k : State → State) (h : s.rstN = true) (hop : s.op = .none) :
    whenIdle k s = k s := by
  simp [whenIdle, whenRunning, h, hop]

theorem whenIdle_of_busy {s : State} (k : State → State) (h : s.rstN = true) (hop : s.op ≠ .none) :
    whenIdle k s = raise .busy s := by
  simp [whenIdle, whenRunning, h, hop]

/-- The three things a guarded write can do: nothing in reset, ERR_BUSY, or its effect. -/
theorem whenIdle_cases (k : State → State) (s : State) :
    (s.rstN = false ∧ whenIdle k s = s) ∨ (s.rstN = true ∧ s.op ≠ .none ∧ whenIdle k s = raise .busy s) ∨
      (s.rstN = true ∧ s.op = .none ∧ whenIdle k s = k s) := by
  cases hr : s.rstN
  · exact .inl ⟨rfl, whenIdle_of_reset k hr⟩
  · by_cases ho : s.op = .none
    · exact .inr (.inr ⟨rfl, ho, whenIdle_of_idle k hr ho⟩)
    · exact .inr (.inl ⟨rfl, ho, whenIdle_of_busy k hr ho⟩)

theorem whenRunning_cases (k : State → State) (s : State) :
    (s.rstN = false ∧ whenRunning k s = s) ∨ (s.rstN = true ∧ whenRunning k s = k s) := by
  cases hr : s.rstN
  · exact .inl ⟨rfl, whenRunning_of_reset k hr⟩
  · exact .inr ⟨rfl, whenRunning_of_running k hr⟩

theorem acceptDraw_of_seeded {s : State} (op : Op) (h : s.seeded = true) : acceptDraw op s = accept op s := by
  simp [acceptDraw, h]

theorem acceptDraw_of_unseeded {s : State} (op : Op) (h : s.seeded = false) :
    acceptDraw op s = raise .unseeded s := by
  simp [acceptDraw, h]

/-! ### The register map -/

theorem windowReg_keyOffset (i : Fin 16) : windowReg (keyOffset i) = .key i := by
  revert i; decide

theorem windowReg_dataOffset (i : Fin 16) : windowReg (dataOffset i) = .data i := by
  revert i; decide

/-- An offset that names a KEY or DATA byte is that byte's own offset. -/
theorem windowReg_key_data (off : Byte) :
    ∀ i : Fin 16, (windowReg off = .key i → off = keyOffset i) ∧ (windowReg off = .data i → off = dataOffset i) := by
  revert off; decide +kernel

theorem windowReg_cmd_iff (off : Byte) : windowReg off = .cmd ↔ off = 0x00 := by
  revert off; decide +kernel

theorem windowReg_error_iff (off : Byte) : windowReg off = .error ↔ off = 0x02 := by
  revert off; decide +kernel

theorem windowReg_key {off : Byte} {i : Fin 16} (h : windowReg off = .key i) : off = keyOffset i :=
  (windowReg_key_data off i).1 h

theorem windowReg_data {off : Byte} {i : Fin 16} (h : windowReg off = .data i) : off = dataOffset i :=
  (windowReg_key_data off i).2 h

/-- The guarded registers CMD, KEY and DATA are exactly offset 0x00 and 0x10..0x2F. -/
theorem windowReg_guarded_iff (off : Byte) :
    (off = 0x00 ∨ (0x10 ≤ off.toNat ∧ off.toNat ≤ 0x2F)) ↔
      (windowReg off = .cmd ∨ (∃ i, windowReg off = .key i) ∨ ∃ i, windowReg off = .data i) := by
  revert off; decide +kernel

theorem windowReg_reserved_iff (off : Byte) :
    (off = 0x03 ∨ (0x06 ≤ off.toNat ∧ off.toNat ≤ 0x0F) ∨ 0x30 ≤ off.toNat) ↔ windowReg off = .reserved := by
  revert off; decide +kernel

theorem windowOffset_base (off : Byte) : windowOffset (Config.windowBase + off.toNat) = some off := by
  have h := off.isLt
  unfold windowOffset Config.windowBytes
  rw [if_pos ⟨by omega, by omega⟩, Nat.add_sub_cancel_left, BitVec.ofNat_toNat]
  simp

/-! ### ERROR and STATUS -/

/-- A masked byte is non-zero exactly when the flag's own bit is set. -/
theorem mask_ne_zero (f : ErrFlag) (e : Byte) : (e &&& f.mask != 0x00) = e.getLsbD f.code := by
  cases f <;> revert e <;> decide +kernel

theorem mask_eq_zero (f : ErrFlag) (e : Byte) : (e &&& f.mask == 0x00) = !e.getLsbD f.code := by
  cases f <;> revert e <;> decide +kernel

theorem errorSet_eq_bit (s : State) (f : ErrFlag) : s.errorSet f = s.error.getLsbD f.code := mask_ne_zero f s.error

theorem errorSet_raise (f g : ErrFlag) (s : State) :
    (raise f s).errorSet g = (decide (g = f) || s.errorSet g) := by
  rw [errorSet_eq_bit, errorSet_eq_bit, raise_error, BitVec.getLsbD_or, Bool.or_comm]
  cases f <;> cases g <;> rfl

theorem errorSet_clearErrors (v : Byte) (g : ErrFlag) (s : State) :
    (clearErrors v s).errorSet g = (s.errorSet g && v &&& g.mask == 0x00) := by
  rw [mask_eq_zero, errorSet_eq_bit, errorSet_eq_bit, clearErrors_error]
  cases g <;> simp [ErrFlag.code]

theorem statusByte_bit0 (s : State) : s.statusByte.getLsbD 0 = s.busy := by
  cases hb : s.busy <;> cases hd : s.done <;> cases hs : s.seeded <;> simp [State.statusByte, hb, hd, hs]

theorem statusByte_toNat (s : State) :
    s.statusByte.toNat = 4 * s.seeded.toNat + 2 * s.done.toNat + s.busy.toNat := by
  cases hb : s.busy <;> cases hd : s.done <;> cases hs : s.seeded <;> simp [State.statusByte, hb, hd, hs]

end Sys2Proof.Machine
end

