-- ==== Sys2Proof/Laws/Rng.lean ====
section
/-!
SUPPORT. Sys2Proof/Laws/Rng.lean: what the entropy collection, the draws and the completions can change.
-/

namespace Sys2Proof.Machine

/-! ### Entropy collection: everything outside the collection registers, POOL, IDX, OP, DONE and SEEDED -/

@[simp] theorem seedComplete_key (s : State) : (seedComplete s).key = s.key := rfl
@[simp] theorem seedComplete_data (s : State) : (seedComplete s).data = s.data := rfl
@[simp] theorem seedComplete_error (s : State) : (seedComplete s).error = s.error := rfl
@[simp] theorem seedComplete_rngOutLo (s : State) : (seedComplete s).rngOutLo = s.rngOutLo := rfl
@[simp] theorem seedComplete_rngOutHi (s : State) : (seedComplete s).rngOutHi = s.rngOutHi := rfl
@[simp] theorem seedComplete_work (s : State) : (seedComplete s).work = s.work := rfl
@[simp] theorem seedComplete_rstN (s : State) : (seedComplete s).rstN = s.rstN := rfl
@[simp] theorem seedComplete_host (s : State) : (seedComplete s).host = s.host := rfl
@[simp] theorem seedComplete_agenda (s : State) : (seedComplete s).agenda = s.agenda := rfl
@[simp] theorem seedComplete_freeNext (s : State) : (seedComplete s).freeNext = s.freeNext := rfl
@[simp] theorem seedComplete_freeWorkNext (s : State) : (seedComplete s).freeWorkNext = s.freeWorkNext := rfl
@[simp] theorem storeByte_key (v : Byte) (s : State) : (storeByte v s).key = s.key := by
  unfold storeByte; split <;> rfl
@[simp] theorem storeByte_data (v : Byte) (s : State) : (storeByte v s).data = s.data := by
  unfold storeByte; split <;> rfl
@[simp] theorem storeByte_error (v : Byte) (s : State) : (storeByte v s).error = s.error := by
  unfold storeByte; split <;> rfl
@[simp] theorem storeByte_rngOutLo (v : Byte) (s : State) : (storeByte v s).rngOutLo = s.rngOutLo := by
  unfold storeByte; split <;> rfl
@[simp] theorem storeByte_rngOutHi (v : Byte) (s : State) : (storeByte v s).rngOutHi = s.rngOutHi := by
  unfold storeByte; split <;> rfl
@[simp] theorem storeByte_work (v : Byte) (s : State) : (storeByte v s).work = s.work := by
  unfold storeByte; split <;> rfl
@[simp] theorem storeByte_rstN (v : Byte) (s : State) : (storeByte v s).rstN = s.rstN := by
  unfold storeByte; split <;> rfl
@[simp] theorem storeByte_host (v : Byte) (s : State) : (storeByte v s).host = s.host := by
  unfold storeByte; split <;> rfl
@[simp] theorem storeByte_agenda (v : Byte) (s : State) : (storeByte v s).agenda = s.agenda := by
  unfold storeByte; split <;> rfl
@[simp] theorem storeByte_freeNext (v : Byte) (s : State) : (storeByte v s).freeNext = s.freeNext := by
  unfold storeByte; split <;> rfl
@[simp] theorem storeByte_freeWorkNext (v : Byte) (s : State) : (storeByte v s).freeWorkNext = s.freeWorkNext := by
  unfold storeByte; split <;> rfl
@[simp] theorem keepBit_key (k : Bool) (s : State) : (keepBit k s).key = s.key := by
  unfold keepBit; split <;> simp
@[simp] theorem keepBit_data (k : Bool) (s : State) : (keepBit k s).data = s.data := by
  unfold keepBit; split <;> simp
@[simp] theorem keepBit_error (k : Bool) (s : State) : (keepBit k s).error = s.error := by
  unfold keepBit; split <;> simp
@[simp] theorem keepBit_rngOutLo (k : Bool) (s : State) : (keepBit k s).rngOutLo = s.rngOutLo := by
  unfold keepBit; split <;> simp
@[simp] theorem keepBit_rngOutHi (k : Bool) (s : State) : (keepBit k s).rngOutHi = s.rngOutHi := by
  unfold keepBit; split <;> simp
@[simp] theorem keepBit_work (k : Bool) (s : State) : (keepBit k s).work = s.work := by
  unfold keepBit; split <;> simp
@[simp] theorem keepBit_rstN (k : Bool) (s : State) : (keepBit k s).rstN = s.rstN := by
  unfold keepBit; split <;> simp
@[simp] theorem keepBit_host (k : Bool) (s : State) : (keepBit k s).host = s.host := by
  unfold keepBit; split <;> simp
@[simp] theorem keepBit_agenda (k : Bool) (s : State) : (keepBit k s).agenda = s.agenda := by
  unfold keepBit; split <;> simp
@[simp] theorem keepBit_freeNext (k : Bool) (s : State) : (keepBit k s).freeNext = s.freeNext := by
  unfold keepBit; split <;> simp
@[simp] theorem keepBit_freeWorkNext (k : Bool) (s : State) : (keepBit k s).freeWorkNext = s.freeWorkNext := by
  unfold keepBit; split <;> simp
@[simp] theorem consumeSample_key (x : Byte) (s : State) : (consumeSample x s).key = s.key := by
  simp only [consumeSample]; split <;> [split; skip] <;> simp
@[simp] theorem consumeSample_data (x : Byte) (s : State) : (consumeSample x s).data = s.data := by
  simp only [consumeSample]; split <;> [split; skip] <;> simp
@[simp] theorem consumeSample_error (x : Byte) (s : State) : (consumeSample x s).error = s.error := by
  simp only [consumeSample]; split <;> [split; skip] <;> simp
@[simp] theorem consumeSample_rngOutLo (x : Byte) (s : State) : (consumeSample x s).rngOutLo = s.rngOutLo := by
  simp only [consumeSample]; split <;> [split; skip] <;> simp
@[simp] theorem consumeSample_rngOutHi (x : Byte) (s : State) : (consumeSample x s).rngOutHi = s.rngOutHi := by
  simp only [consumeSample]; split <;> [split; skip] <;> simp
@[simp] theorem consumeSample_work (x : Byte) (s : State) : (consumeSample x s).work = s.work := by
  simp only [consumeSample]; split <;> [split; skip] <;> simp
@[simp] theorem consumeSample_rstN (x : Byte) (s : State) : (consumeSample x s).rstN = s.rstN := by
  simp only [consumeSample]; split <;> [split; skip] <;> simp
@[simp] theorem consumeSample_host (x : Byte) (s : State) : (consumeSample x s).host = s.host := by
  simp only [consumeSample]; split <;> [split; skip] <;> simp
@[simp] theorem consumeSample_agenda (x : Byte) (s : State) : (consumeSample x s).agenda = s.agenda := by
  simp only [consumeSample]; split <;> [split; skip] <;> simp
@[simp] theorem consumeSample_freeNext (x : Byte) (s : State) : (consumeSample x s).freeNext = s.freeNext := by
  simp only [consumeSample]; split <;> [split; skip] <;> simp
@[simp] theorem consumeSample_freeWorkNext (x : Byte) (s : State) : (consumeSample x s).freeWorkNext = s.freeWorkNext := by
  simp only [consumeSample]; split <;> [split; skip] <;> simp
@[simp] theorem offerSample_key (x : Byte) (s : State) : (offerSample x s).key = s.key := by
  unfold offerSample; split <;> simp
@[simp] theorem offerSample_data (x : Byte) (s : State) : (offerSample x s).data = s.data := by
  unfold offerSample; split <;> simp
@[simp] theorem offerSample_error (x : Byte) (s : State) : (offerSample x s).error = s.error := by
  unfold offerSample; split <;> simp
@[simp] theorem offerSample_rngOutLo (x : Byte) (s : State) : (offerSample x s).rngOutLo = s.rngOutLo := by
  unfold offerSample; split <;> simp
@[simp] theorem offerSample_rngOutHi (x : Byte) (s : State) : (offerSample x s).rngOutHi = s.rngOutHi := by
  unfold offerSample; split <;> simp
@[simp] theorem offerSample_work (x : Byte) (s : State) : (offerSample x s).work = s.work := by
  unfold offerSample; split <;> simp
@[simp] theorem offerSample_rstN (x : Byte) (s : State) : (offerSample x s).rstN = s.rstN := by
  unfold offerSample; split <;> simp
@[simp] theorem offerSample_host (x : Byte) (s : State) : (offerSample x s).host = s.host := by
  unfold offerSample; split <;> simp
@[simp] theorem offerSample_agenda (x : Byte) (s : State) : (offerSample x s).agenda = s.agenda := by
  unfold offerSample; split <;> simp
@[simp] theorem offerSample_freeNext (x : Byte) (s : State) : (offerSample x s).freeNext = s.freeNext := by
  unfold offerSample; split <;> simp
@[simp] theorem offerSample_freeWorkNext (x : Byte) (s : State) : (offerSample x s).freeWorkNext = s.freeWorkNext := by
  unfold offerSample; split <;> simp

/-! ### Draws: everything but POOL, IDX and the datapath -/

/-- A draw takes a byte of the pool, or of the re-whitened pool. -/
theorem rngDrawWith_cases (k : Block) (s : State) :
    (∃ i, rngDrawWith k s = takeByte i s) ∨ rngDrawWith k s = takeByte 0 (rewhiten k s) := by
  by_cases h : s.idx.val < 16
  · exact .inl ⟨⟨s.idx.val, h⟩, by simp only [rngDrawWith, h, dite_true]⟩
  · exact .inr (by simp only [rngDrawWith, h, dite_false])

@[simp] theorem rewhiten_key (k : Block) (s : State) : (rewhiten k s).key = s.key := rfl
@[simp] theorem rewhiten_data (k : Block) (s : State) : (rewhiten k s).data = s.data := rfl
@[simp] theorem rewhiten_done (k : Block) (s : State) : (rewhiten k s).done = s.done := rfl
@[simp] theorem rewhiten_seeded (k : Block) (s : State) : (rewhiten k s).seeded = s.seeded := rfl
@[simp] theorem rewhiten_error (k : Block) (s : State) : (rewhiten k s).error = s.error := rfl
@[simp] theorem rewhiten_rngOutLo (k : Block) (s : State) : (rewhiten k s).rngOutLo = s.rngOutLo := rfl
@[simp] theorem rewhiten_rngOutHi (k : Block) (s : State) : (rewhiten k s).rngOutHi = s.rngOutHi := rfl
@[simp] theorem rewhiten_nsHave (k : Block) (s : State) : (rewhiten k s).nsHave = s.nsHave := rfl
@[simp] theorem rewhiten_nsFirst (k : Block) (s : State) : (rewhiten k s).nsFirst = s.nsFirst := rfl
@[simp] theorem rewhiten_shift (k : Block) (s : State) : (rewhiten k s).shift = s.shift := rfl
@[simp] theorem rewhiten_bitcnt (k : Block) (s : State) : (rewhiten k s).bitcnt = s.bitcnt := rfl
@[simp] theorem rewhiten_byteptr (k : Block) (s : State) : (rewhiten k s).byteptr = s.byteptr := rfl
@[simp] theorem rewhiten_op (k : Block) (s : State) : (rewhiten k s).op = s.op := rfl
@[simp] theorem rewhiten_rstN (k : Block) (s : State) : (rewhiten k s).rstN = s.rstN := rfl
@[simp] theorem rewhiten_host (k : Block) (s : State) : (rewhiten k s).host = s.host := rfl
@[simp] theorem rewhiten_agenda (k : Block) (s : State) : (rewhiten k s).agenda = s.agenda := rfl
@[simp] theorem rewhiten_freeNext (k : Block) (s : State) : (rewhiten k s).freeNext = s.freeNext := rfl
@[simp] theorem takeByte_key (i : Fin 16) (s : State) : (takeByte i s).2.key = s.key := rfl
@[simp] theorem takeByte_data (i : Fin 16) (s : State) : (takeByte i s).2.data = s.data := rfl
@[simp] theorem takeByte_done (i : Fin 16) (s : State) : (takeByte i s).2.done = s.done := rfl
@[simp] theorem takeByte_seeded (i : Fin 16) (s : State) : (takeByte i s).2.seeded = s.seeded := rfl
@[simp] theorem takeByte_error (i : Fin 16) (s : State) : (takeByte i s).2.error = s.error := rfl
@[simp] theorem takeByte_rngOutLo (i : Fin 16) (s : State) : (takeByte i s).2.rngOutLo = s.rngOutLo := rfl
@[simp] theorem takeByte_rngOutHi (i : Fin 16) (s : State) : (takeByte i s).2.rngOutHi = s.rngOutHi := rfl
@[simp] theorem takeByte_nsHave (i : Fin 16) (s : State) : (takeByte i s).2.nsHave = s.nsHave := rfl
@[simp] theorem takeByte_nsFirst (i : Fin 16) (s : State) : (takeByte i s).2.nsFirst = s.nsFirst := rfl
@[simp] theorem takeByte_shift (i : Fin 16) (s : State) : (takeByte i s).2.shift = s.shift := rfl
@[simp] theorem takeByte_bitcnt (i : Fin 16) (s : State) : (takeByte i s).2.bitcnt = s.bitcnt := rfl
@[simp] theorem takeByte_byteptr (i : Fin 16) (s : State) : (takeByte i s).2.byteptr = s.byteptr := rfl
@[simp] theorem takeByte_op (i : Fin 16) (s : State) : (takeByte i s).2.op = s.op := rfl
@[simp] theorem takeByte_rstN (i : Fin 16) (s : State) : (takeByte i s).2.rstN = s.rstN := rfl
@[simp] theorem takeByte_host (i : Fin 16) (s : State) : (takeByte i s).2.host = s.host := rfl
@[simp] theorem takeByte_agenda (i : Fin 16) (s : State) : (takeByte i s).2.agenda = s.agenda := rfl
@[simp] theorem takeByte_pool (i : Fin 16) (s : State) : (takeByte i s).2.pool = s.pool := rfl
@[simp] theorem takeByte_work (i : Fin 16) (s : State) : (takeByte i s).2.work = s.work := rfl
@[simp] theorem takeByte_freeNext (i : Fin 16) (s : State) : (takeByte i s).2.freeNext = s.freeNext := rfl
@[simp] theorem takeByte_freeWorkNext (i : Fin 16) (s : State) : (takeByte i s).2.freeWorkNext = s.freeWorkNext := rfl
@[simp] theorem rngDrawWith_key (k : Block) (s : State) : (rngDrawWith k s).2.key = s.key := by
  rcases rngDrawWith_cases k s with ⟨i, h⟩ | h <;> rw [h] <;> simp
@[simp] theorem rngDrawWith_data (k : Block) (s : State) : (rngDrawWith k s).2.data = s.data := by
  rcases rngDrawWith_cases k s with ⟨i, h⟩ | h <;> rw [h] <;> simp
@[simp] theorem rngDrawWith_done (k : Block) (s : State) : (rngDrawWith k s).2.done = s.done := by
  rcases rngDrawWith_cases k s with ⟨i, h⟩ | h <;> rw [h] <;> simp
@[simp] theorem rngDrawWith_seeded (k : Block) (s : State) : (rngDrawWith k s).2.seeded = s.seeded := by
  rcases rngDrawWith_cases k s with ⟨i, h⟩ | h <;> rw [h] <;> simp
@[simp] theorem rngDrawWith_error (k : Block) (s : State) : (rngDrawWith k s).2.error = s.error := by
  rcases rngDrawWith_cases k s with ⟨i, h⟩ | h <;> rw [h] <;> simp
@[simp] theorem rngDrawWith_rngOutLo (k : Block) (s : State) : (rngDrawWith k s).2.rngOutLo = s.rngOutLo := by
  rcases rngDrawWith_cases k s with ⟨i, h⟩ | h <;> rw [h] <;> simp
@[simp] theorem rngDrawWith_rngOutHi (k : Block) (s : State) : (rngDrawWith k s).2.rngOutHi = s.rngOutHi := by
  rcases rngDrawWith_cases k s with ⟨i, h⟩ | h <;> rw [h] <;> simp
@[simp] theorem rngDrawWith_nsHave (k : Block) (s : State) : (rngDrawWith k s).2.nsHave = s.nsHave := by
  rcases rngDrawWith_cases k s with ⟨i, h⟩ | h <;> rw [h] <;> simp
@[simp] theorem rngDrawWith_nsFirst (k : Block) (s : State) : (rngDrawWith k s).2.nsFirst = s.nsFirst := by
  rcases rngDrawWith_cases k s with ⟨i, h⟩ | h <;> rw [h] <;> simp
@[simp] theorem rngDrawWith_shift (k : Block) (s : State) : (rngDrawWith k s).2.shift = s.shift := by
  rcases rngDrawWith_cases k s with ⟨i, h⟩ | h <;> rw [h] <;> simp
@[simp] theorem rngDrawWith_bitcnt (k : Block) (s : State) : (rngDrawWith k s).2.bitcnt = s.bitcnt := by
  rcases rngDrawWith_cases k s with ⟨i, h⟩ | h <;> rw [h] <;> simp
@[simp] theorem rngDrawWith_byteptr (k : Block) (s : State) : (rngDrawWith k s).2.byteptr = s.byteptr := by
  rcases rngDrawWith_cases k s with ⟨i, h⟩ | h <;> rw [h] <;> simp
@[simp] theorem rngDrawWith_op (k : Block) (s : State) : (rngDrawWith k s).2.op = s.op := by
  rcases rngDrawWith_cases k s with ⟨i, h⟩ | h <;> rw [h] <;> simp
@[simp] theorem rngDrawWith_rstN (k : Block) (s : State) : (rngDrawWith k s).2.rstN = s.rstN := by
  rcases rngDrawWith_cases k s with ⟨i, h⟩ | h <;> rw [h] <;> simp
@[simp] theorem rngDrawWith_host (k : Block) (s : State) : (rngDrawWith k s).2.host = s.host := by
  rcases rngDrawWith_cases k s with ⟨i, h⟩ | h <;> rw [h] <;> simp
@[simp] theorem rngDrawWith_agenda (k : Block) (s : State) : (rngDrawWith k s).2.agenda = s.agenda := by
  rcases rngDrawWith_cases k s with ⟨i, h⟩ | h <;> rw [h] <;> simp

@[simp] theorem rngDrawWith_freeNext (k : Block) (s : State) : (rngDrawWith k s).2.freeNext = s.freeNext := by
  rcases rngDrawWith_cases k s with ⟨i, h⟩ | h <;> rw [h] <;> simp

/-- A draw inside the pool. -/
theorem rngDrawWith_of_lt (k : Block) {s : State} (i : Fin 16) (h : s.idx.val = i.val) :
    rngDrawWith k s = (s.pool[i], { s with idx := i.succ }) := by
  have hi : s.idx.val < 16 := by omega
  have he : (⟨s.idx.val, hi⟩ : Fin 16) = i := Fin.ext h
  simp only [rngDrawWith, hi, dite_true, takeByte, he]

/-- A draw from a used-up pool. -/
theorem rngDrawWith_of_used (k : Block) {s : State} (h : s.idx = 16) :
    rngDrawWith k s = ((aes128 k s.pool)[0], { rewhiten k s with idx := 1 }) := by
  have hi : ¬ s.idx.val < 16 := by rw [h]; decide
  simp only [rngDrawWith, hi, dite_false, takeByte]
  rfl

/-- A position is inside the pool, or the pool is used up. -/
theorem idx_cases (s : State) : (∃ i : Fin 16, s.idx.val = i.val) ∨ s.idx = 16 := by
  by_cases h : s.idx.val < 16
  · exact .inl ⟨⟨s.idx.val, h⟩, rfl⟩
  · exact .inr (Fin.ext (by have := s.idx.isLt; simp; omega))

/-! ### The seed -/

/-- What storing a byte does to the pointer and the command: it moves on, or the seed completes. -/
theorem storeByte_cases (v : Byte) (s : State) :
    (s.byteptr.val < 15 ∧ (storeByte v s).op = s.op ∧ (storeByte v s).seeded = s.seeded ∧
      (storeByte v s).done = s.done ∧ (storeByte v s).idx = s.idx ∧
      (storeByte v s).byteptr.val = s.byteptr.val + 1) ∨
    (15 ≤ s.byteptr.val ∧ (storeByte v s).op = .none ∧ (storeByte v s).seeded = true ∧
      (storeByte v s).done = true ∧ (storeByte v s).idx = 16) := by
  by_cases h : s.byteptr.val < 15
  · have h' : s.byteptr.val + 1 < 1 + Config.seedBytes := by simp only [Config.seedBytes]; omega
    exact .inl ⟨h, by simp [storeByte, h']⟩
  · have h' : ¬ s.byteptr.val + 1 < 1 + Config.seedBytes := by simp only [Config.seedBytes]; omega
    exact .inr ⟨by omega, by simp [storeByte, h', seedComplete, complete]⟩

/-- The first sample of a pair is held. -/
theorem consumeSample_of_first {s : State} (x : Byte) (h : s.nsHave = false) :
    consumeSample x s = { s with nsFirst := noiseBitOf x, nsHave := true } := by
  simp [consumeSample, h]

/-- An equal pair is discarded. -/
theorem consumeSample_of_equal {s : State} {x : Byte} (h : s.nsHave = true) (hb : noiseBitOf x = s.nsFirst) :
    consumeSample x s = { s with nsHave := false } := by
  simp [consumeSample, h, hb]

/-- A differing pair keeps the second sample's bit. -/
theorem consumeSample_of_differ {s : State} {x : Byte} (h : s.nsHave = true) (hb : noiseBitOf x ≠ s.nsFirst) :
    consumeSample x s = keepBit (noiseBitOf x) { s with nsHave := false } := by
  simp [consumeSample, h, hb]

/-- What consuming a sample does to a seed in flight: it goes on with the pointer in range, or it completes. -/
theorem consumeSample_cases (x : Byte) (s : State) :
    ((consumeSample x s).op = s.op ∧ (consumeSample x s).seeded = s.seeded ∧ (consumeSample x s).done = s.done ∧
      (consumeSample x s).idx = s.idx ∧
      ((consumeSample x s).byteptr.val = s.byteptr.val ∨
        (s.byteptr.val < 15 ∧ (consumeSample x s).byteptr.val = s.byteptr.val + 1))) ∨
    ((consumeSample x s).op = .none ∧ (consumeSample x s).seeded = true ∧ (consumeSample x s).done = true ∧
      (consumeSample x s).idx = 16) := by
  simp only [consumeSample]
  split
  · split
    · exact .inl ⟨rfl, rfl, rfl, rfl, .inl rfl⟩
    · simp only [keepBit]
      split
      · rcases storeByte_cases ((s.shift <<< 1) ||| bitByte (noiseBitOf x))
          { { s with nsHave := false } with shift := (s.shift <<< 1) ||| bitByte (noiseBitOf x) }
          with ⟨h, h1, h2, h3, h4, h5⟩ | ⟨_, h1, h2, h3, h4⟩
        · exact .inl ⟨h1, h2, h3, h4, .inr ⟨h, h5⟩⟩
        · exact .inr ⟨h1, h2, h3, h4⟩
      · exact .inl ⟨rfl, rfl, rfl, rfl, .inl rfl⟩
  · exact .inl ⟨rfl, rfl, rfl, rfl, .inl rfl⟩

/-- A sample outside a seed is ignored. -/
theorem offerSample_of_not_seeding {s : State} (x : Byte) (h : s.op ≠ .seed) : offerSample x s = s := by
  simp [offerSample, State.noiseReq, h]

theorem offerSample_of_seeding {s : State} (x : Byte) (hr : s.rstN = true) (h : s.op = .seed) :
    offerSample x s = consumeSample x s := by
  simp [offerSample, State.noiseReq, h, hr]

theorem offerSample_of_reset {s : State} (x : Byte) (hr : s.rstN = false) : offerSample x s = s := by
  simp [offerSample, State.noiseReq, hr]

end Sys2Proof.Machine
end

