-- ==== Sys2Proof/Laws/Bus.lean ====
section
/-!
SUPPORT. Sys2Proof/Laws/Bus.lean: what a command, a host write and a host transaction can do, said once.
-/

namespace Sys2Proof.Machine

/-- The effect a command has on an idle block. -/
def commandEffect : Instr → State → State
  | .nop => id
  | .enc => accept .enc
  | .rngSeed => accept .seed
  | .rngU8 => acceptDraw .u8
  | .rngU16 => acceptDraw .u16

/-- Every command answers a next state: its effect behind the guards. -/
theorem exec_eq (i : Instr) (s : State) : exec i s = .next (whenIdle (commandEffect i) s) := by
  cases i <;> rfl

/-- The ways a host write can end. -/
inductive WriteResult (off v : Byte) (s : State) : State → Prop where
  | unchanged : WriteResult off v s s
  | cleared : off = 0x02 → s.rstN = true → WriteResult off v s (clearErrors v s)
  | rejectedBusy : (off = 0x00 ∨ (∃ i, off = keyOffset i) ∨ ∃ i, off = dataOffset i) → s.inFlight →
      WriteResult off v s (raise .busy s)
  | rejectedIllegal : off = 0x00 → s.ready → decode v = .illegal → WriteResult off v s (raise .illegal s)
  | rejectedUnseeded : off = 0x00 → s.ready → s.seeded = false →
      (decode v = .command .rngU8 ∨ decode v = .command .rngU16) → WriteResult off v s (raise .unseeded s)
  | accepted (op : Op) : off = 0x00 → s.ready → op ≠ .none → (op = .u8 ∨ op = .u16 → s.seeded = true) →
      WriteResult off v s (accept op s)
  | key (i : Fin 16) : off = keyOffset i → s.ready → WriteResult off v s (setKey i v s)
  | data (i : Fin 16) : off = dataOffset i → s.ready → WriteResult off v s (setData i v s)

theorem commandWrite_result (v : Byte) (s : State) :
    ∃ t, commandWrite v s = .next t ∧ WriteResult 0x00 v s t := by
  have key : ∀ k : State → State, commandWrite v s = .next (whenIdle k s) →
      (s.ready → WriteResult 0x00 v s (k s)) → ∃ t, commandWrite v s = .next t ∧ WriteResult 0x00 v s t := by
    intro k hk hr
    rcases whenIdle_cases k s with ⟨_, h⟩ | ⟨h1, h2, h⟩ | ⟨h1, h2, h⟩
    · exact ⟨s, by rw [hk, h], .unchanged⟩
    · exact ⟨_, hk, h ▸ .rejectedBusy (.inl rfl) ⟨h1, h2⟩⟩
    · exact ⟨_, hk, h ▸ hr ⟨h1, h2⟩⟩
  cases hd : decode v with
  | illegal => exact key (raise .illegal) (by simp [commandWrite, hd, illegalCommand]) fun h => .rejectedIllegal rfl h hd
  | command i =>
    refine key (commandEffect i) (by simp [commandWrite, hd, exec_eq]) fun h => ?_
    have draw : ∀ op : Op, op = .u8 ∨ op = .u16 → (decode v = .command .rngU8 ∨ decode v = .command .rngU16) →
        WriteResult 0x00 v s (acceptDraw op s) := by
      intro op hop hv
      cases hs : s.seeded with
      | true => exact acceptDraw_of_seeded op hs ▸ .accepted op rfl h (by rcases hop with rfl | rfl <;> simp) fun _ => hs
      | false => exact acceptDraw_of_unseeded op hs ▸ .rejectedUnseeded rfl h hs hv
    cases i with
    | nop => exact .unchanged
    | enc => exact .accepted .enc rfl h (by simp) (by simp)
    | rngSeed => exact .accepted .seed rfl h (by simp) (by simp)
    | rngU8 => exact draw .u8 (.inl rfl) (.inl hd)
    | rngU16 => exact draw .u16 (.inr rfl) (.inr hd)

/-- A host write always answers a next state, in one of the ways of `WriteResult`. -/
theorem hostWrite_result (off v : Byte) (s : State) :
    ∃ t, hostWrite off v s = .next t ∧ WriteResult off v s t := by
  unfold hostWrite
  cases hw : windowReg off with
  | cmd =>
    have h0 := (windowReg_cmd_iff off).1 hw
    subst h0
    exact commandWrite_result v s
  | status => exact ⟨s, rfl, .unchanged⟩
  | rngOutLo => exact ⟨s, rfl, .unchanged⟩
  | rngOutHi => exact ⟨s, rfl, .unchanged⟩
  | reserved => exact ⟨s, rfl, .unchanged⟩
  | error =>
    refine ⟨_, rfl, ?_⟩
    rcases whenRunning_cases (clearErrors v) s with ⟨_, h⟩ | ⟨hr, h⟩
    · rw [h]; exact .unchanged
    · exact h ▸ .cleared ((windowReg_error_iff off).1 hw) hr
  | key i =>
    refine ⟨_, rfl, ?_⟩
    have ho := windowReg_key hw
    rcases whenIdle_cases (setKey i v) s with ⟨_, h⟩ | ⟨h1, h2, h⟩ | ⟨h1, h2, h⟩
    · rw [h]; exact .unchanged
    · exact h ▸ .rejectedBusy (.inr (.inl ⟨i, ho⟩)) ⟨h1, h2⟩
    · exact h ▸ .key i ho ⟨h1, h2⟩
  | data i =>
    refine ⟨_, rfl, ?_⟩
    have ho := windowReg_data hw
    rcases whenIdle_cases (setData i v) s with ⟨_, h⟩ | ⟨h1, h2, h⟩ | ⟨h1, h2, h⟩
    · rw [h]; exact .unchanged
    · exact h ▸ .rejectedBusy (.inr (.inr ⟨i, ho⟩)) ⟨h1, h2⟩
    · exact h ▸ .data i ho ⟨h1, h2⟩

theorem writeResult_of_hostWrite {off v : Byte} {s t : State} (h : hostWrite off v s = .next t) :
    WriteResult off v s t := by
  obtain ⟨t', ht, hr⟩ := hostWrite_result off v s
  rw [h] at ht
  cases ht
  exact hr

/-- The host's own fields apart, a read changes nothing; its program is as before or has the POLL put back. -/
theorem pollOnce_cases (off mask val : Byte) (s : State) :
    (hostRead off s &&& mask = val ∧ pollOnce off mask val s = readToHost off s) ∨
    (hostRead off s &&& mask ≠ val ∧
      pollOnce off mask val s = setProg (.poll off mask val :: s.host.prog) (readToHost off s)) := by
  unfold pollOnce
  by_cases h : hostRead off s &&& mask = val
  · exact .inl ⟨h, by simp [h]⟩
  · exact .inr ⟨h, by simp [h]⟩

/-- The ways a transaction can end in a next state: the host has read (and its program may have a POLL put back), or
it has written. -/
theorem transaction_cases {b : BusOp} {s t : State} (h : transaction b s = .next t) :
    (∃ p v, t = { s with host := ⟨p, s.host.reads ++ [v]⟩ }) ∨
    (∃ off v, (b = .wr off v ∨ ∃ addr, b = .memWrite addr [v] ∧ windowOffset addr = some off) ∧
      hostWrite off v s = .next t) := by
  cases b with
  | wr off v => exact .inr ⟨off, v, .inl rfl, h⟩
  | rd off =>
    simp only [transaction, Host.Outcome.next.injEq] at h
    exact .inl ⟨s.host.prog, hostRead off s, h ▸ rfl⟩
  | poll off mask val =>
    simp only [transaction, Host.Outcome.next.injEq] at h
    rcases pollOnce_cases off mask val s with ⟨_, hp⟩ | ⟨_, hp⟩
    · exact .inl ⟨s.host.prog, hostRead off s, by rw [← h, hp]; rfl⟩
    · exact .inl ⟨.poll off mask val :: s.host.prog, hostRead off s, by rw [← h, hp]; rfl⟩
  | memRead addr width =>
    simp only [transaction] at h
    split at h
    · cases hw : windowOffset addr with
      | none => simp [hw] at h
      | some off =>
        simp only [hw, Host.Outcome.next.injEq] at h
        exact .inl ⟨s.host.prog, hostRead off s, h ▸ rfl⟩
    · cases h
  | memWrite addr bytes =>
    match bytes, h with
    | [v], h =>
      simp only [transaction] at h
      cases hw : windowOffset addr with
      | none => simp [hw] at h
      | some off => exact .inr ⟨off, v, .inr ⟨addr, rfl, hw⟩, by simpa [hw] using h⟩
    | [], h => cases h
    | _ :: _ :: _, h => cases h

end Sys2Proof.Machine
end

