-- ==== Sys2Proof/Laws/PerInstr.lean ====
section
/-!
SUPPORT. Sys2Proof/Laws/PerInstr.lean: the statements made per instruction, about the instruction as syntax.
-/

/-- UNIT is 0x0 for the cipher unit's commands and 0x1 for the randomness unit's (spec/30_encoding.md R80, R82). -/
def Sys2Proof.Laws.UnitField.Statement (i : Sys2Proof.Instr) : Prop :=
  Sys2Proof.unitField (Sys2Proof.encode i) =
    if i = .nop ∨ i = .enc then 0x0 else 0x1

theorem Sys2Proof.Laws.UnitField.nop : Sys2Proof.Laws.UnitField.Statement .nop := by
  unfold Sys2Proof.Laws.UnitField.Statement; decide

theorem Sys2Proof.Laws.UnitField.enc : Sys2Proof.Laws.UnitField.Statement .enc := by
  unfold Sys2Proof.Laws.UnitField.Statement; decide

theorem Sys2Proof.Laws.UnitField.rngSeed : Sys2Proof.Laws.UnitField.Statement .rngSeed := by
  unfold Sys2Proof.Laws.UnitField.Statement; decide

theorem Sys2Proof.Laws.UnitField.rngU8 : Sys2Proof.Laws.UnitField.Statement .rngU8 := by
  unfold Sys2Proof.Laws.UnitField.Statement; decide

theorem Sys2Proof.Laws.UnitField.rngU16 : Sys2Proof.Laws.UnitField.Statement .rngU16 := by
  unfold Sys2Proof.Laws.UnitField.Statement; decide
end

