-- ==== Sys2Proof/Laws/Step.lean ====
section
/-!
SUPPORT. Sys2Proof/Laws/Step.lean: one step, said once: the event it performs, and every way it can end.
-/

namespace Sys2Proof.Machine

/-- The state a step's event is performed on: the event taken off the agenda, or a free value used. -/
def State.popped (s : State) : State :=
  match s.agenda with
  | _ :: rest => setAgenda rest s
  | [] => { s with freeNext := s.freeNext + 1 }

theorem step_eq (s : State) : step s = perform s.nextEvent s.popped := by
  unfold step State.nextEvent State.popped
  cases s.agenda <;> rfl

/-- Taking the event changes nothing but the agenda and the free index. -/
theorem popped_eq (s : State) :
    s.popped = { s with agenda := s.popped.agenda, freeNext := s.popped.freeNext } := by
  unfold State.popped
  cases s.agenda <;> rfl

@[simp] theorem popped_key (s : State) : s.popped.key = s.key := by rw [popped_eq]
@[simp] theorem popped_data (s : State) : s.popped.data = s.data := by rw [popped_eq]
@[simp] theorem popped_done (s : State) : s.popped.done = s.done := by rw [popped_eq]
@[simp] theorem popped_seeded (s : State) : s.popped.seeded = s.seeded := by rw [popped_eq]
@[simp] theorem popped_error (s : State) : s.popped.error = s.error := by rw [popped_eq]
@[simp] theorem popped_rngOutLo (s : State) : s.popped.rngOutLo = s.rngOutLo := by rw [popped_eq]
@[simp] theorem popped_rngOutHi (s : State) : s.popped.rngOutHi = s.rngOutHi := by rw [popped_eq]
@[simp] theorem popped_pool (s : State) : s.popped.pool = s.pool := by rw [popped_eq]
@[simp] theorem popped_idx (s : State) : s.popped.idx = s.idx := by rw [popped_eq]
@[simp] theorem popped_nsHave (s : State) : s.popped.nsHave = s.nsHave := by rw [popped_eq]
@[simp] theorem popped_nsFirst (s : State) : s.popped.nsFirst = s.nsFirst := by rw [popped_eq]
@[simp] theorem popped_shift (s : State) : s.popped.shift = s.shift := by rw [popped_eq]
@[simp] theorem popped_bitcnt (s : State) : s.popped.bitcnt = s.bitcnt := by rw [popped_eq]
@[simp] theorem popped_byteptr (s : State) : s.popped.byteptr = s.byteptr := by rw [popped_eq]
@[simp] theorem popped_op (s : State) : s.popped.op = s.op := by rw [popped_eq]
@[simp] theorem popped_work (s : State) : s.popped.work = s.work := by rw [popped_eq]
@[simp] theorem popped_rstN (s : State) : s.popped.rstN = s.rstN := by rw [popped_eq]
@[simp] theorem popped_host (s : State) : s.popped.host = s.host := by rw [popped_eq]

theorem popped_of_cons {s : State} {e : Event} {rest : List Event} (h : s.agenda = e :: rest) :
    s.popped = setAgenda rest s := by
  simp [State.popped, h]

theorem nextEvent_of_cons {s : State} {e : Event} {rest : List Event} (h : s.agenda = e :: rest) :
    s.nextEvent = e := by
  simp [State.nextEvent, h]

/-- With an event on the agenda, the step performs it. -/
theorem step_of_cons {s : State} {e : Event} {rest : List Event} (h : s.agenda = e :: rest) :
    step s = perform e (setAgenda rest s) := by
  rw [step_eq, nextEvent_of_cons h, popped_of_cons h]

/-- Without an agenda the environment never chooses a reset. -/
theorem freeEvent_cases (n : Nat) :
    freeEvent n = .host ∨ freeEvent n = .engine ∨ freeEvent n = .sample (Config.freeSample n) := by
  unfold freeEvent
  split
  · exact .inr (.inl rfl)
  · cases Config.freeAgent n <;> simp

theorem freeEvent_ordinary (n : Nat) : (freeEvent n).isOrdinary = true := by
  rcases freeEvent_cases n with h | h | h <;> rw [h] <;> rfl

/-- A gap runs down by one a step. -/
theorem freeTurn_countdown (n r : Nat) (h : (freeTurn n).2 = r) : (freeTurn (n + r)).2 = 0 := by
  induction r generalizing n with
  | zero => exact h
  | succ r ih =>
    have hs : (freeTurn (n + 1)).2 = r := by
      cases hn : freeTurn n with
      | mk k q =>
        obtain rfl : q = r + 1 := by simpa [hn] using h
        simp [freeTurn, hn]
    rw [show n + (r + 1) = (n + 1) + r by omega]
    exact ih (n + 1) hs

/-- The fairness of R11: where no agenda says so, the engine moves again after every step. -/
theorem freeEvent_engine_again (n : Nat) : ∃ m, n ≤ m ∧ freeEvent m = .engine := by
  refine ⟨n + (freeTurn n).2, by omega, ?_⟩
  unfold freeEvent
  rw [freeTurn_countdown n _ rfl]

/-- `step` with a program to run steps through `run`. -/
theorem run_succ_of_next {s t : State} (k : Nat) (h : step s = .next t) : run (k + 1) s = run k t := by
  simp [run, h]

/-! ### The environment's events -/

/-- In every run, whatever its agenda, the engine moves again after every step (R11). -/
theorem eventAt_engine_again (s : State) (n : Nat) : ∃ m, n ≤ m ∧ s.eventAt m = .engine := by
  obtain ⟨m, hm, he⟩ := freeEvent_engine_again (s.freeNext + n)
  refine ⟨m - s.freeNext + s.agenda.length, by omega, ?_⟩
  rw [State.eventAt, List.getElem?_eq_none (by omega)]
  simpa [show s.freeNext + (m - s.freeNext) = m by omega] using he

/-- An agenda of ordinary events is followed by ordinary events. -/
theorem eventAt_ordinary {s : State} (h : ∀ e ∈ s.agenda, e.isOrdinary = true) (n : Nat) :
    (s.eventAt n).isOrdinary = true := by
  unfold State.eventAt
  split
  · exact h _ (List.mem_of_getElem? ‹_›)
  · exact freeEvent_ordinary _

@[simp] theorem eventAt_zero (s : State) : s.eventAt 0 = s.nextEvent := by
  unfold State.eventAt State.nextEvent
  cases s.agenda <;> simp

@[simp] theorem eventAt_popped (s : State) (n : Nat) : s.popped.eventAt n = s.eventAt (n + 1) := by
  unfold State.popped State.eventAt
  cases h : s.agenda with
  | nil => simp; congr 1; omega
  | cons e rest => simp [setAgenda]

theorem eventsUpTo_succ (s : State) (n : Nat) : s.eventsUpTo (n + 1) = s.nextEvent :: s.popped.eventsUpTo n := by
  simp [State.eventsUpTo, List.range_succ_eq_map, List.map_map, Function.comp_def]

/-- As long as the agenda lasts, the events are the agenda. -/
theorem eventsUpTo_agenda {s : State} {n : Nat} (h : s.agenda.length = n) : s.eventsUpTo n = s.agenda := by
  subst h
  refine List.ext_getElem (by simp [State.eventsUpTo]) fun i h1 h2 => ?_
  simp [State.eventsUpTo, State.eventAt, List.getElem?_eq_getElem h2]

@[simp] theorem seedBits_eq : seedBits = 120 := rfl

/-- The noise source that delivers again and again delivers enough (C6, R11). -/
theorem noiseDelivers_of_fair {s : State} (h : s.noiseFair) : s.noiseDelivers := by
  obtain ⟨m, hm⟩ := h 0 seedBits
  exact ⟨m, by simpa [State.bitsKeptBy, State.eventsUpTo, List.range_eq_range'] using hm⟩

/-- What the engine's step can do. -/
theorem engineStep_cases (s : State) :
    engineStep s = s ∨ (s.rstN = true ∧ s.op = .enc ∧ engineStep s = encComplete s) ∨
    (s.rstN = true ∧ s.op = .u8 ∧ engineStep s = u8Complete s) ∨
    (s.rstN = true ∧ s.op = .u16 ∧ engineStep s = u16Complete s) := by
  rcases whenRunning_cases completion s with ⟨_, h⟩ | ⟨hr, h⟩
  · exact .inl h
  · rw [engineStep, h, completion]
    cases s.op
    · exact .inl rfl
    · exact .inr (.inl ⟨hr, rfl, rfl⟩)
    · exact .inl rfl
    · exact .inr (.inr (.inl ⟨hr, rfl, rfl⟩))
    · exact .inr (.inr (.inr ⟨hr, rfl, rfl⟩))

theorem engineStep_environment (s : State) :
    (engineStep s).agenda = s.agenda ∧ (engineStep s).freeNext = s.freeNext := by
  rcases engineStep_cases s with h | ⟨_, _, h⟩ | ⟨_, _, h⟩ | ⟨_, _, h⟩ <;> rw [h]
  · exact ⟨rfl, rfl⟩
  · exact ⟨rfl, rfl⟩
  · simp [u8Complete, u8CompleteWith]
  · simp [u16Complete, u16CompleteWith]

theorem writeResult_environment {off v : Byte} {s t : State} (h : WriteResult off v s t) :
    t.agenda = s.agenda ∧ t.freeNext = s.freeNext := by
  cases h <;> simp

/-- Every way a step can end in a next state. -/
theorem step_cases {s t : State} (h : step s = .next t) :
    (s.nextEvent = .host ∧ ((s.host.prog = [] ∧ t = s.popped) ∨
      (∃ p v, t = { s.popped with host := ⟨p, s.host.reads ++ [v]⟩ }) ∨
      ∃ off v p, s.nextWrite = some (off, v) ∧ WriteResult off v (setProg p s.popped) t)) ∨
    (s.nextEvent = .engine ∧ t = engineStep s.popped) ∨
    (∃ x, s.nextEvent = .sample x ∧ t = offerSample x s.popped) ∨
    (∃ level, s.nextEvent = .resetPin level ∧ t = setResetPin level s.popped) := by
  rw [step_eq] at h
  have hh : s.popped.host = s.host := by rw [popped_eq]
  cases he : s.nextEvent with
  | host =>
    refine .inl ⟨rfl, ?_⟩
    simp only [he, perform, hostStep, hh] at h
    cases hp : s.host.prog with
    | nil =>
      rw [hp] at h
      exact .inl ⟨rfl, by cases h; rfl⟩
    | cons b rest =>
      rw [hp] at h
      rcases transaction_cases h with ⟨p, v, rfl⟩ | ⟨off, v, hb, hw⟩
      · exact .inr (.inl ⟨p, v, by simp [setProg]⟩)
      · refine .inr (.inr ⟨off, v, rest, ?_, writeResult_of_hostWrite hw⟩)
        rcases hb with rfl | ⟨addr, rfl, ha⟩
        · simp [State.nextWrite, he, hp]
        · simp [State.nextWrite, he, hp, ha]
  | engine =>
    simp only [he, perform, Host.Outcome.next.injEq] at h
    exact .inr (.inl ⟨rfl, h.symm⟩)
  | sample x =>
    simp only [he, perform, Host.Outcome.next.injEq] at h
    exact .inr (.inr (.inl ⟨x, rfl, h.symm⟩))
  | resetPin level =>
    simp only [he, perform, Host.Outcome.next.injEq] at h
    exact .inr (.inr (.inr ⟨level, rfl, h.symm⟩))
  | secondHost =>
    simp [he, perform] at h

/-- No event changes what the environment does next: a step takes one event off, and that is all. -/
theorem step_environment {s t : State} (h : step s = .next t) :
    t.agenda = s.popped.agenda ∧ t.freeNext = s.popped.freeNext := by
  rcases step_cases h with ⟨_, ⟨_, rfl⟩ | ⟨p, v, rfl⟩ | ⟨off, v, p, _, hw⟩⟩ | ⟨_, rfl⟩ | ⟨x, _, rfl⟩ |
    ⟨level, _, rfl⟩
  · exact ⟨rfl, rfl⟩
  · exact ⟨rfl, rfl⟩
  · simpa using writeResult_environment hw
  · exact engineStep_environment _
  · simp
  · cases level <;> exact ⟨rfl, rfl⟩

/-- The events of a run are fixed by its first state: step `n` of the next state is step `n + 1` of this one. -/
theorem eventAt_of_step {s t : State} (h : step s = .next t) (n : Nat) : t.eventAt n = s.eventAt (n + 1) := by
  obtain ⟨ha, hf⟩ := step_environment h
  rw [← eventAt_popped]
  simp [State.eventAt, ha, hf]

end Sys2Proof.Machine
end

