-- ==== Sys2Proof/Tests/Slice0.lean ====
section
/-!
SUPPORT. Sys2Proof/Tests/Slice0.lean: small tests of one step or one operation, every expected value taken from the
spec (the vector's name of spec/95_test_vectors.md, or the rule, is in each comment), and for every statement with
hypotheses a named witness that meets them.
-/

-- The kernel evaluations below run one after the other: in parallel their threads' stacks meet the memory limit.
set_option Elab.async false

namespace Sys2Proof.Tests

open Sys2Proof Sys2Proof.Machine

/-! ## Helpers -/

/-- The next state, or the reset state where the machine stopped. -/
def after (o : Host.Outcome State Fault Refusal) : State :=
  match o with
  | .next s => s
  | .fault _ => State.reset
  | .refused _ => State.reset

/-- Out of reset, idle, seeded, DONE. -/
def seededIdle : State := { State.reset with done := true, seeded := true }

/-- An ENC in flight. -/
def encInFlight : State := { State.reset with op := .enc }

/-- A seed in flight, just accepted. -/
def seedInFlight : State := { State.reset with op := .seed }

/-- A draw in flight, in a pool at this position. -/
def drawInFlight (op : Op) (i : Fin 17) : State := { seededIdle with op := op, idx := i, done := false }

/-- The state with this event next. -/
def withEvent (e : Event) (s : State) : State := { s with agenda := e :: s.agenda }

/-- The state whose next step is the host's transaction. -/
def withHostOp (b : BusOp) (s : State) : State :=
  { s with agenda := .host :: s.agenda, host := { s.host with prog := b :: s.host.prog } }

def keyC1 : Block := hexBlock 0x000102030405060708090a0b0c0d0e0f
def keyB : Block := hexBlock 0x2b7e151628aed2a6abf7158809cf4f3c

/-! ## Well-formedness: each check refuses an ill-formed term -/

theorem test_wf_refuses_wide_read (a : Nat) : (BusOp.memRead a 2).wf = false := rfl
theorem test_wf_refuses_wide_write (a : Nat) : (BusOp.memWrite a [0x01, 0x02]).wf = false := rfl
theorem test_wf_refuses_empty_write (a : Nat) : (BusOp.memWrite a []).wf = false := rfl
theorem test_wf_refuses_read_after_window : (BusOp.memRead (Config.windowBase + 256) 1).wf = false := by
  simp [BusOp.wf, inWindow, Config.windowBytes]
theorem test_wf_refuses_write_after_window : (BusOp.memWrite (Config.windowBase + 256) [0x00]).wf = false := by
  simp [BusOp.wf, inWindow, Config.windowBytes]
theorem test_wf_accepts_last_offset : (BusOp.memRead (Config.windowBase + 255) 1).wf = true := by
  simp [BusOp.wf, inWindow, Config.windowBytes]
theorem test_wf_commands : Instr.nop.wf ∧ Instr.enc.wf ∧ Instr.rngSeed.wf ∧ Instr.rngU8.wf ∧ Instr.rngU16.wf := by
  decide

/-! ## Decoding: bytes written out from R82 -/

theorem test_decode_nop : decode 0b00000000#8 = .command .nop := by decide
theorem test_decode_enc : decode 0b00000001#8 = .command .enc := by decide
theorem test_decode_rngSeed : decode 0b00010000#8 = .command .rngSeed := by decide
theorem test_decode_rngU8 : decode 0b00010001#8 = .command .rngU8 := by decide
theorem test_decode_rngU16 : decode 0b00010010#8 = .command .rngU16 := by decide
/-- V-ENC-DEC: 0x02, 0x0F, 0x13, 0x20 and 0xFF are illegal. -/
theorem test_decode_illegal : [0x02#8, 0x0F#8, 0x13#8, 0x20#8, 0xFF#8].map decode =
    [.illegal, .illegal, .illegal, .illegal, .illegal] := by decide
theorem test_decodeTableWord : decodeTableWord 8 0x12 = some .rngU16 ∧ decodeTableWord 8 0x13 = none ∧
    decodeTableWord 16 0x01 = none := by decide
theorem test_withFetchWord_runs_enc : (after (step (State.reset.withFetchWord 8 0x01))).op = .enc := by decide

/-! ## The cipher -/

/-- V-AES-GF. -/
theorem test_gf : xtime 0x57 = 0xAE ∧ xtime 0x80 = 0x1B ∧ gmul 0x57 0x13 = 0xFE ∧ gmul 0x57 0x83 = 0xC1 := by
  decide +kernel
/-- V-AES-SBOX. -/
theorem test_sbox : [0x00#8, 0x01#8, 0x10#8, 0x53#8, 0x7F#8, 0x80#8, 0xFF#8].map sbox =
    [0x63#8, 0x7C#8, 0xCA#8, 0xED#8, 0xD2#8, 0xCD#8, 0x16#8] := by decide +kernel
/-- R107's example. -/
theorem test_shiftRows : shiftRows keyC1 = hexBlock 0x00050a0f04090e03080d02070c01060b := by decide +kernel
/-- V-AES-MC. -/
theorem test_mixColumn : mixColumn 0xdb 0x13 0x53 0x45 = #v[0x8e, 0x4d, 0xa1, 0xbc] ∧
    mixColumn 0xd4 0xd4 0xd4 0xd5 = #v[0xd5, 0xd5, 0xd7, 0xd6] := by decide +kernel
/-- V-AES-KS, round keys 1 and 2. -/
theorem test_nextRoundKey : nextRoundKey keyB 1 = hexBlock 0xa0fafe1788542cb123a339392a6c7605 ∧
    nextRoundKey (hexBlock 0xa0fafe1788542cb123a339392a6c7605) 2 = hexBlock 0xf2c295f27a96b9435935807a7359f67f := by
  decide +kernel
/-- V-AES-ROUNDS, round 1. -/
theorem test_cipherRound : (cipherRound (cipherStart keyC1 (hexBlock 0x00112233445566778899aabbccddeeff))).s =
    hexBlock 0x89d810e8855ace682d1843d8cb128fe4 := by decide +kernel
/-- V-PUB-1 (FIPS-197 App. C.1). -/
theorem test_aes128_c1 : aes128 keyC1 (hexBlock 0x00112233445566778899aabbccddeeff) =
    hexBlock 0x69c4e0d86a7b0430d8cdb78070b4c55a := by decide +kernel
/-- V-PUB-2 (FIPS-197 App. B). -/
theorem test_aes128_b : aes128 keyB (hexBlock 0x3243f6a8885a308d313198a2e0370734) =
    hexBlock 0x3925841d02dc09fbdc118597196a0b32 := by decide +kernel

/-! ## NOP and ENC -/

/-- V-CIPH-6 and the example of R140. -/
theorem test_nop_keeps_status : (after (exec .nop seededIdle)).statusByte = 0x06 ∧
    (after (exec .nop seededIdle)).error = 0x00 := by decide
theorem test_nop_while_busy : (after (exec .nop encInFlight)).error = 0x01 ∧
    (after (exec .nop encInFlight)).op = .enc := by decide
/-- V-CIPH-1: STATUS reads 0x01 while the ENC is in flight, and DATA reads 0x00. -/
theorem test_enc_accepted : (after (exec .enc State.reset)).statusByte = 0x01 ∧
    hostRead 0x20 (after (exec .enc { State.reset with data := keyB })) = 0x00 := by decide
/-- V-CIPH-1: the completion. -/
theorem test_enc_completion : (encComplete { encInFlight with
      key := keyC1, data := hexBlock 0x00112233445566778899aabbccddeeff }).data =
        hexBlock 0x69c4e0d86a7b0430d8cdb78070b4c55a ∧ (encComplete encInFlight).statusByte = 0x02 := by decide +kernel

/-! ## The randomness unit -/

/-- V-ENC-DEC-SEEDED: RNG_SEED clears SEEDED at acceptance. -/
theorem test_rngSeed_accepted : (after (exec .rngSeed seededIdle)).statusByte = 0x01 := by decide
/-- R165: the fifteenth byte completes the seed. -/
theorem test_seed_completion : (consumeSample 0x01 { seedInFlight with
      nsHave := true, bitcnt := 7, byteptr := 15 }).statusByte = 0x06 := by decide
/-- V-RNG-PAIR: 0xFE, 0x03 keep 1; 0x01, 0x00 keep 0. -/
theorem test_pair : (consumeSample 0x03 (consumeSample 0xFE seedInFlight)).shift = 0x01 ∧
    (consumeSample 0x00 (consumeSample 0x01 { seedInFlight with shift := 0x01, bitcnt := 1 })).shift = 0x02 := by
  decide
/-- V-ENC-DEC-SEEDED and V-ENC-DEC: a draw with and without a seed. -/
theorem test_rngU8_accepted : (after (exec .rngU8 seededIdle)).statusByte = 0x05 ∧
    (after (exec .rngU8 State.reset)).error = 0x04 := by decide
theorem test_rngU16_accepted : (after (exec .rngU16 seededIdle)).statusByte = 0x05 ∧
    (after (exec .rngU16 State.reset)).error = 0x04 := by decide
/-- V-RNG-DRAW-1: the first draw after the seed, under RNG_KEY = 0^16. -/
theorem test_rngU8_draw : (u8CompleteWith zeroBlock { drawInFlight .u8 16 with pool := keyC1 }).rngOutLo = 0x7A ∧
    (u8CompleteWith zeroBlock { drawInFlight .u8 16 with pool := keyC1 }).idx = 1 := by decide +kernel
/-- V-RNG-DRAW-4: the high byte from the old pool, the low byte from the re-whitened one. -/
theorem test_rngU16_draw :
    let t := u16CompleteWith zeroBlock
      { drawInFlight .u16 15 with pool := hexBlock 0x7aca0fd9bcd6ec7c9f97466616e6a282 }
    t.rngOutHi = 0x82 ∧ t.rngOutLo = 0x66 ∧ t.idx = 1 := by decide +kernel

/-! ## Errors and the window -/

/-- P5, steps 2 and 4: an illegal byte, then CLRERR 0x04. -/
theorem test_illegal_then_clear :
    (after (hostWrite 0x00 0x02 { State.reset with error := 0x04 })).error = 0x06 ∧
    (after (hostWrite 0x02 0x04 { State.reset with error := 0x06 })).error = 0x02 := by decide
/-- R231's example: `WR 0x20, 0xAA` while an ENC is in flight. -/
theorem test_busy_write_dropped : (after (hostWrite 0x20 0xAA encInFlight)).data = zeroBlock ∧
    (after (hostWrite 0x20 0xAA encInFlight)).error = 0x01 := by decide +kernel
/-- V-CIPH-5: KEY reads 0x00. -/
theorem test_key_reads_zero : hostRead 0x15 { State.reset with key := keyB } = 0x00 := by decide
/-- V-RNG-DRAW-2: RDRNG is little-endian. -/
theorem test_le16 : le16 0x0F 0xCA = 0xCA0F := by decide

/-! ## Host procedures, over the cipher alone -/

/-- V-MODE-CBC. -/
theorem test_cbcMac : cbcMac (pureEnc keyB)
    [hexBlock 0x6bc1bee22e409f96e93d7e117393172a, hexBlock 0xae2d8a571e03ac9c9eb76fac45af8e51] () =
      some (hexBlock 0xb148c17f309ee692287ae57cf12add49, ()) := by decide +kernel
/-- V-PUB-9: CMAC of the empty message. -/
theorem test_cmac_empty : cmac (pureEnc keyB) [] () = some (hexBlock 0xbb1d6929e95937287fa37d129b756746, ()) := by
  decide +kernel
/-- V-PUB-10: CMAC of a full block. -/
theorem test_cmac_full : cmac (pureEnc keyB) (hexBlock 0x6bc1bee22e409f96e93d7e117393172a).toList () =
    some (hexBlock 0x070a16b46b4d4144f79bdd9dd04a287c, ()) := by decide +kernel
/-- V-MODE-MIC. -/
theorem test_frameMic : frameMic (pureEnc keyB) ⟨false, 0x26011BDA, 1⟩
    [0x40, 0xda, 0x1b, 0x01, 0x26, 0x00, 0x01, 0x00, 0x01, 0xba, 0x96, 0xc8, 0xf0, 0xfc] () =
      some (#v[0xed, 0x38, 0x28, 0x04], ()) := by decide +kernel
/-- V-MODE-CTR: "hello". -/
theorem test_framePayload : framePayload (pureEnc keyC1) ⟨false, 0x26011BDA, 1⟩ [0x68, 0x65, 0x6c, 0x6c, 0x6f] () =
    some ([0xba, 0x96, 0xc8, 0xf0, 0xfc], ()) := by decide +kernel

/-- R206's A1 and B0, written out from the layout table. -/
theorem test_layouts : counterBlock ⟨false, 0x26011BDA, 1⟩ 1 = hexBlock 0x010000000000da1b0126010000000001 ∧
    micFirstBlock ⟨false, 0x26011BDA, 1⟩ 14 = hexBlock 0x490000000000da1b012601000000000e := by decide +kernel

/-! ## Witnesses: a concrete case that meets the hypotheses of each statement -/

theorem witness_ready : State.reset.ready ∧ seededIdle.ready := by simp [State.ready, State.reset, seededIdle]
theorem witness_inFlight : encInFlight.inFlight ∧ seedInFlight.inFlight := by
  simp [State.inFlight, State.reset, encInFlight, seedInFlight]
theorem witness_IllegalBytesOnlySetErrIllegal : decode 0x02#8 = .illegal ∧ decode 0xFF#8 = .illegal ∧
    State.reset.ready := ⟨by decide, by decide, witness_ready.1⟩
theorem witness_DecodeAndEncodeAgree : decode 0x12#8 = .command .rngU16 ∧
    (⟨0xFF, 0x12, .rngU16⟩ : OpcodeRow) ∈ opcodeRows ∧ (⟨0xFF, 0x12, .rngU16⟩ : OpcodeRow).covers 0x12 = true := by
  decide
theorem witness_StepRunsDecodedCommand : (withHostOp (.wr 0x00 0x01) State.reset).agenda = [.host] ∧
    decode 0x01#8 = .command .enc ∧ (withHostOp (.wr 0x00 0x01) State.reset).host.prog = [.wr 0x00 0x01] := by decide
theorem witness_StepRunsDecodedCommand_memWrite :
    (withHostOp (.memWrite Config.windowBase [0x01]) State.reset).agenda = [.host] ∧
    (withHostOp (.memWrite Config.windowBase [0x01]) State.reset).host.prog =
      [.memWrite Config.windowBase [0x01]] := ⟨rfl, rfl⟩
theorem witness_CommandDecoderDispatches_illegal : 0x02#8 ∉ [0x00#8, 0x01#8, 0x10#8, 0x11#8, 0x12#8] ∧
    0x13#8 ∉ [0x00#8, 0x01#8, 0x10#8, 0x11#8, 0x12#8] := by decide
theorem witness_EncCompletionEncryptsData : (withEvent .engine encInFlight).rstN = true ∧
    (withEvent .engine encInFlight).op = .enc ∧ (withEvent .engine encInFlight).agenda = [.engine] := by decide
theorem witness_RngU8DrawsOneByte : seededIdle.seeded = true ∧ State.reset.seeded = false ∧
    (withEvent .engine (drawInFlight .u8 0)).agenda = [.engine] ∧ (drawInFlight .u8 0).op = .u8 ∧
    (drawInFlight .u8 15).idx.val = (15 : Fin 16).val ∧ (drawInFlight .u8 16).idx = 16 := by decide
theorem witness_RngU16DrawsHighByteFirst : (withEvent .engine (drawInFlight .u16 0)).agenda = [.engine] ∧
    (drawInFlight .u16 0).op = .u16 ∧ (drawInFlight .u16 14).idx.val = (14 : Fin 15).val ∧
    (drawInFlight .u16 15).idx = 15 ∧ (drawInFlight .u16 16).idx = 16 := by decide
theorem witness_UnseededDrawIsRejected : State.reset.ready ∧ State.reset.seeded = false := ⟨witness_ready.1, rfl⟩
theorem witness_BusyWritesSetErrBusyOnly : 0x10 ≤ (0x10#8).toNat ∧ (0x2F#8).toNat ≤ 0x2F ∧
    ¬ (encInFlight.inFlight ∧ ((0x30#8) = 0x00 ∨ (0x10 ≤ (0x30#8).toNat ∧ (0x30#8).toNat ≤ 0x2F))) ∧
    ¬ (State.reset.inFlight ∧ ((0x00#8) = 0x00 ∨ (0x10 ≤ (0x00#8).toNat ∧ (0x00#8).toNat ≤ 0x2F))) ∧
    (∃ t, hostWrite 0x02 0x06 { encInFlight with error := 0x07 } = .next t ∧ t.errorSet .busy = true) :=
  ⟨by decide, by decide, by simp [State.inFlight], by simp [State.inFlight, State.reset], _, rfl, by decide⟩
theorem witness_CommandWriteErrorPriority : encInFlight.rstN = true ∧ encInFlight.op ≠ .none ∧
    State.reset.seeded = false := by decide
theorem witness_ErrorsComeFromRejectedWritesOnly : ∃ t, hostWrite 0x00 0x11 State.reset = .next t ∧
    State.reset.errorSet .unseeded = false ∧ t.errorSet .unseeded = true := ⟨_, rfl, by decide, by decide⟩
theorem witness_ErrorFlagIsSticky : ∃ t,
    step (withHostOp (.wr 0x02 0x01) { State.reset with error := 0x01 }) = .next t ∧
    (withHostOp (.wr 0x02 0x01) { State.reset with error := 0x01 }).errorSet .busy = true ∧
    t.errorSet .busy = false := ⟨_, rfl, by decide, by decide⟩
theorem witness_RejectedCommandKeepsDone : ∃ t, hostWrite 0x00 0x02 seededIdle = .next t ∧
    seededIdle.errorSet .illegal = false ∧ t.errorSet .illegal = true := ⟨_, rfl, by decide, by decide⟩
theorem witness_HostWriteStoresRegister : (0x0F#8) ≠ 0x00 ∧ (0x0F#8) ≠ 0x02 ∧ (0x0F#8).toNat < 0x10 ∧
    0x30 ≤ (0x30#8).toNat := by decide
theorem witness_ReservedOffsets : (0x06 ≤ (0x06#8).toNat ∧ (0x0F#8).toNat ≤ 0x0F) ∧ 0x30 ≤ (0xFF#8).toNat := by decide
theorem witness_OnlyOneByteAccesses : (2 : Nat) ≠ 1 ∧ ([0x01, 0x02] : List Byte).length ≠ 1 ∧
    inWindow (Config.windowBase + 256) = false := by simp [inWindow, Config.windowBytes]
theorem witness_KeyChangesOnlyByHostWrite : ∃ t, step (withHostOp (.wr 0x10 0x01) State.reset) = .next t ∧
    t.key ≠ State.reset.key := ⟨_, rfl, by decide⟩
theorem witness_DataChangesOnlyByHostWriteAndEnc : ∃ t, step (withHostOp (.wr 0x2F 0x01) State.reset) = .next t ∧
    t.data ≠ State.reset.data := ⟨_, rfl, by decide⟩
theorem witness_DrawResultChangesOnlyByDraws : ∃ t,
    step (withEvent .engine { drawInFlight .u8 0 with pool := keyB }) = .next t ∧ t.rngOutLo ≠ State.reset.rngOutLo :=
  ⟨_, rfl, by decide⟩
theorem witness_PoolChangesOnlyBySeedAndDraws : ∃ t, step (withEvent .engine (drawInFlight .u8 0)) = .next t ∧
    t.idx ≠ (drawInFlight .u8 0).idx := ⟨_, rfl, by decide⟩
theorem witness_CommandInFlightIsExclusive : ∃ t, step (withEvent .engine encInFlight) = .next t ∧
    encInFlight.op ≠ .none ∧ t.op ≠ encInFlight.op := ⟨_, rfl, by decide, by decide⟩
theorem witness_SamplesCountOnlyWhileSeeding : seedInFlight.rstN = true ∧ seedInFlight.op = .seed ∧
    encInFlight.op ≠ .seed := by decide
theorem witness_SamplePairKeepsSecondDifferingBit : seedInFlight.nsHave = false ∧
    (0x03#8).getLsbD 0 = (0x01#8).getLsbD 0 := by decide
theorem witness_EightKeptBitsStoreTheirByte : seedInFlight.shift = 0x00 ∧ seedInFlight.bitcnt = 0 ∧
    { seedInFlight with byteptr := 14 }.byteptr.val < 15 := by decide
theorem witness_SeedCompletesWithThe120thKeptBit :
    let s := { seedInFlight with agenda := [Event.sample 0x00, Event.sample 0x01] }
    s.rstN = true ∧ s.op = .seed ∧ s.nsHave = false ∧ s.shift = 0x00 ∧ s.bitcnt = 0 ∧ s.byteptr = 1 ∧
      s.agenda = [0x00, 0x01].map Event.sample := by decide
theorem witness_seed_of_120_kept_bits : (keptBits (List.replicate 120 [0x00#8, 0x01#8]).flatten).length = 120 := by
  decide +kernel
theorem witness_seed_of_119_kept_bits : (keptBits (List.replicate 119 [0x00#8, 0x01#8]).flatten).length = 119 := by
  decide +kernel
/-- Host transactions and engine moves between the samples: after 719 steps 119 bits are kept, and the next one brings the
120th. -/
def seedAmongTraffic : State :=
  { seedInFlight with
    agenda := (List.replicate 120 [.host, .sample 0x00, .engine, .host, .engine, .sample 0x01]).flatten
    host := ⟨[.wr 0x00 0x01, .poll 0x01 0x01 0x00], []⟩ }
theorem witness_SeedIgnoresHostTraffic : seedAmongTraffic.seedJustAccepted ∧
    (∀ e ∈ seedAmongTraffic.agenda, e.isOrdinary = true) ∧ (∀ b ∈ seedAmongTraffic.host.prog, b.wf = true) :=
  ⟨⟨rfl, rfl, rfl, rfl, rfl, rfl⟩, by decide +kernel, by decide⟩
theorem witness_SeedIgnoresHostTraffic_bits : (keptBits (samplesIn (seedAmongTraffic.agenda.take 719))).length = 119 ∧
    (keptBits (samplesIn (seedAmongTraffic.agenda.take 720))).length = 120 ∧ seedAmongTraffic.agenda.length = 720 := by
  decide +kernel
theorem witness_AcceptedCommandCompletes_noise : seedAmongTraffic.noiseDelivers :=
  ⟨720, by
    have h : seedAmongTraffic.eventsUpTo 720 = seedAmongTraffic.agenda :=
      eventsUpTo_agenda witness_SeedIgnoresHostTraffic_bits.2.2
    rw [State.bitsKeptBy, h]
    decide +kernel⟩
theorem witness_AcceptedCommandCompletes : encInFlight.rstN = true ∧ encInFlight.op = .enc ∧
    (drawInFlight .u8 16).rstN = true ∧ (drawInFlight .u16 15).op = .u16 ∧
    (∀ e ∈ encInFlight.agenda, e.isOrdinary = true) ∧ ∀ b ∈ encInFlight.host.prog, b.wf = true := by decide
theorem witness_StreamIsRepeatedWhitening : { seededIdle with pool := keyC1 }.idx = 16 := by decide
theorem witness_SboxIsAffineOfInverse : (0x53#8) ≠ 0x00 ∧ gmul 0x53 0xCA = 0x01 := by decide +kernel
theorem witness_RoundKeyFollowsFromPredecessor : 1 ≤ 9 := by decide
theorem witness_ResetGivesAndHoldsResetValues : (withEvent (.resetPin false) encInFlight).agenda = [.resetPin false] ∧
    { State.reset with rstN := false }.rstN = false ∧ { State.reset with rstN := false }.atResetValues ∧
    ∃ t, step (withHostOp (.wr 0x10 0x01) { State.reset with rstN := false }) = .next t :=
  ⟨rfl, rfl, by simp [State.atResetValues, State.reset], _, rfl⟩
theorem witness_ResetGivesAndHoldsResetValues_release :
    (withEvent (.resetPin true) { State.reset with rstN := false }).agenda = [.resetPin true] ∧
    (withEvent (.resetPin true) { State.reset with rstN := false }).atResetValues :=
  ⟨rfl, by simp [State.atResetValues, State.reset, withEvent]⟩
theorem witness_StepKeepsInvariant : State.reset.Inv ∧ ∃ t, step (withHostOp (.wr 0x00 0x01) State.reset) = .next t :=
  ⟨⟨by decide, by decide, by decide, by decide, by decide, by decide, by decide, by decide, nofun⟩, _, rfl⟩
theorem witness_LatencyDependsOnCommandAndIdxOnly : encInFlight.op = encInFlight.op ∧
    (drawInFlight .u8 16).rstN = true ∧ (drawInFlight .u8 16).op = .u8 ∧ (drawInFlight .u16 15).op = .u16 := by decide
theorem witness_ResultIgnoresTrafficInFlight :
    let s := { encInFlight with agenda := [.host, .sample 0x01, .engine], host := ⟨[.wr 0x20 0xAA], []⟩ }
    s.rstN = true ∧ s.op = .enc ∧ s.agenda = [Event.host, .sample 0x01] ++ .engine :: [] ∧
      (∀ e ∈ [Event.host, .sample 0x01], e.isTraffic = true) ∧ ∀ b ∈ s.host.prog, b.wf = true := by decide
theorem witness_ResultIgnoresTrafficInFlight_draws : (drawInFlight .u8 0).op = .u8 ∧ (drawInFlight .u16 0).op = .u16 ∧
    (drawInFlight .u8 0).rstN = true ∧ (drawInFlight .u16 0).rstN = true := by decide
theorem witness_KeyIsNotObservable : (withHostOp (.rd 0x20) encInFlight).op = .enc ∧
    (withHostOp (.rd 0x20) encInFlight).nextEvent = .host ∧ (withEvent .engine seedInFlight).op ≠ .enc := by decide
theorem witness_HostEnc_agenda : ∀ e ∈ fairAgenda 34, e ≠ .resetPin false := by decide
theorem witness_HostEncReturnsCipherUnderEveryInterleaving :
    (hostEnc 68 keyB { State.reset with agenda := fairAgenda 34 }).isSome = true := by decide +kernel
theorem witness_HostEncEndsUnderFairAgenda : { State.reset with agenda := fairAgenda 34 }.ready ∧
    fairAgenda 34 = (fairAgenda 34).take 33 ++ .engine :: ((fairAgenda 34).drop 34 ++ []) ∧
    (∀ e ∈ (fairAgenda 34).take 33 ++ (fairAgenda 34).drop 34, e.isOrdinary = true) ∧
    hostTurns ((fairAgenda 34).take 33) = 17 ∧ hostTurns ((fairAgenda 34).drop 34) = 17 := ⟨⟨rfl, rfl⟩, by decide⟩
theorem witness_HostLoadKeyStoresKey :
    (hostLoadKey 32 keyB { State.reset with agenda := fairAgenda 34 }).isSome = true := by decide +kernel
theorem witness_HostCbcMacIsCipherChain :
    (cbcMac (hostEnc 68) [keyC1] { State.reset with agenda := fairAgenda 34 }).isSome = true := by decide +kernel
theorem witness_HostCmacIsCipherCmac :
    (cmac (hostEnc 70) [0x01] { State.reset with agenda := fairAgenda 70 }).isSome = true := by decide +kernel
theorem witness_FrameBlocksHaveTheirLayout : ([0x40, 0xda] : List Byte).length < 256 := by decide
theorem witness_EmptyAgendaStepIsOneAgentsMove : State.reset.agenda = [] := rfl
theorem witness_StreamCipherUndoesItself : (([0x68, 0x65] : List Byte).length + 15) / 16 ≤ [keyB].length ∧
    ((List.replicate 16 0x00#8).length + 15) / 16 ≤ [keyB].length := by decide
theorem witness_CmacFollowsItsRule : 1 ≤ (List.replicate 15 0x01#8).length ∧ (List.replicate 15 0x01#8).length < 16 ∧
    (hexBlock 0x01010101010101010101010101010180).toList =
      List.replicate 15 0x01 ++ 0x80 :: List.replicate (15 - (List.replicate 15 0x01#8).length) 0x00 := by
  decide +kernel
/-- The frame of V-MODE-MIC, its payload that of V-MODE-CTR. -/
def frameHello (mic : Vector Byte 4) : ReceivedFrame :=
  ⟨[0x40, 0xda, 0x1b, 0x01, 0x26, 0x00, 0x01, 0x00, 0x01], [0xba, 0x96, 0xc8, 0xf0, 0xfc], mic⟩
/-- Sixteen host turns for a key, and for each encryption seventeen, the engine's move, and seventeen more. -/
def keyTurns : List Event := List.replicate 16 .host
def encTurns (n : Nat) : List Event :=
  (List.replicate n (List.replicate 17 .host ++ .engine :: List.replicate 17 .host)).flatten
theorem witness_ReceiveVerifiesMicBeforeUse_match :
    (receiveFrame (hostLoadKey 16) (hostEnc 35) keyB keyC1 ⟨false, 0x26011BDA, 1⟩
      (frameHello #v[0xed, 0x38, 0x28, 0x04])
      { State.reset with agenda := keyTurns ++ encTurns 3 ++ keyTurns ++ encTurns 1 }).map (·.1) =
        some (.message [0x68, 0x65, 0x6c, 0x6c, 0x6f]) := by decide +kernel
theorem witness_ReceiveVerifiesMicBeforeUse_mismatch :
    (receiveFrame (hostLoadKey 16) (hostEnc 35) keyB keyC1 ⟨false, 0x26011BDA, 1⟩
      ⟨[], [], #v[0x00, 0x00, 0x00, 0x00]⟩ { State.reset with agenda := keyTurns ++ encTurns 2 }).map (·.1) =
        some .noValidMessage := by decide +kernel

end Sys2Proof.Tests
end

section
/-!
PROOFS. What one step does on a block at work and on an idle one, and what a whole run makes of it.
-/

namespace Sys2Proof.Machine

/-! ### The event of a step -/

theorem step_of_engine {s : State} (h : s.nextEvent = .engine) : step s = .next (engineStep s.popped) := by
  rw [step_eq, h, perform]

theorem step_of_sample {s : State} {x : Byte} (h : s.nextEvent = .sample x) :
    step s = .next (offerSample x s.popped) := by
  rw [step_eq, h, perform]

theorem step_of_host {s : State} {b : BusOp} {p : List BusOp} (h : s.nextEvent = .host)
    (hp : s.host.prog = b :: p) : step s = transaction b (setProg p s.popped) := by
  rw [step_eq, h, perform, hostStep, popped_host, hp]

theorem step_of_host_ended {s : State} (h : s.nextEvent = .host) (hp : s.host.prog = []) :
    step s = .next s.popped := by
  rw [step_eq, h, perform, hostStep, popped_host, hp]

theorem eventAt_of_getElem? {s : State} {n : Nat} {e : Event} (h : s.agenda[n]? = some e) : s.eventAt n = e := by
  simp [State.eventAt, h]

/-- An event that is ordinary is one agent's move. -/
theorem isOrdinary_cases {e : Event} (h : e.isOrdinary = true) :
    e = .host ∨ e = .engine ∨ ∃ x, e = .sample x := by
  cases e <;> simp_all [Event.isOrdinary]

/-- Traffic is ordinary, and not the engine's move. -/
theorem isTraffic_iff (e : Event) : e.isTraffic = true ↔ e.isOrdinary = true ∧ e ≠ .engine := by
  cases e <;> simp [Event.isTraffic, Event.isOrdinary]

/-! ### The transactions of a command byte -/

theorem decode_encode (i : Instr) : decode (encode i) = .command i := by
  cases i <;> decide

theorem hostWrite_cmd {c : Byte} {i : Instr} (h : decode c = .command i) (s : State) :
    hostWrite 0x00 c s = exec i s := by
  rw [hostWrite, (windowReg_cmd_iff 0x00).2 rfl, commandWrite, h]

theorem windowOffset_windowBase : windowOffset Config.windowBase = some 0x00 :=
  windowOffset_base 0x00

theorem transaction_memWrite {addr : Nat} {off : Byte} (h : windowOffset addr = some off) (v : Byte) (s : State) :
    transaction (.memWrite addr [v]) s = hostWrite off v s := by
  simp [transaction, h]

theorem transaction_memRead {addr : Nat} {off : Byte} (h : windowOffset addr = some off) (s : State) :
    transaction (.memRead addr 1) s = .next (readToHost off s) := by
  simp [transaction, h]

/-- Settles O4: the step is the host's transaction, and CMD is offset 0x00, which is bus address `AESENG_BASE`. -/
theorem stepRunsDecodedCommand : Obligations.StepRunsDecodedCommand := by
  unfold Obligations.StepRunsDecodedCommand
  intro s rest p c i ha hd hp
  have step_head (b : BusOp) (hb : s.host.prog = b :: p) :
      step s = transaction b (setProg p (setAgenda rest s)) := by
    rw [step_of_host (nextEvent_of_cons ha) hb, popped_of_cons ha]
  rcases hp with hp | hp
  · rw [step_head _ hp, transaction, hostWrite_cmd hd]
  · rw [step_head _ hp, transaction_memWrite windowOffset_windowBase, hostWrite_cmd hd]

/-- Settles O5: the free choice is one of the three agents, and only the index of free choices has moved before it. -/
theorem emptyAgendaStepIsOneAgentsMove : Obligations.EmptyAgendaStepIsOneAgentsMove := by
  unfold Obligations.EmptyAgendaStepIsOneAgentsMove
  intro s ha
  refine ⟨freeEvent s.freeNext, ?_, by rw [step, ha]⟩
  exact (freeEvent_cases s.freeNext).imp_right (.imp_right fun h => ⟨_, h⟩)

/-! ### A host program that stays in the window -/

/-- Every transaction the host has still to perform is one byte wide and in the window (R50, R52). -/
def State.progWf (s : State) : Prop := ∀ b ∈ s.host.prog, b.wf = true

theorem windowOffset_of_inWindow {addr : Nat} (h : inWindow addr = true) : ∃ off, windowOffset addr = some off := by
  simp only [inWindow, Bool.and_eq_true, decide_eq_true_eq] at h
  exact ⟨_, if_pos h⟩

theorem writeResult_host {off v : Byte} {s t : State} (h : WriteResult off v s t) : t.host = s.host := by
  cases h <;> simp

/-- A well-formed transaction answers a next state: the host has read a byte, a POLL that failed being put back, or it
has written one. -/
theorem transaction_of_wf {b : BusOp} (hb : b.wf = true) (s : State) :
    (∃ p v, transaction b s = .next { s with host := ⟨p, s.host.reads ++ [v]⟩ } ∧
      (p = s.host.prog ∨ p = b :: s.host.prog)) ∨
    ∃ off v t, transaction b s = .next t ∧ WriteResult off v s t := by
  cases b with
  | wr off v =>
    obtain ⟨t, ht, hw⟩ := hostWrite_result off v s
    exact .inr ⟨off, v, t, ht, hw⟩
  | rd off => exact .inl ⟨s.host.prog, hostRead off s, rfl, .inl rfl⟩
  | poll off mask val =>
    rcases pollOnce_cases off mask val s with ⟨_, h⟩ | ⟨_, h⟩
    · exact .inl ⟨s.host.prog, hostRead off s, by rw [transaction, h]; rfl, .inl rfl⟩
    · exact .inl ⟨.poll off mask val :: s.host.prog, hostRead off s, by rw [transaction, h]; rfl, .inr rfl⟩
  | memRead addr width =>
    obtain ⟨rfl, ha⟩ : width = 1 ∧ inWindow addr = true := by simpa [BusOp.wf] using hb
    obtain ⟨off, ho⟩ := windowOffset_of_inWindow ha
    exact .inl ⟨s.host.prog, hostRead off s, transaction_memRead ho s, .inl rfl⟩
  | memWrite addr bytes =>
    obtain ⟨hl, ha⟩ : bytes.length = 1 ∧ inWindow addr = true := by simpa [BusOp.wf] using hb
    obtain ⟨v, rfl⟩ := List.length_eq_one_iff.1 hl
    obtain ⟨off, ho⟩ := windowOffset_of_inWindow ha
    obtain ⟨t, ht, hw⟩ := hostWrite_result off v s
    exact .inr ⟨off, v, t, (transaction_memWrite ho v s).trans ht, hw⟩

/-! ### Steps that leave the command in flight alone -/

/-- The block has done nothing from the one state to the other but raise or clear error flags; the host and the
environment have moved on. -/
def BlockKept (s t : State) : Prop :=
  ∃ error host agenda freeNext,
    t = { s with error := error, host := host, agenda := agenda, freeNext := freeNext }

theorem BlockKept.refl (s : State) : BlockKept s s := ⟨_, _, _, _, rfl⟩

theorem BlockKept.trans {s t u : State} (h₁ : BlockKept s t) (h₂ : BlockKept t u) : BlockKept s u := by
  obtain ⟨_, _, _, _, rfl⟩ := h₁
  obtain ⟨_, _, _, _, rfl⟩ := h₂
  exact ⟨_, _, _, _, rfl⟩

theorem blockKept_popped (s : State) : BlockKept s s.popped := ⟨_, _, _, _, popped_eq s⟩

theorem BlockKept.op {s t : State} (h : BlockKept s t) : t.op = s.op := by
  obtain ⟨_, _, _, _, rfl⟩ := h; rfl

theorem BlockKept.rstN {s t : State} (h : BlockKept s t) : t.rstN = s.rstN := by
  obtain ⟨_, _, _, _, rfl⟩ := h; rfl

theorem BlockKept.key {s t : State} (h : BlockKept s t) : t.key = s.key := by
  obtain ⟨_, _, _, _, rfl⟩ := h; rfl

theorem BlockKept.data {s t : State} (h : BlockKept s t) : t.data = s.data := by
  obtain ⟨_, _, _, _, rfl⟩ := h; rfl

theorem BlockKept.pool {s t : State} (h : BlockKept s t) : t.pool = s.pool := by
  obtain ⟨_, _, _, _, rfl⟩ := h; rfl

theorem BlockKept.idx {s t : State} (h : BlockKept s t) : t.idx = s.idx := by
  obtain ⟨_, _, _, _, rfl⟩ := h; rfl

theorem BlockKept.inFlight {s t : State} (h : BlockKept s t) (hs : s.inFlight) : t.inFlight := by
  obtain ⟨_, _, _, _, rfl⟩ := h; exact hs

/-- A write to a block at work is ignored, rejected, or clears error flags (R231). -/
theorem WriteResult.blockKept {off v : Byte} {s t : State} (h : WriteResult off v s t) (hs : s.inFlight) :
    BlockKept s t := by
  cases h with
  | unchanged => exact .refl s
  | cleared _ _ => exact ⟨_, _, _, _, rfl⟩
  | rejectedBusy _ _ => exact ⟨_, _, _, _, rfl⟩
  | rejectedIllegal _ hr _ => exact absurd hr.2 hs.2
  | rejectedUnseeded _ hr _ _ => exact absurd hr.2 hs.2
  | accepted _ _ hr _ _ => exact absurd hr.2 hs.2
  | key _ _ hr => exact absurd hr.2 hs.2
  | data _ _ hr => exact absurd hr.2 hs.2

/-- The host's step on a block at work. -/
theorem step_host_inFlight {s : State} (he : s.nextEvent = .host) (hs : s.inFlight) (hw : s.progWf) :
    ∃ t, step s = .next t ∧ t.progWf ∧ BlockKept s t := by
  cases hp : s.host.prog with
  | nil => exact ⟨_, step_of_host_ended he hp, by simpa [State.progWf] using hw, blockKept_popped s⟩
  | cons b p =>
    obtain ⟨hb, hrest⟩ : b.wf = true ∧ ∀ c ∈ p, c.wf = true := by simpa [State.progWf, hp] using hw
    have hk : BlockKept s (setProg p s.popped) := (blockKept_popped s).trans ⟨_, _, _, _, rfl⟩
    rw [step_of_host he hp]
    rcases transaction_of_wf hb (setProg p s.popped) with ⟨q, v, ht, hq⟩ | ⟨off, v, t, ht, hr⟩
    · refine ⟨_, ht, ?_, hk.trans ⟨_, _, _, _, rfl⟩⟩
      rcases hq with rfl | rfl
      · exact hrest
      · exact List.forall_mem_cons.2 ⟨hb, hrest⟩
    · exact ⟨t, ht, by rwa [State.progWf, writeResult_host hr], hk.trans (hr.blockKept (hk.inFlight hs))⟩

/-- A host transaction, or a sample of no seed, leaves the command in flight alone. -/
theorem step_traffic_inFlight {s : State} (he : s.nextEvent.isTraffic = true) (hs : s.inFlight)
    (hop : s.op ≠ .seed) (hw : s.progWf) : ∃ t, step s = .next t ∧ t.progWf ∧ BlockKept s t := by
  obtain ⟨ho, hne⟩ := (isTraffic_iff _).1 he
  rcases isOrdinary_cases ho with h | h | ⟨x, h⟩
  · exact step_host_inFlight h hs hw
  · exact absurd h hne
  · refine ⟨s.popped, ?_, by simpa [State.progWf] using hw, blockKept_popped s⟩
    rw [step_of_sample h, offerSample_of_not_seeding x (by simpa using hop)]

/-! ### The engine's move -/

theorem engineStep_of_running {s : State} (h : s.rstN = true) : engineStep s = completion s :=
  whenRunning_of_running completion h

theorem engineStep_of_enc {s : State} (hr : s.rstN = true) (h : s.op = .enc) : engineStep s = encComplete s := by
  rw [engineStep_of_running hr, completion, h]

theorem engineStep_of_u8 {s : State} (hr : s.rstN = true) (h : s.op = .u8) : engineStep s = u8Complete s := by
  rw [engineStep_of_running hr, completion, h]

theorem engineStep_of_u16 {s : State} (hr : s.rstN = true) (h : s.op = .u16) : engineStep s = u16Complete s := by
  rw [engineStep_of_running hr, completion, h]

theorem engineStep_of_seed {s : State} (h : s.op = .seed) : engineStep s = s := by
  rcases whenRunning_cases completion s with ⟨_, hs⟩ | ⟨_, hs⟩
  · exact hs
  · rw [engineStep, hs, completion, h]

theorem engineStep_of_idle {s : State} (h : s.op = .none) : engineStep s = s := by
  rcases whenRunning_cases completion s with ⟨_, hs⟩ | ⟨_, hs⟩
  · exact hs
  · rw [engineStep, hs, completion, h]

/-- The engine ends every command but a seed. -/
theorem engineStep_completes {s : State} (hs : s.inFlight) (hop : s.op ≠ .seed) :
    (engineStep s).ready ∧ (engineStep s).done = true := by
  obtain ⟨hr, hne⟩ := hs
  cases h : s.op with
  | none => exact absurd h hne
  | enc => rw [engineStep_of_enc hr h]; simp [encComplete, State.ready, hr]
  | seed => exact absurd h hop
  | u8 => rw [engineStep_of_u8 hr h]; simp [u8Complete, u8CompleteWith, State.ready, hr]
  | u16 => rw [engineStep_of_u16 hr h]; simp [u16Complete, u16CompleteWith, State.ready, hr]

/-! ### A draw amid traffic -/

@[simp] theorem rngDraw_key (s : State) : (rngDraw s).2.key = s.key := rngDrawWith_key _ s
@[simp] theorem rngDraw_data (s : State) : (rngDraw s).2.data = s.data := rngDrawWith_data _ s

/-- A draw reads nothing that traffic changes. -/
theorem BlockKept.rngDraw {s t : State} (h : BlockKept s t) :
    (rngDraw t).1 = (rngDraw s).1 ∧ BlockKept (rngDraw s).2 (rngDraw t).2 := by
  have hidx := h.idx
  unfold Machine.rngDraw
  rcases idx_cases s with ⟨i, hi⟩ | hi
  · rw [rngDrawWith_of_lt _ i hi, rngDrawWith_of_lt _ i (hidx ▸ hi)]
    obtain ⟨_, _, _, _, rfl⟩ := h
    exact ⟨rfl, _, _, _, _, rfl⟩
  · rw [rngDrawWith_of_used _ hi, rngDrawWith_of_used _ (hidx.trans hi)]
    obtain ⟨_, _, _, _, rfl⟩ := h
    exact ⟨rfl, _, _, _, _, rfl⟩

/-- Any traffic, and then the engine's move: the engine moves on the block as it was. -/
theorem run_traffic_engine {s : State} (n : Nat) (hs : s.inFlight) (hop : s.op ≠ .seed) (hw : s.progWf)
    (ht : ∀ i < n, (s.eventAt i).isTraffic = true) (he : s.eventAt n = .engine) :
    ∃ u, run (n + 1) s = .next (engineStep u) ∧ BlockKept s u := by
  induction n generalizing s with
  | zero =>
    rw [eventAt_zero] at he
    exact ⟨s.popped, run_succ_of_next 0 (step_of_engine he), blockKept_popped s⟩
  | succ n ih =>
    have he₀ : s.nextEvent.isTraffic = true := eventAt_zero s ▸ ht 0 n.succ_pos
    obtain ⟨t, hst, hwt, hk⟩ := step_traffic_inFlight he₀ hs hop hw
    have shift := eventAt_of_step hst
    obtain ⟨u, hu, hku⟩ := ih (hk.inFlight hs) (hk.op ▸ hop) hwt
      (fun i hi => by rw [shift]; exact ht (i + 1) (by omega)) (by rw [shift]; exact he)
    exact ⟨u, (run_succ_of_next (n + 1) hst).trans hu, hk.trans hku⟩

/-- Settles O45: traffic keeps the block, so the engine completes the command with the values of its acceptance. -/
theorem resultIgnoresTrafficInFlight : Obligations.ResultIgnoresTrafficInFlight := by
  unfold Obligations.ResultIgnoresTrafficInFlight
  intro s es rest hr ha htraffic hw
  have ht : ∀ i < es.length, (s.eventAt i).isTraffic = true := fun i hi => by
    rw [eventAt_of_getElem? (e := es[i]) (by rw [ha, List.getElem?_append_left hi, List.getElem?_eq_getElem hi])]
    exact htraffic _ (es.getElem_mem hi)
  have he : s.eventAt es.length = .engine := eventAt_of_getElem? (by simp [ha])
  have completes : s.op ≠ .none → s.op ≠ .seed → ∃ u, run (es.length + 1) s = .next (engineStep u) ∧
      (engineStep u).ready ∧ (engineStep u).done = true ∧ BlockKept s u := fun h₀ hop => by
    obtain ⟨u, hu, hk⟩ := run_traffic_engine es.length ⟨hr, h₀⟩ hop hw ht he
    obtain ⟨hready, hdone⟩ := engineStep_completes (hk.inFlight ⟨hr, h₀⟩) (hk.op ▸ hop)
    exact ⟨u, hu, hready, hdone, hk⟩
  refine ⟨fun ho => ?_, fun ho => ?_, fun ho => ?_⟩
  · obtain ⟨u, hu, hready, hdone, hk⟩ := completes (by simp [ho]) (by simp [ho])
    refine ⟨_, hu, hready, hdone, ?_⟩
    rw [engineStep_of_enc (hk.rstN.trans hr) (hk.op.trans ho)]
    simp [encComplete, hk.key, hk.data, hk.pool, hk.idx]
  · obtain ⟨u, hu, hready, hdone, hk⟩ := completes (by simp [ho]) (by simp [ho])
    refine ⟨_, hu, hready, hdone, ?_⟩
    rw [engineStep_of_u8 (hk.rstN.trans hr) (hk.op.trans ho)]
    obtain ⟨hv, hd⟩ := hk.rngDraw
    exact ⟨hv, rfl, hd.key.trans (rngDraw_key s), hd.data.trans (rngDraw_data s), hd.pool, hd.idx⟩
  · obtain ⟨u, hu, hready, hdone, hk⟩ := completes (by simp [ho]) (by simp [ho])
    refine ⟨_, hu, hready, hdone, ?_⟩
    rw [engineStep_of_u16 (hk.rstN.trans hr) (hk.op.trans ho)]
    obtain ⟨hv₁, hd₁⟩ := hk.rngDraw
    obtain ⟨hv₂, hd₂⟩ := hd₁.rngDraw
    exact ⟨hv₁, hv₂, hd₂.key.trans (by simp), hd₂.data.trans (by simp), hd₂.pool, hd₂.idx⟩

end Sys2Proof.Machine
end

section
/-!
PROOFS. That an accepted command completes: the engine's move ends ENC and the draws, and a seed is followed sample by
sample by the number of bits it has kept.
-/

namespace Sys2Proof.Machine

/-! ### A seed that is collecting -/

/-- A seed in flight, its byte pointer where R35 (d) has it. -/
structure State.Collecting (s : State) : Prop where
  running : s.rstN = true
  seeding : s.op = .seed
  byteptr_pos : 1 ≤ s.byteptr.val
  byteptr_le : s.byteptr.val ≤ 15

/-- The bits a collecting seed has kept so far: eight for every byte stored, and those in SHIFT (R163, R164). -/
def State.collected (s : State) : Nat := 8 * (s.byteptr.val - 1) + s.bitcnt.val

/-- The first sample of a pair, if it is held (R162). Of the sample only its bit is known. -/
def State.heldSample (s : State) : List Byte := if s.nsHave then [bitByte s.nsFirst] else []

/-- The bits a seed has kept once these samples have come too. -/
def State.collectedWith (s : State) (xs : List Byte) : Nat :=
  s.collected + (keptBits (s.heldSample ++ xs)).length

/-- The bits a seed has kept after `n` steps, if it is in flight that long. -/
def State.collectedBy (s : State) (n : Nat) : Nat := s.collectedWith (samplesIn (s.eventsUpTo n))

theorem collectedWith_of_not_held {s : State} (h : s.nsHave = false) (xs : List Byte) :
    s.collectedWith xs = s.collected + (keptBits xs).length := by
  simp [State.collectedWith, State.heldSample, h]

theorem collectedWith_of_held {s : State} (h : s.nsHave = true) (xs : List Byte) :
    s.collectedWith xs = s.collected + (keptBits (bitByte s.nsFirst :: xs)).length := by
  simp [State.collectedWith, State.heldSample, h]

theorem State.Collecting.inFlight {s : State} (h : s.Collecting) : s.inFlight :=
  ⟨h.running, by simp [h.seeding]⟩

theorem State.Collecting.collected_lt {s : State} (h : s.Collecting) : s.collected < 120 := by
  have := h.byteptr_le
  have := s.bitcnt.isLt
  unfold State.collected
  omega

/-- A seed just accepted is collecting, and has kept nothing. -/
theorem State.seedJustAccepted.collecting {s : State} (h : s.seedJustAccepted) :
    s.Collecting ∧ ∀ n, s.collectedBy n = (s.bitsKeptBy n).length := by
  obtain ⟨hr, hop, hns, _, hb, hp⟩ := h
  refine ⟨⟨hr, hop, by simp [hp], by simp [hp]⟩, fun n => ?_⟩
  rw [State.collectedBy, collectedWith_of_not_held hns]
  simp [State.collected, State.bitsKeptBy, hb, hp]

theorem BlockKept.collecting {s t : State} (h : BlockKept s t) (hs : s.Collecting) :
    t.Collecting ∧ ∀ xs, t.collectedWith xs = s.collectedWith xs := by
  obtain ⟨_, _, _, _, rfl⟩ := h
  exact ⟨⟨hs.running, hs.seeding, hs.byteptr_pos, hs.byteptr_le⟩, fun _ => rfl⟩

/-! ### The bits of a sample -/

@[simp] theorem noiseBitOf_bitByte (b : Bool) : noiseBitOf (bitByte b) = b := by
  cases b <;> rfl

/-- Of a sample only its chosen bit counts (R162). -/
theorem keptBits_cons_congr {x y : Byte} (h : noiseBitOf x = noiseBitOf y) (xs : List Byte) :
    keptBits (x :: xs) = keptBits (y :: xs) := by
  cases xs with
  | nil => rfl
  | cons z rest => simp only [keptBits, h]

@[simp] theorem storeByte_nsHave (v : Byte) (s : State) : (storeByte v s).nsHave = s.nsHave := by
  unfold storeByte; split <;> rfl

@[simp] theorem keepBit_nsHave (k : Bool) (s : State) : (keepBit k s).nsHave = s.nsHave := by
  unfold keepBit; split <;> simp

/-- A kept bit is one bit more, or it is the 120th and the seed is complete. -/
theorem keepBit_collecting (k : Bool) {s : State} (h : s.Collecting) :
    ((keepBit k s).Collecting ∧ (keepBit k s).collected = s.collected + 1) ∨
    (s.collected = 119 ∧ (keepBit k s).ready ∧ (keepBit k s).done = true ∧ (keepBit k s).seeded = true) := by
  obtain ⟨hr, hop, hpos, hle⟩ := h
  have hrk : (keepBit k s).rstN = true := by simpa using hr
  by_cases hb : s.bitcnt = 7
  · have hb7 : s.bitcnt.val = 7 := by simp [hb]
    have hk : keepBit k s = { storeByte ((s.shift <<< 1) ||| bitByte k)
        { s with shift := (s.shift <<< 1) ||| bitByte k } with shift := 0x00, bitcnt := 0 } := by
      simp [keepBit, hb]
    rcases storeByte_cases ((s.shift <<< 1) ||| bitByte k) { s with shift := (s.shift <<< 1) ||| bitByte k } with
      ⟨hlt, hop', _, _, _, hptr⟩ | ⟨hge, hop', hs', hd', _⟩
    · have hptr' : (keepBit k s).byteptr.val = s.byteptr.val + 1 := hk ▸ hptr
      have hlt' : s.byteptr.val < 15 := hlt
      have hcnt : (keepBit k s).bitcnt = 0 := by rw [hk]
      refine .inl ⟨⟨hrk, by rw [hk]; exact hop'.trans hop, by omega, by omega⟩, ?_⟩
      simp only [State.collected, hptr', hcnt, hb7, Fin.val_zero]
      omega
    · have hge' : 15 ≤ s.byteptr.val := hge
      refine .inr ⟨?_, ⟨hrk, by rw [hk]; exact hop'⟩, by rw [hk]; exact hd', by rw [hk]; exact hs'⟩
      simp only [State.collected, hb7]
      omega
  · have hk : keepBit k s = { s with shift := (s.shift <<< 1) ||| bitByte k, bitcnt := s.bitcnt + 1 } := by
      simp [keepBit, hb]
    have hcnt : (s.bitcnt + 1).val = s.bitcnt.val + 1 := Fin.val_add_one_of_lt' (by omega)
    refine .inl ⟨⟨hrk, ?_, ?_, ?_⟩, ?_⟩ <;> rw [hk]
    · exact hop
    · exact hpos
    · exact hle
    · simp only [State.collected, hcnt]
      omega

/-- A sample taken by a collecting seed: the count of its kept bits, with those of the samples still to come, stays as
it is, or the 120th bit has come and the seed is complete. -/
theorem consumeSample_collecting (x : Byte) {s : State} (h : s.Collecting) :
    ((consumeSample x s).Collecting ∧
      ∀ xs, (consumeSample x s).collectedWith xs = s.collectedWith (x :: xs)) ∨
    ((consumeSample x s).ready ∧ (consumeSample x s).done = true ∧ (consumeSample x s).seeded = true ∧
      ∀ xs, 120 ≤ s.collectedWith (x :: xs)) := by
  have hc : State.Collecting { s with nsHave := false } := ⟨h.running, h.seeding, h.byteptr_pos, h.byteptr_le⟩
  cases hns : s.nsHave with
  | false =>
    rw [consumeSample_of_first x hns]
    refine .inl ⟨⟨h.running, h.seeding, h.byteptr_pos, h.byteptr_le⟩, fun xs => ?_⟩
    rw [collectedWith_of_not_held hns, collectedWith_of_held rfl, keptBits_cons_congr (noiseBitOf_bitByte _)]
    rfl
  | true =>
    by_cases hb : noiseBitOf x = s.nsFirst
    · rw [consumeSample_of_equal hns hb]
      refine .inl ⟨hc, fun xs => ?_⟩
      rw [collectedWith_of_held hns, collectedWith_of_not_held rfl]
      simp [keptBits, hb, State.collected]
    · rw [consumeSample_of_differ hns hb]
      have hlen : ∀ xs, s.collectedWith (x :: xs) = s.collected + 1 + (keptBits xs).length := fun xs => by
        rw [collectedWith_of_held hns]
        simp only [keptBits, noiseBitOf_bitByte, Ne.symm hb, if_false, List.length_cons]
        omega
      rcases keepBit_collecting (noiseBitOf x) hc with ⟨hk, hcol⟩ | ⟨hcol, hready, hd, hs⟩
      · refine .inl ⟨hk, fun xs => ?_⟩
        rw [hlen, collectedWith_of_not_held (by simp), hcol]
        rfl
      · have h119 : s.collected = 119 := hcol
        exact .inr ⟨hready, hd, hs, fun xs => by rw [hlen]; omega⟩

/-! ### A seed in a run -/

theorem eventsUpTo_of_step {s t : State} (h : step s = .next t) (n : Nat) :
    s.eventsUpTo (n + 1) = s.nextEvent :: t.eventsUpTo n := by
  rw [eventsUpTo_succ]
  simp [State.eventsUpTo, eventAt_of_step h]

/-- One step of a collecting seed. -/
theorem step_collecting {s : State} (h : s.Collecting) (hw : s.progWf) (ho : s.nextEvent.isOrdinary = true) :
    ∃ t, step s = .next t ∧ t.progWf ∧
      ((t.Collecting ∧ ∀ n, t.collectedBy n = s.collectedBy (n + 1)) ∨
       (t.ready ∧ t.done = true ∧ t.seeded = true ∧ ∀ n, 120 ≤ s.collectedBy (n + 1))) := by
  have kept : ∀ t, step s = .next t → (∀ es, samplesIn (s.nextEvent :: es) = samplesIn es) → BlockKept s t →
      t.Collecting ∧ ∀ n, t.collectedBy n = s.collectedBy (n + 1) := fun t ht he hk => by
    obtain ⟨hc, hcount⟩ := hk.collecting h
    exact ⟨hc, fun n => by rw [State.collectedBy, State.collectedBy, hcount, eventsUpTo_of_step ht, he]⟩
  have hwp : s.popped.progWf := by simpa [State.progWf] using hw
  rcases isOrdinary_cases ho with he | he | ⟨x, he⟩
  · obtain ⟨t, ht, hwt, hk⟩ := step_host_inFlight he h.inFlight hw
    exact ⟨t, ht, hwt, .inl (kept t ht (by simp [he, samplesIn]) hk)⟩
  · have ht : step s = .next s.popped := by
      rw [step_of_engine he, engineStep_of_seed (by simpa using h.seeding)]
    exact ⟨_, ht, hwp, .inl (kept _ ht (by simp [he, samplesIn]) (blockKept_popped s))⟩
  · obtain ⟨hc, hcount⟩ := (blockKept_popped s).collecting h
    have ht : step s = .next (consumeSample x s.popped) := by
      rw [step_of_sample he, offerSample_of_seeding x hc.running hc.seeding]
    have hby : ∀ n, s.collectedBy (n + 1) =
        s.popped.collectedWith (x :: samplesIn ((consumeSample x s.popped).eventsUpTo n)) := fun n => by
      rw [State.collectedBy, eventsUpTo_of_step ht, he, hcount]
      rfl
    refine ⟨_, ht, by simpa [State.progWf] using hw, ?_⟩
    rcases consumeSample_collecting x hc with ⟨hc', hx⟩ | ⟨hready, hd, hs, hx⟩
    · exact .inl ⟨hc', fun n => by rw [hby, ← hx, State.collectedBy]⟩
    · exact .inr ⟨hready, hd, hs, fun n => by rw [hby]; exact hx _⟩

/-- A run whose samples bring the 120th bit completes the seed. -/
theorem run_seed_completes {s : State} (n : Nat) (h : s.Collecting) (hw : s.progWf)
    (ho : ∀ k, (s.eventAt k).isOrdinary = true) (hn : 120 ≤ s.collectedBy n) :
    ∃ m t, run m s = .next t ∧ t.ready ∧ t.done = true ∧ t.seeded = true := by
  induction n generalizing s with
  | zero =>
    have hlt := h.collected_lt
    have hzero : s.collectedBy 0 = s.collected := by
      simp only [State.collectedBy, State.collectedWith, State.heldSample, State.eventsUpTo]
      split <;> rfl
    omega
  | succ n ih =>
    obtain ⟨t, ht, hwt, ⟨hc, hcount⟩ | ⟨hready, hd, hs, _⟩⟩ := step_collecting h hw (eventAt_zero s ▸ ho 0)
    · have hot : ∀ k, (t.eventAt k).isOrdinary = true := fun k => by rw [eventAt_of_step ht]; exact ho (k + 1)
      obtain ⟨m, u, hu, hdone⟩ := ih hc hwt hot (by rwa [hcount])
      exact ⟨m + 1, u, (run_succ_of_next m ht).trans hu, hdone⟩
    · exact ⟨1, t, run_succ_of_next 0 ht, hready, hd, hs⟩

/-- A run whose samples have not brought the 120th bit has the seed in flight. -/
theorem run_seed_inFlight {s : State} (n : Nat) (h : s.Collecting) (hw : s.progWf)
    (ho : ∀ k, (s.eventAt k).isOrdinary = true) (hn : s.collectedBy n < 120) :
    ∃ t, run n s = .next t ∧ t.op = .seed := by
  induction n generalizing s with
  | zero => exact ⟨s, rfl, h.seeding⟩
  | succ n ih =>
    obtain ⟨t, ht, hwt, ⟨hc, hcount⟩ | ⟨_, _, _, hge⟩⟩ := step_collecting h hw (eventAt_zero s ▸ ho 0)
    · have hot : ∀ k, (t.eventAt k).isOrdinary = true := fun k => by rw [eventAt_of_step ht]; exact ho (k + 1)
      obtain ⟨u, hu, hop⟩ := ih hc hwt hot (by rwa [hcount])
      exact ⟨u, (run_succ_of_next n ht).trans hu, hop⟩
    · exact absurd (hge n) (by omega)

/-- In a run of ordinary events the engine's first move ends an ENC or a draw. -/
theorem run_engine_completes {s : State} (hs : s.inFlight) (hop : s.op ≠ .seed) (hw : s.progWf)
    (ho : ∀ k, (s.eventAt k).isOrdinary = true) : ∃ n t, run n s = .next t ∧ t.ready ∧ t.done = true := by
  have hex : ∃ n, s.eventAt n = .engine := (eventAt_engine_again s 0).imp fun _ h => h.2
  have ht : ∀ i < Nat.find hex, (s.eventAt i).isTraffic = true := fun i hi =>
    (isTraffic_iff _).2 ⟨ho i, Nat.find_min hex hi⟩
  obtain ⟨u, hu, hk⟩ := run_traffic_engine (Nat.find hex) hs hop hw ht (Nat.find_spec hex)
  exact ⟨_, _, hu, engineStep_completes (hk.inFlight hs) (hk.op ▸ hop)⟩

/-- Settles O47: the engine moves again in every run, and a seed is complete exactly when its samples have brought the
120th bit. -/
theorem acceptedCommandCompletes : Obligations.AcceptedCommandCompletes := by
  unfold Obligations.AcceptedCommandCompletes
  intro s hr ha hw
  have ho := eventAt_ordinary ha
  refine ⟨fun hop => ?_, fun hseed => ?_⟩
  · exact run_engine_completes ⟨hr, by rcases hop with h | h | h <;> simp [h]⟩
      (by rcases hop with h | h | h <;> simp [h]) hw ho
  · obtain ⟨hc, hcount⟩ := hseed.collecting
    refine ⟨fun ⟨n, hn⟩ => run_seed_completes n hc hw ho (by rwa [hcount]), fun n hn => ?_⟩
    exact run_seed_inFlight n hc hw ho (by rwa [hcount])

end Sys2Proof.Machine
end

section
/-!
PROOFS. HostEnc followed event by event: the stages it goes through, what the block and the host hold at each, and that
enough turns of the host and a move of the engine between them bring it to its last stage.
-/

namespace Sys2Proof.Machine

/-! ### An idle block -/

/-- A write to DATA of an idle block stores its byte (R54). -/
theorem transaction_wr_data {s : State} (i : Fin 16) (v : Byte) (hr : s.rstN = true) (hop : s.op = .none) :
    transaction (.wr (dataOffset i) v) s = .next (setData i v s) := by
  simp [transaction, hostWrite, windowReg_dataOffset, whenIdle_of_idle _ hr hop]

/-- ENC written to an idle block is accepted (R141). -/
theorem transaction_wr_enc {s : State} (hr : s.rstN = true) (hop : s.op = .none) :
    transaction (.wr 0x00 (encode .enc)) s = .next (accept .enc s) := by
  rw [transaction, hostWrite_cmd (decode_encode .enc), exec_eq, whenIdle_of_idle _ hr hop, commandEffect]

/-- A read of DATA of an idle block gives the host its byte (R53). -/
theorem transaction_rd_data {s : State} (i : Fin 16) (hr : s.rstN = true) (hop : s.op = .none) :
    transaction (.rd (dataOffset i)) s = .next (logRead s.data[i] s) := by
  have hb : s.busy = false := (busy_eq_false_iff s).2 hop
  have hv : hostRead (dataOffset i) s = s.data[i] := by
    simp [hostRead, hr, windowReg_dataOffset, readReg, hb]
  rw [transaction, readToHost, hv]

/-- `WAIT` reads BUSY (R24, R86). -/
theorem hostRead_status_masked_iff {s : State} (hr : s.rstN = true) :
    hostRead 0x01 s &&& 0x01 = 0x00 ↔ s.op = .none := by
  have hread : hostRead 0x01 s = s.statusByte := by
    rw [hostRead, hr]
    rfl
  have hmask := mask_eq_zero .busy s.statusByte
  rw [show ErrFlag.busy.code = 0 from rfl, statusByte_bit0] at hmask
  rw [hread, ← busy_eq_false_iff, ← Bool.not_eq_true', ← hmask, beq_iff_eq]
  rfl

/-! ### The stages of HostEnc -/

/-- How far `HostEnc(P)` has come (R200). -/
inductive EncStage where
  /-- The host has written the first `i` bytes to DATA. -/
  | writing (i : Nat)
  /-- ENC is in flight. -/
  | encrypting
  /-- ENC is complete, and the host has not yet seen BUSY = 0. -/
  | encrypted
  /-- The host has read the first `i` bytes of the result. -/
  | reading (i : Nat)

/-- The stage after an event. -/
def EncStage.advance : EncStage → Event → EncStage
  | .writing i, .host => if i < 16 then .writing (i + 1) else .encrypting
  | .encrypting, .engine => .encrypted
  | .encrypted, .host => .reading 0
  | .reading i, .host => .reading (i + 1)
  | st, _ => st

/-- What remains of the host's program. -/
def EncStage.prog (p : Block) : EncStage → List BusOp
  | .writing i => (wrDataProg p).drop i ++ (cmdProg .enc ++ (waitProg ++ rdDataProg))
  | .encrypting => waitProg ++ rdDataProg
  | .encrypted => waitProg ++ rdDataProg
  | .reading i => rdDataProg.drop i

/-- What OP, DATA and the host's reads are at a stage, for a procedure begun in `s₀`. -/
def EncStage.blockAt (s₀ : State) (p : Block) : EncStage → State → Prop
  | .writing i, s => s.op = .none ∧ ∀ j : Fin 16, j.val < i → s.data[j] = p[j]
  | .encrypting, s => s.op = .enc ∧ s.data = p
  | .encrypted, s => s.op = .none ∧ s.data = aes128 s₀.key p
  | .reading i, s => s.op = .none ∧ s.data = aes128 s₀.key p ∧
      ∃ earlier, s.host.reads = earlier ++ (aes128 s₀.key p).toList.take i

/-- The state of `HostEnc(p)`, begun in `s₀`, at a stage: no write has been lost, and the key is the one it began
with. -/
structure EncStage.Holds (s₀ : State) (p : Block) (st : EncStage) (s : State) : Prop where
  running : s.rstN = true
  key : s.key = s₀.key
  error : s.error = s₀.error
  prog : s.host.prog = st.prog p
  block : st.blockAt s₀ p s

theorem EncStage.Holds.popped {s₀ s : State} {p : Block} {st : EncStage} (h : st.Holds s₀ p s) :
    st.Holds s₀ p s.popped :=
  ⟨by simpa using h.running, by simpa using h.key, by simpa using h.error, by simpa using h.prog, by
    have hb := h.block
    cases st <;> simpa [EncStage.blockAt] using hb⟩

@[simp] theorem wrDataProg_length (p : Block) : (wrDataProg p).length = 16 := by
  simp [wrDataProg]

@[simp] theorem rdDataProg_length : rdDataProg.length = 16 := by
  simp [rdDataProg]

theorem wrDataProg_drop (p : Block) (i : Fin 16) :
    (wrDataProg p).drop i.val = .wr (dataOffset i) p[i] :: (wrDataProg p).drop (i.val + 1) := by
  rw [List.drop_eq_getElem_cons (by simp)]
  simp [wrDataProg]

theorem rdDataProg_drop (i : Fin 16) :
    rdDataProg.drop i.val = .rd (dataOffset i) :: rdDataProg.drop (i.val + 1) := by
  rw [List.drop_eq_getElem_cons (by simp)]
  simp [rdDataProg]

theorem wrDataProg_drop_of_ge (p : Block) {i : Nat} (h : 16 ≤ i) : (wrDataProg p).drop i = [] :=
  List.drop_of_length_le (by simpa using h)

theorem rdDataProg_drop_of_ge {i : Nat} (h : 16 ≤ i) : rdDataProg.drop i = [] :=
  List.drop_of_length_le (by simpa using h)

/-! ### Every event is one advance -/

/-- The host's turn performs the first transaction of the stage's program. -/
theorem EncStage.Holds.step_host {s₀ s : State} {p : Block} {st : EncStage} {b : BusOp} {q : List BusOp}
    (h : st.Holds s₀ p s) (he : s.nextEvent = .host) (hp : st.prog p = b :: q) :
    step s = transaction b (setProg q s.popped) :=
  step_of_host he (h.prog.trans hp)

/-- One more byte of DATA written. -/
theorem holds_writing_succ {s₀ s : State} {p : Block} (i : Fin 16) (he : s.nextEvent = .host)
    (h : (EncStage.writing i.val).Holds s₀ p s) :
    ∃ t, step s = .next t ∧ (EncStage.writing (i.val + 1)).Holds s₀ p t := by
  have hstep := h.step_host he (by rw [EncStage.prog, wrDataProg_drop, List.cons_append])
  obtain ⟨hr, hk, herr, _, hop, hdata⟩ := h.popped
  refine ⟨_, hstep.trans (transaction_wr_data i p[i] hr hop), hr, hk, herr, rfl, hop, fun j hj => ?_⟩
  rcases eq_or_ne i j with rfl | hne
  · simp
  · have hij : i.val ≠ j.val := fun h => hne (Fin.ext h)
    simpa [Vector.getElem_set, hij] using hdata j (by omega)

/-- ENC accepted, with the whole block in DATA. -/
theorem holds_encrypting {s₀ s : State} {p : Block} {i : Nat} (hi : 16 ≤ i) (he : s.nextEvent = .host)
    (h : (EncStage.writing i).Holds s₀ p s) : ∃ t, step s = .next t ∧ EncStage.encrypting.Holds s₀ p t := by
  have hstep := h.step_host he (by
    rw [EncStage.prog, wrDataProg_drop_of_ge p hi, List.nil_append, cmdProg, List.singleton_append])
  obtain ⟨hr, hk, herr, _, hop, hdata⟩ := h.popped
  have hp : s.popped.data = p := Vector.ext fun j hj => hdata ⟨j, hj⟩ (Nat.lt_of_lt_of_le hj hi)
  exact ⟨_, hstep.trans (transaction_wr_enc hr hop), hr, hk, herr, rfl, rfl, hp⟩

/-- The host's turn while ENC is in flight: the POLL stays where it is. -/
theorem holds_encrypting_poll {s₀ s : State} {p : Block} (he : s.nextEvent = .host)
    (h : EncStage.encrypting.Holds s₀ p s) : ∃ t, step s = .next t ∧ EncStage.encrypting.Holds s₀ p t := by
  have hstep := h.step_host he (by rw [EncStage.prog, waitProg, List.singleton_append])
  obtain ⟨hr, hk, herr, _, hop, hdata⟩ := h.popped
  have hbusy : (setProg rdDataProg s.popped).op ≠ .none := fun h => by cases hop.symm.trans h
  rcases pollOnce_cases 0x01 0x01 0x00 (setProg rdDataProg s.popped) with ⟨hz, _⟩ | ⟨_, hpoll⟩
  · exact absurd ((hostRead_status_masked_iff hr).1 hz) hbusy
  · rw [transaction, hpoll] at hstep
    exact ⟨_, hstep, hr, hk, herr, rfl, hop, hdata⟩

/-- The host's turn after the completion: the POLL matches. -/
theorem holds_reading_zero {s₀ s : State} {p : Block} (he : s.nextEvent = .host)
    (h : EncStage.encrypted.Holds s₀ p s) : ∃ t, step s = .next t ∧ (EncStage.reading 0).Holds s₀ p t := by
  have hstep := h.step_host he (by rw [EncStage.prog, waitProg, List.singleton_append])
  obtain ⟨hr, hk, herr, _, hop, hdata⟩ := h.popped
  rcases pollOnce_cases 0x01 0x01 0x00 (setProg rdDataProg s.popped) with ⟨_, hpoll⟩ | ⟨hz, _⟩
  · rw [transaction, hpoll] at hstep
    exact ⟨_, hstep, hr, hk, herr, rfl, hop, hdata, _, (List.append_nil _).symm⟩
  · exact absurd ((hostRead_status_masked_iff hr).2 hop) hz

/-- One more byte of the result read, or nothing left to do. -/
theorem holds_reading_succ {s₀ s : State} {p : Block} {i : Nat} (he : s.nextEvent = .host)
    (h : (EncStage.reading i).Holds s₀ p s) :
    ∃ t, step s = .next t ∧ (EncStage.reading (i + 1)).Holds s₀ p t := by
  obtain ⟨hr, hk, herr, hprog, hop, hdata, earlier, hreads⟩ := h.popped
  by_cases hi : i < 16
  · have hstep := h.step_host he (by rw [EncStage.prog, rdDataProg_drop ⟨i, hi⟩])
    refine ⟨_, hstep.trans (transaction_rd_data ⟨i, hi⟩ hr hop), hr, hk, herr, rfl, hop, hdata, earlier, ?_⟩
    simp only [logRead_host, setProg_host, setProg_data, hreads, hdata]
    simp [List.take_add_one, hi]
  · have hi : 16 ≤ i := Nat.not_lt.1 hi
    have hnil : (EncStage.reading i).prog p = [] := rdDataProg_drop_of_ge hi
    have hnil' : (EncStage.reading (i + 1)).prog p = [] := rdDataProg_drop_of_ge (Nat.le_succ_of_le hi)
    refine ⟨_, step_of_host_ended he (h.prog.trans hnil), hr, hk, herr, ?_, hop, hdata, earlier, ?_⟩
    · rw [hprog, hnil, hnil']
    · rw [hreads, List.take_of_length_le (by simpa using hi), List.take_of_length_le (by simp; omega)]

/-- The engine's move on ENC in flight (R142). -/
theorem holds_encrypted {s₀ s : State} {p : Block} (he : s.nextEvent = .engine)
    (h : EncStage.encrypting.Holds s₀ p s) : ∃ t, step s = .next t ∧ EncStage.encrypted.Holds s₀ p t := by
  have hstep := step_of_engine he
  obtain ⟨hr, hk, herr, hprog, hop, hdata⟩ := h.popped
  rw [engineStep_of_enc hr hop] at hstep
  exact ⟨_, hstep, hr, hk, herr, hprog, rfl, congrArg₂ aes128 hk hdata⟩

/-- In no stage is a seed in flight. -/
theorem EncStage.Holds.op_ne_seed {s₀ s : State} {p : Block} {st : EncStage} (h : st.Holds s₀ p s) :
    s.op ≠ .seed := by
  have hb := h.block
  cases st <;> simp [hb.1]

/-- Every ordinary event is a step of the block and one advance of the procedure. -/
theorem holds_advance {s₀ s : State} {p : Block} {st : EncStage} (h : st.Holds s₀ p s)
    (ho : s.nextEvent.isOrdinary = true) :
    ∃ t, step s = .next t ∧ (st.advance s.nextEvent).Holds s₀ p t := by
  rcases isOrdinary_cases ho with he | he | ⟨x, he⟩
  · rw [he]
    cases st with
    | writing i =>
      by_cases hi : i < 16
      · rw [EncStage.advance, if_pos hi]
        exact holds_writing_succ ⟨i, hi⟩ he h
      · rw [EncStage.advance, if_neg hi]
        exact holds_encrypting (Nat.not_lt.1 hi) he h
    | encrypting => exact holds_encrypting_poll he h
    | encrypted => exact holds_reading_zero he h
    | reading i => exact holds_reading_succ he h
  · have idle : s.op = .none → step s = .next s.popped := fun hop => by
      rw [step_of_engine he, engineStep_of_idle (by simpa using hop)]
    rw [he]
    cases st with
    | writing i => exact ⟨_, idle h.block.1, h.popped⟩
    | encrypting => exact holds_encrypted he h
    | encrypted => exact ⟨_, idle h.block.1, h.popped⟩
    | reading i => exact ⟨_, idle h.block.1, h.popped⟩
  · have hstep : step s = .next s.popped := by
      rw [step_of_sample he, offerSample_of_not_seeding x (by simpa using h.op_ne_seed)]
    have hst : st.advance (.sample x) = st := by cases st <;> rfl
    rw [he, hst]
    exact ⟨_, hstep, h.popped⟩

/-! ### HostEnc as a run -/

/-- HostEnc has ended when its last byte is read. -/
theorem programEnded_iff {s₀ s : State} {p : Block} {st : EncStage} (h : st.Holds s₀ p s) :
    programEnded s = true ↔ ∃ i, 16 ≤ i ∧ st = .reading i := by
  obtain ⟨_, _, _, hprog, hblock⟩ := h
  cases st with
  | writing i => simp [programEnded, hprog, EncStage.prog, cmdProg]
  | encrypting => simp [programEnded, hprog, EncStage.prog, waitProg]
  | encrypted => simp [programEnded, hprog, EncStage.prog, waitProg]
  | reading i => simp [programEnded, hprog, EncStage.prog, hblock.1]

theorem runProgram_of_ended {s : State} (fuel : Nat) (h : programEnded s = true) : runProgram fuel s = some s := by
  cases fuel <;> simp [runProgram, h]

theorem runProgram_succ {s t : State} (fuel : Nat) (h : programEnded s = false) (ht : step s = .next t) :
    runProgram (fuel + 1) s = runProgram fuel t := by
  simp [runProgram, h, ht]

/-- Events that bring the stages to their end bring HostEnc to its end. -/
theorem runProgram_ends {s₀ s : State} {p : Block} {st : EncStage} {fuel i : Nat} {es rest : List Event}
    (h : st.Holds s₀ p s) (ha : s.agenda = es ++ rest) (ho : ∀ e ∈ es, e.isOrdinary = true)
    (hfuel : es.length ≤ fuel) (hi : 16 ≤ i) (hend : es.foldl EncStage.advance st = .reading i) :
    ∃ t j, 16 ≤ j ∧ runProgram fuel s = some t ∧ (EncStage.reading j).Holds s₀ p t := by
  induction es generalizing s st fuel with
  | nil =>
    obtain rfl : st = .reading i := hend
    exact ⟨s, i, hi, runProgram_of_ended fuel ((programEnded_iff h).2 ⟨i, hi, rfl⟩), h⟩
  | cons e es ih =>
    cases hp : programEnded s with
    | true =>
      obtain ⟨j, hj, rfl⟩ := (programEnded_iff h).1 hp
      exact ⟨s, j, hj, runProgram_of_ended fuel hp, h⟩
    | false =>
      obtain ⟨f, rfl⟩ : ∃ f, fuel = f + 1 := ⟨fuel - 1, by simp at hfuel; omega⟩
      have ha' : s.agenda = e :: (es ++ rest) := ha
      have he : s.nextEvent = e := nextEvent_of_cons ha'
      obtain ⟨hoe, hoes⟩ := List.forall_mem_cons.1 ho
      obtain ⟨t, ht, hht⟩ := holds_advance h (he ▸ hoe)
      have hat : t.agenda = es ++ rest := by
        rw [(step_environment ht).1, popped_of_cons ha', setAgenda_agenda]
      rw [runProgram_succ f hp ht]
      exact ih hht hat hoes (by simpa using hfuel) (he ▸ hend)

/-! ### The turns a HostEnc needs -/

/-- The turns of the host until ENC is accepted. -/
def EncStage.turnsToEnc : EncStage → Nat
  | .writing i => 16 - i + 1
  | .encrypting => 0
  | .encrypted => 0
  | .reading _ => 0

/-- The turns of the host until the result is read: at most 17 once ENC is complete, and more than that before. -/
def EncStage.turnsToEnd : EncStage → Nat
  | .writing _ => 18
  | .encrypting => 18
  | .encrypted => 17
  | .reading i => 16 - i

theorem hostTurns_cons (e : Event) (es : List Event) : hostTurns (e :: es) = hostTurns [e] + hostTurns es :=
  List.countP_append (l₁ := [e])

/-- The host's turn brings ENC one turn nearer, and no other event puts it off. -/
theorem turnsToEnc_advance (st : EncStage) (e : Event) :
    (st.advance e).turnsToEnc ≤ st.turnsToEnc - hostTurns [e] := by
  cases st with
  | writing i =>
    cases e with
    | host =>
      have hturn : hostTurns [.host] = 1 := rfl
      by_cases hi : i < 16
      · rw [EncStage.advance, if_pos hi, EncStage.turnsToEnc, EncStage.turnsToEnc]
        omega
      · rw [EncStage.advance, if_neg hi]
        exact Nat.zero_le _
    | _ => exact Nat.le_refl _
  | _ => cases e <;> exact Nat.zero_le _

/-- Once ENC is complete the host's turn brings the end one turn nearer, and no other event puts it off. -/
theorem turnsToEnd_advance {st : EncStage} (h : st.turnsToEnd ≤ 17) (e : Event) :
    (st.advance e).turnsToEnd ≤ st.turnsToEnd - hostTurns [e] := by
  cases st with
  | writing i => exact absurd h (by simp [EncStage.turnsToEnd])
  | encrypting => exact absurd h (by simp [EncStage.turnsToEnd])
  | encrypted => cases e <;> exact Nat.le_refl _
  | reading i =>
    cases e with
    | host => exact Nat.le_of_eq (Nat.sub_add_eq 16 i 1)
    | _ => exact Nat.le_refl _

theorem turnsToEnc_foldl (es : List Event) (st : EncStage) :
    (es.foldl EncStage.advance st).turnsToEnc ≤ st.turnsToEnc - hostTurns es := by
  induction es generalizing st with
  | nil => exact Nat.le_refl _
  | cons e es ih =>
    have h₁ := turnsToEnc_advance st e
    have h₂ := ih (st.advance e)
    rw [List.foldl_cons, hostTurns_cons]
    omega

theorem turnsToEnd_foldl (es : List Event) {st : EncStage} (h : st.turnsToEnd ≤ 17) :
    (es.foldl EncStage.advance st).turnsToEnd ≤ st.turnsToEnd - hostTurns es := by
  induction es generalizing st with
  | nil => exact Nat.le_refl _
  | cons e es ih =>
    have h₁ := turnsToEnd_advance h e
    have h₂ := ih (st := st.advance e) (by omega)
    rw [List.foldl_cons, hostTurns_cons]
    omega

/-- The engine's move completes an accepted ENC. -/
theorem turnsToEnd_advance_engine {st : EncStage} (h : st.turnsToEnc = 0) :
    (st.advance .engine).turnsToEnd ≤ 17 := by
  cases st with
  | writing i => exact absurd h (Nat.succ_ne_zero _)
  | encrypting => exact Nat.le_refl 17
  | encrypted => exact Nat.le_refl 17
  | reading i => exact Nat.le_trans (Nat.sub_le 16 i) (by decide)

theorem eq_reading_of_turnsToEnd {st : EncStage} (h : st.turnsToEnd = 0) : ∃ i, 16 ≤ i ∧ st = .reading i := by
  cases st with
  | reading i => exact ⟨i, Nat.le_of_sub_eq_zero h, rfl⟩
  | _ => simp [EncStage.turnsToEnd] at h

/-- Seventeen turns of the host, the engine's move, and seventeen turns more bring every stage to the end. -/
theorem foldl_advance_ends (st : EncStage) {es es' : List Event} (h : 17 ≤ hostTurns es) (h' : 17 ≤ hostTurns es') :
    ∃ i, 16 ≤ i ∧ (es ++ .engine :: es').foldl EncStage.advance st = .reading i := by
  have hst : st.turnsToEnc ≤ 17 := by
    cases st <;> simp only [EncStage.turnsToEnc] <;> omega
  have henc := turnsToEnc_foldl es st
  have hengine := turnsToEnd_advance_engine (st := es.foldl EncStage.advance st) (by omega)
  have hend := turnsToEnd_foldl es' hengine
  rw [List.foldl_append, List.foldl_cons]
  exact eq_reading_of_turnsToEnd (by omega)

/-! ### The result -/

theorem hostEnc_of_run {fuel : Nat} {p : Block} {s t : State}
    (h : runProgram fuel (loadProg (hostEncProg p) s) = some t) :
    hostEnc fuel p s = some (blockOfList (lastReads 16 t), t) := by
  simp [hostEnc, h]

theorem lastReads_of_append {s : State} {earlier l : List Byte} (h : s.host.reads = earlier ++ l) :
    lastReads l.length s = l := by
  simp [lastReads, h]

theorem blockOfList_toList (b : Block) : blockOfList b.toList = b := by
  ext i hi
  simp [blockOfList]

theorem holds_loadProg {s : State} (p : Block) (h : s.ready) :
    (EncStage.writing 0).Holds s p (loadProg (hostEncProg p) s) :=
  ⟨h.1, rfl, rfl, by simp [loadProg, EncStage.prog, hostEncProg], h.2, nofun⟩

/-- At the last stage the host's last sixteen reads are the ciphertext. -/
theorem lastReads_of_reading {s₀ s : State} {p : Block} {i : Nat} (hi : 16 ≤ i)
    (h : (EncStage.reading i).Holds s₀ p s) : blockOfList (lastReads 16 s) = aes128 s₀.key p := by
  obtain ⟨_, _, earlier, hreads⟩ := h.block
  rw [List.take_of_length_le (by simpa using hi)] at hreads
  have hlast := lastReads_of_append hreads
  rw [Vector.length_toList] at hlast
  rw [hlast, blockOfList_toList]

/-- Settles O51: the turns bring the stages to their end, so the run ends there, with the result read. -/
theorem hostEncEndsUnderFairAgenda : Obligations.HostEncEndsUnderFairAgenda := by
  unfold Obligations.HostEncEndsUnderFairAgenda
  intro fuel p s es es' rest hs ha ho h h' hfuel
  obtain ⟨i, hi, hend⟩ := foldl_advance_ends (.writing 0) h h'
  have ha' : (loadProg (hostEncProg p) s).agenda = (es ++ .engine :: es') ++ rest := by
    simpa [loadProg] using ha
  have ho' : ∀ e ∈ es ++ .engine :: es', e.isOrdinary = true := by
    simp only [List.mem_append, List.mem_cons] at ho ⊢
    rintro e (he | rfl | he)
    · exact ho e (.inl he)
    · rfl
    · exact ho e (.inr he)
  obtain ⟨t, j, hj, hrun, hlast⟩ :=
    runProgram_ends (fuel := fuel) (holds_loadProg p hs) ha' ho' (by simp; omega) hi hend
  exact ⟨t, by rw [hostEnc_of_run hrun, lastReads_of_reading hj hlast]⟩

end Sys2Proof.Machine
end

section
/-!
PROOFS. What a step does to the block, said once with the steps that do nothing to it taken together: which steps change a
register (spec/10_state.md R21, R22, R25, R26, R30), and that every step keeps the invariant of R35.
-/

namespace Sys2Proof.Machine

/-! ### What a step does to the block -/

/-- From the one state to the other the block has done nothing: the host and the environment have moved on, and the
reset pin may have been released. -/
def BlockUntouched (s t : State) : Prop :=
  ∃ rstN host agenda freeNext, (s.rstN = true → rstN = true) ∧
    t = { s with rstN := rstN, host := host, agenda := agenda, freeNext := freeNext }

theorem blockUntouched_popped (s : State) : BlockUntouched s s.popped := ⟨_, _, _, _, id, popped_eq s⟩

/-- The ways a step can end in a next state: nothing has happened to the block, or it is reset, completes a command, takes
a sample of its seed, or is written. -/
inductive StepResult (s : State) : State → Prop where
  | untouched {t : State} : BlockUntouched s t → StepResult s t
  | reset : s.nextEvent = .resetPin false → StepResult s (setResetPin false s.popped)
  | enc : s.nextEvent = .engine → s.rstN = true → s.op = .enc → StepResult s (encComplete s.popped)
  | u8 : s.nextEvent = .engine → s.rstN = true → s.op = .u8 → StepResult s (u8Complete s.popped)
  | u16 : s.nextEvent = .engine → s.rstN = true → s.op = .u16 → StepResult s (u16Complete s.popped)
  | sample (x : Byte) : s.nextEvent = .sample x → s.rstN = true → s.op = .seed →
      StepResult s (consumeSample x s.popped)
  | write {t : State} (off v : Byte) (p : List BusOp) : s.nextWrite = some (off, v) →
      WriteResult off v (setProg p s.popped) t → StepResult s t

theorem stepResult_of_step {s t : State} (h : step s = .next t) : StepResult s t := by
  have hk := blockUntouched_popped s
  rcases step_cases h with ⟨_, ⟨_, rfl⟩ | ⟨p, v, rfl⟩ | ⟨off, v, p, hn, hw⟩⟩ | ⟨he, rfl⟩ | ⟨x, he, rfl⟩ |
    ⟨level, he, rfl⟩
  · exact .untouched hk
  · exact .untouched ⟨_, _, _, _, id, by rw [popped_eq]⟩
  · exact .write off v p hn hw
  · rcases engineStep_cases s.popped with h | ⟨hr, ho, h⟩ | ⟨hr, ho, h⟩ | ⟨hr, ho, h⟩ <;> rw [h]
    · exact .untouched hk
    · exact .enc he (by simpa using hr) (by simpa using ho)
    · exact .u8 he (by simpa using hr) (by simpa using ho)
    · exact .u16 he (by simpa using hr) (by simpa using ho)
  · cases hn : s.popped.noiseReq with
    | false => exact .untouched (by simpa [offerSample, hn] using hk)
    | true =>
      obtain ⟨hr, ho⟩ : s.rstN = true ∧ s.op = .seed := by simpa [State.noiseReq] using hn
      rw [offerSample_of_seeding x (by simpa using hr) (by simpa using ho)]
      exact .sample x he hr ho
  · cases level with
    | false => exact .reset he
    | true => exact .untouched ⟨_, _, _, _, fun _ => rfl, by rw [popped_eq]; rfl⟩

@[simp] theorem ready_setProg_popped (p : List BusOp) (s : State) : (setProg p s.popped).ready ↔ s.ready := by
  simp [State.ready]

/-! ### What a completion leaves unchanged -/

@[simp] theorem encComplete_key (s : State) : (encComplete s).key = s.key := rfl
@[simp] theorem encComplete_error (s : State) : (encComplete s).error = s.error := rfl
@[simp] theorem encComplete_rngOutLo (s : State) : (encComplete s).rngOutLo = s.rngOutLo := rfl
@[simp] theorem encComplete_rngOutHi (s : State) : (encComplete s).rngOutHi = s.rngOutHi := rfl
@[simp] theorem encComplete_rstN (s : State) : (encComplete s).rstN = s.rstN := rfl
@[simp] theorem encComplete_data (s : State) : (encComplete s).data = aes128 s.key s.data := rfl
@[simp] theorem encComplete_op (s : State) : (encComplete s).op = .none := rfl
@[simp] theorem u8Complete_key (s : State) : (u8Complete s).key = s.key := by
  simp [u8Complete, u8CompleteWith]
@[simp] theorem u8Complete_data (s : State) : (u8Complete s).data = s.data := by
  simp [u8Complete, u8CompleteWith]
@[simp] theorem u8Complete_error (s : State) : (u8Complete s).error = s.error := by
  simp [u8Complete, u8CompleteWith]
@[simp] theorem u8Complete_rstN (s : State) : (u8Complete s).rstN = s.rstN := by
  simp [u8Complete, u8CompleteWith]
@[simp] theorem u8Complete_op (s : State) : (u8Complete s).op = .none := rfl
@[simp] theorem u16Complete_key (s : State) : (u16Complete s).key = s.key := by
  simp [u16Complete, u16CompleteWith]
@[simp] theorem u16Complete_data (s : State) : (u16Complete s).data = s.data := by
  simp [u16Complete, u16CompleteWith]
@[simp] theorem u16Complete_error (s : State) : (u16Complete s).error = s.error := by
  simp [u16Complete, u16CompleteWith]
@[simp] theorem u16Complete_rstN (s : State) : (u16Complete s).rstN = s.rstN := by
  simp [u16Complete, u16CompleteWith]
@[simp] theorem u16Complete_op (s : State) : (u16Complete s).op = .none := rfl

/-! ### What a host write changes -/

theorem WriteResult.key_cases {off v : Byte} {s t : State} (h : WriteResult off v s t) :
    t.key = s.key ∨ ∃ i, off = keyOffset i ∧ s.ready ∧ t.key = s.key.set i v := by
  cases h with
  | key i ho hr => exact .inr ⟨i, ho, hr, rfl⟩
  | _ => exact .inl (by simp)

theorem WriteResult.data_cases {off v : Byte} {s t : State} (h : WriteResult off v s t) :
    t.data = s.data ∨ ∃ i, off = dataOffset i ∧ s.ready ∧ t.data = s.data.set i v := by
  cases h with
  | data i ho hr => exact .inr ⟨i, ho, hr, rfl⟩
  | _ => exact .inl (by simp)

theorem WriteResult.rngOut_eq {off v : Byte} {s t : State} (h : WriteResult off v s t) :
    t.rngOutLo = s.rngOutLo ∧ t.rngOutHi = s.rngOutHi := by
  cases h <;> simp

/-- A write accepts a command on an idle block only. -/
theorem WriteResult.op_of_busy {off v : Byte} {s t : State} (h : WriteResult off v s t) (hs : s.op ≠ .none) :
    t.op = s.op := by
  cases h with
  | accepted _ _ hr _ _ => exact absurd hr.2 hs
  | _ => simp

/-- A flag's mask is one bit. -/
theorem and_mask_eq_mask {f : ErrFlag} {v : Byte} (h : (v &&& f.mask == 0x00) = false) : v &&& f.mask = f.mask := by
  cases f <;> revert v <;> decide +kernel

theorem errorSet_congr {s t : State} (h : t.error = s.error) (f : ErrFlag) : t.errorSet f = s.errorSet f := by
  rw [State.errorSet, h, State.errorSet]

/-- A write that clears an ERROR flag is the write of a 1 to its bit. -/
theorem WriteResult.errorSet_cleared {off v : Byte} {s t : State} {f : ErrFlag} (h : WriteResult off v s t)
    (hs : s.errorSet f = true) (ht : t.errorSet f = false) : off = 0x02 ∧ v &&& f.mask = f.mask := by
  cases h with
  | cleared ho _ =>
    rw [errorSet_clearErrors, hs, Bool.true_and] at ht
    exact ⟨ho, and_mask_eq_mask ht⟩
  | rejectedBusy _ _ => simp [errorSet_raise, hs] at ht
  | rejectedIllegal _ _ _ => simp [errorSet_raise, hs] at ht
  | rejectedUnseeded _ _ _ _ => simp [errorSet_raise, hs] at ht
  | _ => exact absurd hs (by simpa [State.errorSet] using ht)

/-! ### Which steps change a register -/

/-- Settles O19: no step but a reset and a write touches ERROR, and a write clears a flag by a 1 to its bit. -/
theorem errorFlagIsSticky : Obligations.ErrorFlagIsSticky := by
  unfold Obligations.ErrorFlagIsSticky
  intro s t f h hs ht
  have hne : t.error ≠ s.error := fun he => by simp [errorSet_congr he, hs] at ht
  cases stepResult_of_step h with
  | untouched hk => obtain ⟨_, _, _, _, _, rfl⟩ := hk; exact absurd rfl hne
  | reset he => exact .inl he
  | enc => exact absurd (by simp) hne
  | u8 => exact absurd (by simp) hne
  | u16 => exact absurd (by simp) hne
  | sample => exact absurd (by simp) hne
  | write off v p hn hw =>
    obtain ⟨rfl, hv⟩ := hw.errorSet_cleared ((errorSet_congr (popped_error s) f).trans hs) ht
    exact .inr ⟨v, hn, hv⟩

/-- Settles O25: no step but a reset and a write touches KEY. -/
theorem keyChangesOnlyByHostWrite : Obligations.KeyChangesOnlyByHostWrite := by
  unfold Obligations.KeyChangesOnlyByHostWrite
  intro s t h hne
  cases stepResult_of_step h with
  | untouched hk => obtain ⟨_, _, _, _, _, rfl⟩ := hk; exact absurd rfl hne
  | reset he => exact .inl he
  | enc => exact absurd (by simp) hne
  | u8 => exact absurd (by simp) hne
  | u16 => exact absurd (by simp) hne
  | sample => exact absurd (by simp) hne
  | write off v p hn hw =>
    rcases hw.key_cases with hk | ⟨i, rfl, hr, hk⟩
    · exact absurd (by simpa using hk) hne
    · exact .inr ⟨i, v, hn, by simpa using hr, by simpa using hk⟩

/-- Settles O26: the step is a reset, ENC's completion, or a write to a DATA offset. -/
theorem dataChangesOnlyByHostWriteAndEnc : Obligations.DataChangesOnlyByHostWriteAndEnc := by
  unfold Obligations.DataChangesOnlyByHostWriteAndEnc
  intro s t h hne
  cases stepResult_of_step h with
  | untouched hk => obtain ⟨_, _, _, _, _, rfl⟩ := hk; exact absurd rfl hne
  | reset he => exact .inl he
  | enc he _ ho => exact .inr (.inl ⟨he, ho, by simp⟩)
  | u8 => exact absurd (by simp) hne
  | u16 => exact absurd (by simp) hne
  | sample => exact absurd (by simp) hne
  | write off v p hn hw =>
    rcases hw.data_cases with hk | ⟨i, rfl, hr, hk⟩
    · exact absurd (by simpa using hk) hne
    · exact .inr (.inr ⟨i, v, hn, by simpa using hr, by simpa using hk⟩)

/-- Settles O27: no step but a reset and a draw's completion touches RNG_OUT. -/
theorem drawResultChangesOnlyByDraws : Obligations.DrawResultChangesOnlyByDraws := by
  unfold Obligations.DrawResultChangesOnlyByDraws
  intro s t h hchanged
  have hne : ¬ (t.rngOutLo = s.rngOutLo ∧ t.rngOutHi = s.rngOutHi) := not_and_or.2 hchanged
  cases stepResult_of_step h with
  | untouched hk => obtain ⟨_, _, _, _, _, rfl⟩ := hk; exact absurd ⟨rfl, rfl⟩ hne
  | reset he => exact .inl he
  | enc => exact absurd (by simp) hne
  | u8 he _ ho => exact .inr ⟨he, .inl ho⟩
  | u16 he _ ho => exact .inr ⟨he, .inr ho⟩
  | sample => exact absurd (by simp) hne
  | write off v p _ hw => exact absurd (by simpa using hw.rngOut_eq) hne

/-- Settles O29: a write to a busy block accepts nothing, and a completion, the last sample of a seed or a reset leaves no
command in flight. -/
theorem commandInFlightIsExclusive : Obligations.CommandInFlightIsExclusive := by
  unfold Obligations.CommandInFlightIsExclusive
  intro s t h hs hne
  cases stepResult_of_step h with
  | untouched hk => obtain ⟨_, _, _, _, _, rfl⟩ := hk; exact absurd rfl hne
  | reset he => exact ⟨rfl, .inl he⟩
  | enc he _ ho => exact ⟨rfl, .inr (.inl ⟨he, by simp [ho]⟩)⟩
  | u8 he _ ho => exact ⟨rfl, .inr (.inl ⟨he, by simp [ho]⟩)⟩
  | u16 he _ ho => exact ⟨rfl, .inr (.inl ⟨he, by simp [ho]⟩)⟩
  | sample x he _ ho =>
    rcases consumeSample_cases x s.popped with ⟨hop, _⟩ | ⟨hop, _⟩
    · exact absurd (by simpa using hop) hne
    · exact ⟨hop, .inr (.inr ⟨⟨x, he⟩, ho⟩)⟩
  | write off v p _ hw => exact absurd (by simpa using hw.op_of_busy (by simpa using hs)) hne

/-! ### The invariant -/

/-- Clauses (a), (c) and (e) hold by the types of the state; out of reset the others are these. -/
theorem inv_of_running {s : State} (hr : s.rstN = true)
    (hseed : s.op = .seed → s.seeded = false ∧ 1 ≤ s.byteptr.val ∧ s.byteptr.val ≤ 15)
    (hdraw : s.op = .u8 ∨ s.op = .u16 → s.seeded = true) (hdone : s.done = true → s.op = .none)
    (herror : s.error &&& 0xF8 = 0x00) : s.Inv where
  busy_iff := by rw [statusByte_bit0, busy_eq_true_iff]
  seeding_unseeded h := (hseed h).1
  idx_le := Nat.le_of_lt_succ s.idx.isLt
  byteptr_range h := (hseed h).2
  bitcnt_le := Nat.le_of_lt_succ s.bitcnt.isLt
  drawing_seeded := hdraw
  done_idle := hdone
  error_reserved := herror
  held_in_reset h := by simp [hr] at h

theorem State.Inv.seeding {s : State} (h : s.Inv) (hop : s.op = .seed) :
    s.seeded = false ∧ 1 ≤ s.byteptr.val ∧ s.byteptr.val ≤ 15 :=
  ⟨h.seeding_unseeded hop, h.byteptr_range hop⟩

/-- An idle block out of reset meets the invariant if its ERROR register does. -/
theorem inv_of_ready {s : State} (h : s.ready) (herror : s.error &&& 0xF8 = 0x00) : s.Inv :=
  inv_of_running h.1 (by simp [h.2]) (by simp [h.2]) (fun _ => h.2) herror

theorem BlockUntouched.inv {s t : State} (h : BlockUntouched s t) (hs : s.Inv) : t.Inv := by
  obtain ⟨rstN, _, _, _, hr, rfl⟩ := h
  exact { hs with held_in_reset := fun h => hs.held_in_reset (by cases hs' : s.rstN <;> simp_all) }

theorem atResetValues_reset : State.reset.atResetValues := by
  simp [State.atResetValues, State.reset]

/-- In reset the block holds its reset values, whatever it did before (R260). -/
theorem atResetValues_setResetPin (s : State) : (setResetPin false s).atResetValues := atResetValues_reset

theorem inv_setResetPin (s : State) : (setResetPin false s).Inv :=
  { inv_of_ready (s := State.reset) ⟨rfl, rfl⟩ rfl with
    held_in_reset := fun _ => atResetValues_setResetPin s }

/-- Raising a flag sets no reserved bit of ERROR. -/
theorem raise_error_reserved (f : ErrFlag) {s : State} (h : s.error &&& 0xF8 = 0x00) :
    (raise f s).error &&& 0xF8 = 0x00 := by
  have hm : f.mask &&& 0xF8 = 0x00 := by cases f <;> rfl
  rw [raise_error, BitVec.and_or_distrib_right, h, hm]; rfl

theorem raise_inv (f : ErrFlag) {s : State} (hr : s.rstN = true) (h : s.Inv) : (raise f s).Inv :=
  inv_of_running hr h.seeding h.drawing_seeded h.done_idle (raise_error_reserved f h.error_reserved)

theorem clearErrors_inv (v : Byte) {s : State} (hr : s.rstN = true) (h : s.Inv) : (clearErrors v s).Inv := by
  refine inv_of_running hr h.seeding h.drawing_seeded h.done_idle ?_
  rw [clearErrors_error, BitVec.and_assoc, BitVec.and_comm (~~~_), ← BitVec.and_assoc, h.error_reserved]
  exact BitVec.zero_and

theorem accept_inv {op : Op} {s : State} (hr : s.rstN = true) (h : s.Inv)
    (hdraw : op = .u8 ∨ op = .u16 → s.seeded = true) : (accept op s).Inv := by
  refine inv_of_running (by simpa using hr) ?_ ?_ (by simp) (by simpa using h.error_reserved)
  · intro hop
    obtain rfl : op = .seed := by simpa using hop
    simp
  · intro hop
    have hop' : op = .u8 ∨ op = .u16 := by simpa using hop
    rcases hop' with rfl | rfl <;> simpa using hdraw (by simp)

/-- Whatever a write does, it keeps the invariant. -/
theorem WriteResult.inv {off v : Byte} {s t : State} (h : WriteResult off v s t) (hs : s.Inv) : t.Inv := by
  cases h with
  | unchanged => exact hs
  | cleared _ hr => exact clearErrors_inv v hr hs
  | rejectedBusy _ hf => exact raise_inv .busy hf.1 hs
  | rejectedIllegal _ hr _ => exact raise_inv .illegal hr.1 hs
  | rejectedUnseeded _ hr _ _ => exact raise_inv .unseeded hr.1 hs
  | accepted _ _ hr _ hdraw => exact accept_inv hr.1 hs hdraw
  | key _ _ hr => exact inv_of_ready hr hs.error_reserved
  | data _ _ hr => exact inv_of_ready hr hs.error_reserved

/-- A sample of the seed in flight keeps the pointer in range, or completes the seed. -/
theorem consumeSample_inv (x : Byte) {s : State} (hr : s.rstN = true) (hop : s.op = .seed) (h : s.Inv) :
    (consumeSample x s).Inv := by
  obtain ⟨hunseeded, hlow, hhigh⟩ := h.seeding hop
  have hrun : (consumeSample x s).rstN = true := by simpa using hr
  have herror : (consumeSample x s).error &&& 0xF8 = 0x00 := by simpa using h.error_reserved
  rcases consumeSample_cases x s with ⟨hop', hs', hd', _, hp⟩ | ⟨hop', _⟩
  · refine inv_of_running hrun (fun _ => ⟨hs'.trans hunseeded, by omega⟩) ?_ ?_ herror
    · simp [hop', hop]
    · intro hd
      simpa [hop', hop] using h.done_idle (hd' ▸ hd)
  · exact inv_of_ready ⟨hrun, hop'⟩ herror

/-- Settles O43: by the ways a step can end, each of which keeps the clauses it touches. -/
theorem stepKeepsInvariant : Obligations.StepKeepsInvariant := by
  unfold Obligations.StepKeepsInvariant
  intro s t hs h
  have hpopped : s.popped.Inv := (blockUntouched_popped s).inv hs
  have herror := hs.error_reserved
  cases stepResult_of_step h with
  | untouched hk => exact hk.inv hs
  | reset _ => exact inv_setResetPin s.popped
  | enc _ hr _ => exact inv_of_ready ⟨by simpa using hr, rfl⟩ (by simpa using herror)
  | u8 _ hr _ => exact inv_of_ready ⟨by simpa using hr, rfl⟩ (by simpa using herror)
  | u16 _ hr _ => exact inv_of_ready ⟨by simpa using hr, rfl⟩ (by simpa using herror)
  | sample x _ hr ho => exact consumeSample_inv x (by simpa using hr) (by simpa using ho) hpopped
  | write off v p _ hw => exact hw.inv (BlockUntouched.inv ⟨_, _, _, _, id, rfl⟩ hpopped)

/-- Settles O42: every register of the reset state is written out in the model. -/
theorem resetStateSatisfiesInvariant : Obligations.ResetStateSatisfiesInvariant := by
  unfold Obligations.ResetStateSatisfiesInvariant
  exact ⟨atResetValues_reset, ⟨rfl, rfl⟩, inv_of_ready ⟨rfl, rfl⟩ rfl⟩

end Sys2Proof.Machine
end

section
/-!
PROOFS. One step taken from two states that differ in KEY or in the datapath's registers only: every operation of the
block keeps them so, and what the host reads is the same (spec/10_state.md R21, R31, spec/20_memory.md R53).
-/

namespace Sys2Proof.Machine

/-- The state with another key and other datapath registers. -/
def State.withHidden (k : Block) (w : CipherWork) (s : State) : State := { s with key := k, work := w }

/-- The states agree but for KEY, where `keyHidden` holds, and for the datapath's registers, where `workHidden` holds. -/
def AgreeBut (keyHidden workHidden : Prop) (a b : State) : Prop :=
  ∃ k w, (keyHidden ∨ k = a.key) ∧ (workHidden ∨ w = a.work) ∧ b = a.withHidden k w

theorem agreeBut_key_iff {a b : State} : AgreeBut True False a b ↔ b = { a with key := b.key } := by
  refine ⟨?_, fun h => ⟨b.key, a.work, .inl trivial, .inr rfl, h⟩⟩
  rintro ⟨k, w, -, hw, rfl⟩
  obtain rfl : w = a.work := hw.resolve_left id
  rfl

theorem agreeBut_work_iff {a b : State} : AgreeBut False True a b ↔ b = { a with work := b.work } := by
  refine ⟨?_, fun h => ⟨a.key, b.work, .inr rfl, .inl trivial, h⟩⟩
  rintro ⟨k, w, hk, -, rfl⟩
  obtain rfl : k = a.key := hk.resolve_left id
  rfl

/-! ### Operations that neither read nor write KEY and the datapath -/

theorem accept_withHidden (op : Op) (k : Block) (w : CipherWork) (s : State) :
    accept op (s.withHidden k w) = (accept op s).withHidden k w := by
  cases op <;> rfl

theorem storeByte_withHidden (v : Byte) (k : Block) (w : CipherWork) (s : State) :
    storeByte v (s.withHidden k w) = (storeByte v s).withHidden k w := by
  have hptr : (s.withHidden k w).byteptr = s.byteptr := rfl
  simp only [storeByte, hptr]
  split <;> rfl

theorem keepBit_withHidden (c : Bool) (k : Block) (w : CipherWork) (s : State) :
    keepBit c (s.withHidden k w) = (keepBit c s).withHidden k w := by
  have hcnt : (s.withHidden k w).bitcnt = s.bitcnt := rfl
  simp only [keepBit, hcnt]
  split
  · exact congrArg (fun t : State => { t with shift := 0x00, bitcnt := 0 })
      (storeByte_withHidden ((s.shift <<< 1) ||| bitByte c) k w { s with shift := (s.shift <<< 1) ||| bitByte c })
  · rfl

theorem consumeSample_withHidden (x : Byte) (k : Block) (w : CipherWork) (s : State) :
    consumeSample x (s.withHidden k w) = (consumeSample x s).withHidden k w := by
  have hhave : (s.withHidden k w).nsHave = s.nsHave := rfl
  have hfirst : (s.withHidden k w).nsFirst = s.nsFirst := rfl
  simp only [consumeSample, hhave, hfirst]
  split
  · split
    · rfl
    · exact keepBit_withHidden (noiseBitOf x) k w { s with nsHave := false }
  · rfl

theorem offerSample_withHidden (x : Byte) (k : Block) (w : CipherWork) (s : State) :
    offerSample x (s.withHidden k w) = (offerSample x s).withHidden k w := by
  have hreq : (s.withHidden k w).noiseReq = s.noiseReq := rfl
  simp only [offerSample, hreq]
  split
  · exact consumeSample_withHidden x k w s
  · rfl

/-- The host reads the same byte: no read returns KEY or a register of the datapath (R21, R53). -/
theorem hostRead_withHidden (off : Byte) (k : Block) (w : CipherWork) (s : State) :
    hostRead off (s.withHidden k w) = hostRead off s := by
  have hrst : (s.withHidden k w).rstN = s.rstN := rfl
  simp only [hostRead, hrst]
  cases windowReg off <;> rfl

theorem readToHost_withHidden (off : Byte) (k : Block) (w : CipherWork) (s : State) :
    readToHost off (s.withHidden k w) = (readToHost off s).withHidden k w := by
  rw [readToHost, hostRead_withHidden]; rfl

theorem pollOnce_withHidden (off mask val : Byte) (k : Block) (w : CipherWork) (s : State) :
    pollOnce off mask val (s.withHidden k w) = (pollOnce off mask val s).withHidden k w := by
  simp only [pollOnce, hostRead_withHidden, readToHost_withHidden]
  split <;> rfl

theorem popped_withHidden (k : Block) (w : CipherWork) (s : State) :
    (s.withHidden k w).popped = s.popped.withHidden k w := by
  have hagenda : (s.withHidden k w).agenda = s.agenda := rfl
  simp only [State.popped, hagenda]
  split <;> rfl

/-! ### Every operation keeps the agreement -/

section
variable {keyHidden workHidden : Prop} {a b : State}

theorem AgreeBut.refl (s : State) : AgreeBut keyHidden workHidden s s := ⟨_, _, .inr rfl, .inr rfl, rfl⟩

theorem AgreeBut.of_commutes {f : State → State} (hf : ∀ k w s, f (s.withHidden k w) = (f s).withHidden k w)
    (hkey : (f a).key = a.key) (hwork : (f a).work = a.work) (h : AgreeBut keyHidden workHidden a b) :
    AgreeBut keyHidden workHidden (f a) (f b) := by
  obtain ⟨k, w, hk, hw, rfl⟩ := h
  exact ⟨k, w, hkey ▸ hk, hwork ▸ hw, hf k w a⟩

theorem AgreeBut.raise (f : ErrFlag) (h : AgreeBut keyHidden workHidden a b) :
    AgreeBut keyHidden workHidden (raise f a) (raise f b) :=
  h.of_commutes (fun _ _ _ => rfl) rfl rfl

theorem AgreeBut.accept (op : Op) (h : AgreeBut keyHidden workHidden a b) :
    AgreeBut keyHidden workHidden (accept op a) (accept op b) :=
  h.of_commutes (accept_withHidden op) (accept_key op a) (accept_work op a)

theorem AgreeBut.acceptDraw (op : Op) (h : AgreeBut keyHidden workHidden a b) :
    AgreeBut keyHidden workHidden (acceptDraw op a) (acceptDraw op b) := by
  have hseeded : b.seeded = a.seeded := by obtain ⟨_, _, _, _, rfl⟩ := h; rfl
  simp only [Machine.acceptDraw, hseeded]
  split
  · exact h.accept op
  · exact h.raise .unseeded

theorem AgreeBut.commandEffect (i : Instr) (h : AgreeBut keyHidden workHidden a b) :
    AgreeBut keyHidden workHidden (commandEffect i a) (commandEffect i b) := by
  cases i with
  | nop => exact h
  | enc => exact h.accept .enc
  | rngSeed => exact h.accept .seed
  | rngU8 => exact h.acceptDraw .u8
  | rngU16 => exact h.acceptDraw .u16

theorem AgreeBut.setKey (i : Fin 16) (v : Byte) (h : AgreeBut keyHidden workHidden a b) :
    AgreeBut keyHidden workHidden (setKey i v a) (setKey i v b) := by
  obtain ⟨k, w, hk, hw, rfl⟩ := h
  exact ⟨k.set i v, w, hk.imp_right (by rintro rfl; rfl), hw, rfl⟩

/-- The guards of a write read `rst_n` and OP only. -/
theorem AgreeBut.whenRunning {f : State → State} (hf : AgreeBut keyHidden workHidden (f a) (f b))
    (h : AgreeBut keyHidden workHidden a b) : AgreeBut keyHidden workHidden (whenRunning f a) (whenRunning f b) := by
  have hrst : b.rstN = a.rstN := by obtain ⟨_, _, _, _, rfl⟩ := h; rfl
  simp only [Machine.whenRunning, hrst]
  split
  · exact hf
  · exact h

theorem AgreeBut.whenIdle {f : State → State} (hf : AgreeBut keyHidden workHidden (f a) (f b))
    (h : AgreeBut keyHidden workHidden a b) : AgreeBut keyHidden workHidden (whenIdle f a) (whenIdle f b) := by
  have hbusy : b.busy = a.busy := by obtain ⟨_, _, _, _, rfl⟩ := h; rfl
  refine AgreeBut.whenRunning ?_ h
  simp only [hbusy]
  split
  · exact h.raise .busy
  · exact hf

/-- A reset leaves nothing of KEY, and free values in the datapath. -/
theorem AgreeBut.setResetPin (level : Bool) (h : AgreeBut keyHidden workHidden a b) :
    AgreeBut keyHidden workHidden (setResetPin level a) (setResetPin level b) := by
  cases level with
  | true => exact h.of_commutes (fun _ _ _ => rfl) rfl rfl
  | false => obtain ⟨_, _, _, _, rfl⟩ := h; exact .refl _

/-! ### The engine -/

/-- ENC's completion computes from KEY, so the keys must be the same. -/
theorem AgreeBut.encComplete (h : AgreeBut keyHidden workHidden a b) (hkey : ¬ keyHidden) :
    AgreeBut keyHidden workHidden (encComplete a) (encComplete b) := by
  obtain ⟨k, w, hk, -, rfl⟩ := h
  obtain rfl : k = a.key := hk.resolve_left hkey
  exact ⟨_, _, .inr rfl, .inr rfl, rfl⟩

/-- A draw gives the same byte: it reads POOL and IDX only. -/
theorem AgreeBut.rngDraw (h : AgreeBut keyHidden workHidden a b) :
    (rngDraw b).1 = (rngDraw a).1 ∧ AgreeBut keyHidden workHidden (rngDraw a).2 (rngDraw b).2 := by
  have hidx : b.idx = a.idx := by obtain ⟨_, _, _, _, rfl⟩ := h; rfl
  unfold Machine.rngDraw
  rcases idx_cases a with ⟨i, hi⟩ | hi
  · rw [rngDrawWith_of_lt _ i hi, rngDrawWith_of_lt _ i (hidx ▸ hi)]
    obtain ⟨k, w, hk, hw, rfl⟩ := h
    exact ⟨rfl, k, w, hk, hw, rfl⟩
  · rw [rngDrawWith_of_used _ hi, rngDrawWith_of_used _ (hidx.trans hi)]
    obtain ⟨k, w, hk, -, rfl⟩ := h
    exact ⟨rfl, k, _, hk, .inr rfl, rfl⟩

theorem AgreeBut.u8Complete (h : AgreeBut keyHidden workHidden a b) :
    AgreeBut keyHidden workHidden (u8Complete a) (u8Complete b) := by
  obtain ⟨hv, k, w, hk, hw, hb⟩ := h.rngDraw
  refine ⟨k, w, hk, hw, ?_⟩
  change complete { (Machine.rngDraw b).2 with rngOutLo := (Machine.rngDraw b).1, rngOutHi := 0x00 } = _
  rw [hv, hb]; rfl

theorem AgreeBut.u16Complete (h : AgreeBut keyHidden workHidden a b) :
    AgreeBut keyHidden workHidden (u16Complete a) (u16Complete b) := by
  obtain ⟨hhi, hd⟩ := h.rngDraw
  obtain ⟨hlo, k, w, hk, hw, hb⟩ := hd.rngDraw
  refine ⟨k, w, hk, hw, ?_⟩
  change complete { (Machine.rngDraw (Machine.rngDraw b).2).2 with
    rngOutHi := (Machine.rngDraw b).1, rngOutLo := (Machine.rngDraw (Machine.rngDraw b).2).1 } = _
  rw [hlo, hhi, hb]; rfl

theorem AgreeBut.engineStep (h : AgreeBut keyHidden workHidden a b) (henc : a.op = .enc → ¬ keyHidden) :
    AgreeBut keyHidden workHidden (engineStep a) (engineStep b) := by
  have hop : b.op = a.op := by obtain ⟨_, _, _, _, rfl⟩ := h; rfl
  refine AgreeBut.whenRunning ?_ h
  simp only [completion, hop]
  cases ha : a.op with
  | none => exact h
  | enc => exact h.encComplete (henc ha)
  | seed => exact h
  | u8 => exact h.u8Complete
  | u16 => exact h.u16Complete

/-! ### The host -/

theorem AgreeBut.hostWrite (off v : Byte) (h : AgreeBut keyHidden workHidden a b) :
    outcomesAgree (AgreeBut keyHidden workHidden) (hostWrite off v a) (hostWrite off v b) := by
  unfold Machine.hostWrite
  cases windowReg off with
  | cmd =>
    unfold commandWrite
    cases decode v with
    | command i => simp only [exec_eq]; exact AgreeBut.whenIdle (h.commandEffect i) h
    | illegal => exact AgreeBut.whenIdle (h.raise .illegal) h
  | error => exact AgreeBut.whenRunning (h.of_commutes (fun _ _ _ => rfl) rfl rfl) h
  | key i => exact AgreeBut.whenIdle (h.setKey i v) h
  | data i => exact AgreeBut.whenIdle (h.of_commutes (fun _ _ _ => rfl) rfl rfl) h
  | status => exact h
  | rngOutLo => exact h
  | rngOutHi => exact h
  | reserved => exact h

theorem AgreeBut.readToHost (off : Byte) (h : AgreeBut keyHidden workHidden a b) :
    AgreeBut keyHidden workHidden (readToHost off a) (readToHost off b) :=
  h.of_commutes (readToHost_withHidden off) rfl rfl

theorem AgreeBut.pollOnce (off mask val : Byte) (h : AgreeBut keyHidden workHidden a b) :
    AgreeBut keyHidden workHidden (pollOnce off mask val a) (pollOnce off mask val b) := by
  refine h.of_commutes (pollOnce_withHidden off mask val) ?_ ?_
  all_goals rcases pollOnce_cases off mask val a with ⟨_, hp⟩ | ⟨_, hp⟩ <;> rw [hp] <;> rfl

/-- The width and the address of a transaction decide how it ends, and neither is of the state. -/
theorem AgreeBut.transaction (op : BusOp) (h : AgreeBut keyHidden workHidden a b) :
    outcomesAgree (AgreeBut keyHidden workHidden) (transaction op a) (transaction op b) := by
  unfold Machine.transaction
  cases op with
  | wr off v => exact h.hostWrite off v
  | rd off => exact h.readToHost off
  | poll off mask val => exact h.pollOnce off mask val
  | memRead addr width =>
    dsimp only
    split
    · cases windowOffset addr with
      | some off => exact h.readToHost off
      | none => rfl
    · rfl
  | memWrite addr bytes =>
    dsimp only
    split
    · cases windowOffset addr with
      | some off => exact h.hostWrite off _
      | none => rfl
    · rfl

theorem AgreeBut.hostStep (h : AgreeBut keyHidden workHidden a b) :
    outcomesAgree (AgreeBut keyHidden workHidden) (hostStep a) (hostStep b) := by
  have hprog : b.host = a.host := by obtain ⟨_, _, _, _, rfl⟩ := h; rfl
  simp only [Machine.hostStep, hprog]
  cases a.host.prog with
  | nil => exact h
  | cons op rest => exact AgreeBut.transaction op (h.of_commutes (fun _ _ _ => rfl) rfl rfl)

/-! ### The step -/

theorem AgreeBut.perform (e : Event) (h : AgreeBut keyHidden workHidden a b)
    (henc : e = .engine → a.op = .enc → ¬ keyHidden) :
    outcomesAgree (AgreeBut keyHidden workHidden) (perform e a) (perform e b) := by
  cases e with
  | host => exact h.hostStep
  | engine => exact h.engineStep (henc rfl)
  | sample x => exact h.of_commutes (offerSample_withHidden x) (offerSample_key x a) (offerSample_work x a)
  | resetPin level => exact h.setResetPin level
  | secondHost => rfl

/-- Unless an ENC completes under different keys, a step keeps the agreement and ends in the same way. -/
theorem AgreeBut.step (h : AgreeBut keyHidden workHidden a b)
    (henc : a.nextEvent = .engine → a.op = .enc → ¬ keyHidden) :
    outcomesAgree (AgreeBut keyHidden workHidden) (step a) (step b) := by
  have hevent : b.nextEvent = a.nextEvent := by obtain ⟨_, _, _, _, rfl⟩ := h; rfl
  rw [step_eq, step_eq, hevent]
  exact AgreeBut.perform _ (h.of_commutes popped_withHidden (popped_key a) (popped_work a)) (by simpa using henc)

end

/-- Settles O46: KEY may differ, the datapath's registers not, and no ENC completes. -/
theorem keyIsNotObservable : Obligations.KeyIsNotObservable := by
  unfold Obligations.KeyIsNotObservable
  intro s k henc
  simp only [← agreeBut_key_iff]
  exact AgreeBut.step (agreeBut_key_iff.2 rfl) fun he ho => absurd ho (henc he)

/-- Settles O49: the datapath's registers may differ, KEY not, so that an ENC may complete as well. -/
theorem workRegistersAreNotObservable : Obligations.WorkRegistersAreNotObservable := by
  unfold Obligations.WorkRegistersAreNotObservable
  intro s w
  simp only [← agreeBut_work_iff]
  exact AgreeBut.step (agreeBut_work_iff.2 rfl) fun _ _ => id

end Sys2Proof.Machine
end

section
/-!
PROOFS. The register window: what a read returns and a write does at every offset, with the guards of BUSY and of reset in
place (spec/20_memory.md R50 to R56), and which accesses are no transaction at all (R52, spec/60_exceptions.md R244).
-/

namespace Sys2Proof.Machine

/-! ### The guards -/

/-- BUSY is computed from OP (R24). -/
theorem busy_eq_decide (s : State) : s.busy = decide (s.op ≠ .none) :=
  Bool.eq_iff_iff.2 ((busy_eq_true_iff s).trans decide_eq_true_iff.symm)

theorem ite_busy {α : Type} (s : State) (a b : α) :
    (if s.busy then a else b) = if s.op ≠ .none then a else b :=
  ite_congr (propext (busy_eq_true_iff s)) (fun _ => rfl) fun _ => rfl

/-- Out of reset a guarded write is rejected with ERR_BUSY or has its effect (R231). -/
theorem whenIdle_of_running {s : State} (k : State → State) (hr : s.rstN = true) :
    whenIdle k s = if s.op ≠ .none then { s with error := s.error ||| 0x01 } else k s := by
  rw [whenIdle, whenRunning_of_running _ hr, ite_busy]
  rfl

/-- The decoder rejects every byte while a command is in flight, opcode or not (R81, R231). -/
theorem commandWrite_of_busy {s : State} (v : Byte) (hr : s.rstN = true) (hop : s.op ≠ .none) :
    commandWrite v s = .next { s with error := s.error ||| 0x01 } := by
  cases hd : decode v with
  | command i =>
    rw [commandWrite, hd]
    exact (exec_eq i s).trans (congrArg _ (whenIdle_of_busy _ hr hop))
  | illegal =>
    rw [commandWrite, hd]
    exact congrArg _ (whenIdle_of_busy _ hr hop)

/-! ### Reads -/

theorem hostRead_of_running {s : State} (hr : s.rstN = true) (off : Byte) :
    hostRead off s = readReg s (windowReg off) := by
  rw [hostRead, if_pos hr]

theorem hostRead_key {s : State} (hr : s.rstN = true) (i : Fin 16) : hostRead (keyOffset i) s = 0x00 := by
  rw [hostRead_of_running hr, windowReg_keyOffset, readReg]

theorem hostRead_data {s : State} (hr : s.rstN = true) (i : Fin 16) :
    hostRead (dataOffset i) s = if s.op ≠ .none then 0x00 else s.data[i] := by
  rw [hostRead_of_running hr, windowReg_dataOffset, readReg, ite_busy]

/-- A reserved offset reads 0x00, in reset too (R55). -/
theorem hostRead_reserved {off : Byte} (h : windowReg off = .reserved) (s : State) : hostRead off s = 0x00 := by
  rw [hostRead, h, readReg, ite_self]

/-- Bits a register reads as 0 are 0 in reset too, where every read is 0x00 (R260). -/
theorem hostRead_and_eq_zero {off m : Byte} {s : State} (h : readReg s (windowReg off) &&& m = 0x00) :
    hostRead off s &&& m = 0x00 := by
  unfold hostRead
  split
  · exact h
  · exact BitVec.zero_and

/-- STATUS has three bits (R24). -/
theorem statusByte_reserved (s : State) : s.statusByte &&& 0xF8 = 0x00 := by
  cases hb : s.busy <;> cases hd : s.done <;> cases hs : s.seeded <;> simp [State.statusByte, hb, hd, hs]

theorem errorByte_reserved (s : State) : s.errorByte &&& 0xF8 = 0x00 := by
  rw [State.errorByte, BitVec.and_assoc]
  exact BitVec.and_zero

/-- Settles O21: the read's offset names a register, whose read R53 gives. -/
theorem hostReadReturnsRegister : Obligations.HostReadReturnsRegister := by
  unfold Obligations.HostReadReturnsRegister
  intro s hr
  refine ⟨hostRead_of_running hr 0x00, ?status, hostRead_of_running hr 0x02, ?lo, ?hi, hostRead_key hr,
    hostRead_data hr, fun off h => hostRead_reserved ((windowReg_reserved_iff off).1 h) s, fun off => rfl⟩
  case status =>
    rw [hostRead_of_running hr, ← busy_eq_decide]
    exact statusByte_toNat s
  case lo => exact (hostRead_of_running hr 0x04).trans (ite_busy s _ _)
  case hi => exact (hostRead_of_running hr 0x05).trans (ite_busy s _ _)

/-! ### Writes -/

theorem hostWrite_error (v : Byte) (s : State) :
    hostWrite 0x02 v s = .next (whenRunning (clearErrors v) s) := rfl

theorem hostWrite_key (i : Fin 16) (v : Byte) (s : State) :
    hostWrite (keyOffset i) v s = .next (whenIdle (setKey i v) s) := by
  rw [hostWrite, windowReg_keyOffset]

theorem hostWrite_data (i : Fin 16) (v : Byte) (s : State) :
    hostWrite (dataOffset i) v s = .next (whenIdle (setData i v) s) := by
  rw [hostWrite, windowReg_dataOffset]

/-- A write to a register that takes none is ignored, in reset too (R54, R55). -/
theorem hostWrite_ignored {off : Byte} (hcmd : off ≠ 0x00) (herror : off ≠ 0x02)
    (hrange : off.toNat < 0x10 ∨ 0x30 ≤ off.toNat) (v : Byte) (s : State) : hostWrite off v s = .next s := by
  have hguarded : ¬ (off = 0x00 ∨ (0x10 ≤ off.toNat ∧ off.toNat ≤ 0x2F)) := by
    rintro (h | h)
    · exact hcmd h
    · omega
  rw [windowReg_guarded_iff] at hguarded
  unfold hostWrite
  cases hw : windowReg off with
  | cmd => exact absurd (.inl hw) hguarded
  | error => exact absurd ((windowReg_error_iff off).1 hw) herror
  | key i => exact absurd (.inr (.inl ⟨i, hw⟩)) hguarded
  | data i => exact absurd (.inr (.inr ⟨i, hw⟩)) hguarded
  | status => rfl
  | rngOutLo => rfl
  | rngOutHi => rfl
  | reserved => rfl

/-- Settles O22: CMD, KEY and DATA are guarded by BUSY, ERROR is not, and nothing else is written. -/
theorem hostWriteStoresRegister : Obligations.HostWriteStoresRegister := by
  unfold Obligations.HostWriteStoresRegister
  intro s v hr
  refine ⟨?cmd, ?error, fun i => ?key, fun i => ?data, fun off h₀ h₂ h => hostWrite_ignored h₀ h₂ h v s⟩
  case cmd =>
    split
    case isTrue hop => exact commandWrite_of_busy v hr hop
    case isFalse => rfl
  case error => rw [hostWrite_error, whenRunning_of_running _ hr, clearErrors]
  case key => exact (hostWrite_key i v s).trans (congrArg _ (whenIdle_of_running _ hr))
  case data => exact (hostWrite_data i v s).trans (congrArg _ (whenIdle_of_running _ hr))

/-- Settles O18: the write clears the ERROR bits written as 1, and a raise sets one of them. -/
theorem writingErrorClearsWrittenFlags : Obligations.WritingErrorClearsWrittenFlags := by
  unfold Obligations.WritingErrorClearsWrittenFlags
  refine ⟨fun s v hr => ⟨clearErrors v s, ?_, rfl, fun f => errorSet_clearErrors v f s⟩,
    fun s f g => errorSet_raise f g s⟩
  rw [hostWrite_error, whenRunning_of_running _ hr]

/-- The value written to the reserved bits of ERROR makes no difference (R55). -/
theorem clearErrors_or_reserved (v : Byte) : clearErrors (v ||| 0xF8) = clearErrors v := by
  have hbits : (v ||| 0xF8) &&& 0x07 = v &&& 0x07 := by
    rw [BitVec.and_or_distrib_right]
    exact BitVec.or_zero
  funext s
  rw [clearErrors, hbits, clearErrors]

/-- Settles O23: a reserved offset names no register, and bits 7:3 of STATUS and ERROR do not exist. -/
theorem reservedOffsetsAndBitsAreInert : Obligations.ReservedOffsetsAndBitsAreInert := by
  unfold Obligations.ReservedOffsetsAndBitsAreInert
  refine ⟨fun s off v h => ?offsets, fun s => ⟨?status, ?error⟩, fun s v => ⟨rfl, ?write⟩⟩
  case offsets =>
    have hw := (windowReg_reserved_iff off).1 h
    exact ⟨hostRead_reserved hw s, by rw [hostWrite, hw]⟩
  case status => exact hostRead_and_eq_zero (statusByte_reserved s)
  case error => exact hostRead_and_eq_zero (errorByte_reserved s)
  case write => rw [hostWrite_error, clearErrors_or_reserved, hostWrite_error]

/-! ### Which accesses are transactions -/

theorem windowOffset_outside {addr : Nat} (h : inWindow addr = false) : windowOffset addr = none := by
  refine if_neg fun hin => ?_
  simp [inWindow, hin] at h

/-- A write of no byte, or of more than one, is refused by name (R52). -/
theorem transaction_memWrite_width {bytes : List Byte} (h : bytes.length ≠ 1) (addr : Nat) (s : State) :
    transaction (.memWrite addr bytes) s = .refused (.accessWidth bytes.length) := by
  match bytes, h with
  | [], _ => rfl
  | [_], h => exact absurd rfl h
  | _ :: _ :: _, _ => rfl

/-- Settles O24: the width is looked at first, and then whether the address lies in the window. -/
theorem onlyOneByteAccessesOfOneHost : Obligations.OnlyOneByteAccessesOfOneHost := by
  unfold Obligations.OnlyOneByteAccessesOfOneHost
  refine ⟨fun s addr width h => ?width, fun s addr bytes h => transaction_memWrite_width h addr s, fun s => rfl,
    fun s off v => ⟨transaction_memRead (windowOffset_base off) s, transaction_memWrite (windowOffset_base off) v s⟩,
    fun s addr v h => ?outside⟩
  case width => rw [transaction, if_neg h]
  case outside => simp [transaction, windowOffset_outside h]

end Sys2Proof.Machine
end

section
/-!
PROOFS. A seed followed bit by bit: what SHIFT and POOL hold once given bits have been kept, and that no host transaction
and no engine move between the samples changes it (spec/42_rng.md R162 to R165, spec/20_memory.md R62).
-/

namespace Sys2Proof.Machine

/-! ### The bytes of a list of kept bits -/

/-- Byte `i` of the kept bits, as far as its eight bits are there (R163). -/
def byteAt (bits : List Bool) (i : Nat) : Byte := byteOfBits ((bits.drop (8 * i)).take 8)

theorem byteOfBits_concat (bits : List Bool) (k : Bool) :
    byteOfBits (bits ++ [k]) = (byteOfBits bits <<< 1) ||| bitByte k := by
  simp [byteOfBits]

theorem byteAt_of_length_le {bits : List Bool} {i : Nat} (h : bits.length ≤ 8 * i) : byteAt bits i = 0x00 := by
  rw [byteAt, List.drop_eq_nil_of_le h]
  rfl

/-- A whole byte stays as it is, whatever bits follow. -/
theorem byteAt_append {bits : List Bool} {i : Nat} (h : 8 * i + 8 ≤ bits.length) (more : List Bool) :
    byteAt (bits ++ more) i = byteAt bits i := by
  rw [byteAt, List.drop_append_of_le_length (by omega), List.take_append_of_le_length (by rw [List.length_drop]; omega),
    byteAt]

/-- The next bit enters the byte that is not yet whole at bit 0 (R163). -/
theorem byteAt_concat {bits : List Bool} {i : Nat} (hlow : 8 * i ≤ bits.length) (hhigh : bits.length < 8 * i + 8)
    (k : Bool) : byteAt (bits ++ [k]) i = (byteAt bits i <<< 1) ||| bitByte k := by
  have hlen : (bits.drop (8 * i)).length < 8 := by rw [List.length_drop]; omega
  rw [byteAt, List.drop_append_of_le_length hlow, List.take_of_length_le (by simpa using hlen), byteOfBits_concat,
    byteAt, List.take_of_length_le hlen.le]

theorem seedPool_getElem (bits : List Bool) (j : Nat) (hj : j < 16) :
    (seedPool bits)[j] = if j = 0 then 0x00 else byteAt bits (j - 1) := by
  simp [seedPool, byteAt]

/-- A seed's pool is made of its first 120 bits. -/
theorem seedPool_append {bits : List Bool} (h : 120 ≤ bits.length) (more : List Bool) :
    seedPool (bits ++ more) = seedPool bits := by
  refine Vector.ext fun j hj => ?_
  rw [seedPool_getElem, seedPool_getElem]
  split
  · rfl
  · exact byteAt_append (by omega) more

/-! ### What a kept bit does to the registers -/

/-- A bit that leaves its byte unfinished enters SHIFT. -/
theorem keepBit_of_unfinished {s : State} (k : Bool) (h : s.bitcnt ≠ 7) :
    keepBit k s = { s with shift := (s.shift <<< 1) ||| bitByte k, bitcnt := s.bitcnt + 1 } := by
  rw [keepBit, if_neg h]

/-- The eighth bit of a byte before the last stores it (R164). -/
theorem keepBit_of_eighth {s : State} (k : Bool) (h : s.bitcnt = 7) (hp : s.byteptr.val < 15) :
    keepBit k s = { s with
      pool := s.pool.setIfInBounds s.byteptr.val ((s.shift <<< 1) ||| bitByte k), shift := 0x00, bitcnt := 0,
      byteptr := ⟨s.byteptr.val + 1, by omega⟩ } := by
  have hlt : s.byteptr.val + 1 < 1 + Config.seedBytes := by simp only [Config.seedBytes]; omega
  rw [keepBit, if_pos h]
  simp only [storeByte, hlt, dite_true]

/-- The eighth bit of the last byte completes the seed (R164, R165). -/
theorem keepBit_of_last {s : State} (k : Bool) (h : s.bitcnt = 7) (hp : 15 ≤ s.byteptr.val) :
    keepBit k s = { s with
      pool := (s.pool.setIfInBounds s.byteptr.val ((s.shift <<< 1) ||| bitByte k)).set 0 0x00, idx := 16,
      shift := 0x00, bitcnt := 0, byteptr := 16, op := .none, done := true, seeded := true } := by
  have hge : ¬ s.byteptr.val + 1 < 1 + Config.seedBytes := by simp only [Config.seedBytes]; omega
  rw [keepBit, if_pos h]
  simp only [storeByte, hge, dite_false, seedComplete, complete]

/-! ### A seed that has kept given bits -/

/-- A seed in flight that has kept exactly these bits: SHIFT holds the byte begun, POOL the bytes stored. -/
structure State.HasKept (s : State) (bits : List Bool) : Prop where
  collecting : s.Collecting
  length_eq : bits.length = s.collected
  shift_eq : s.shift = byteAt bits (s.byteptr.val - 1)
  stored (j : Nat) (hj : j < 16) : 1 ≤ j → j < s.byteptr.val → s.pool[j] = byteAt bits (j - 1)

/-- A seed has been completed by exactly these bits, perhaps with more of them after the 120th. -/
structure State.SeededBy (s : State) (bits : List Bool) : Prop where
  ready : s.ready
  done : s.done = true
  seeded : s.seeded = true
  idx : s.idx = 16
  enough : 120 ≤ bits.length
  pool : s.pool = seedPool bits

theorem State.HasKept.length_lt {s : State} {bits : List Bool} (h : s.HasKept bits) : bits.length < 120 :=
  h.length_eq ▸ h.collecting.collected_lt

theorem State.SeededBy.append {s : State} {bits : List Bool} (h : s.SeededBy bits) (more : List Bool) :
    s.SeededBy (bits ++ more) :=
  { h with
    enough := h.enough.trans (by simp)
    pool := h.pool.trans (seedPool_append h.enough more).symm }

section
variable {s : State} {bits : List Bool} (h : s.HasKept bits) (k : Bool)
include h

/-- The byte begun, with the next bit in it. -/
theorem State.HasKept.shift_concat :
    (s.shift <<< 1) ||| bitByte k = byteAt (bits ++ [k]) (s.byteptr.val - 1) := by
  have hlen : bits.length = 8 * (s.byteptr.val - 1) + s.bitcnt.val := h.length_eq
  have hcnt := s.bitcnt.isLt
  rw [byteAt_concat (by omega) (by omega), h.shift_eq]

/-- The bytes stored are bytes of the longer list too. -/
theorem State.HasKept.stored_concat {j : Nat} (hj : j < 16) (hpos : 1 ≤ j) (hlt : j < s.byteptr.val) :
    s.pool[j] = byteAt (bits ++ [k]) (j - 1) := by
  have hlen : bits.length = 8 * (s.byteptr.val - 1) + s.bitcnt.val := h.length_eq
  rw [byteAt_append (by omega), h.stored j hj hpos hlt]

/-- So are they once the byte begun is stored behind them. -/
theorem State.HasKept.stored_setIfInBounds {j : Nat} (hj : j < 16) (hpos : 1 ≤ j) (hle : j ≤ s.byteptr.val) :
    (s.pool.setIfInBounds s.byteptr.val ((s.shift <<< 1) ||| bitByte k))[j] = byteAt (bits ++ [k]) (j - 1) := by
  rw [Vector.getElem_setIfInBounds hj]
  split
  case isTrue heq => rw [h.shift_concat, heq]
  case isFalse hne => exact h.stored_concat k hj hpos (by omega)

/-- A kept bit is one bit more, or the last one of the seed. -/
theorem keepBit_hasKept : (keepBit k s).HasKept (bits ++ [k]) ∨ (keepBit k s).SeededBy (bits ++ [k]) := by
  obtain ⟨hr, hop, hpos, hle⟩ := h.collecting
  have hlen : bits.length = 8 * (s.byteptr.val - 1) + s.bitcnt.val := h.length_eq
  by_cases h7 : s.bitcnt = 7
  · have h7' : s.bitcnt.val = 7 := by simp [h7]
    rcases hle.lt_or_eq with hp | hp
    · left
      rw [keepBit_of_eighth k h7 hp]
      refine ⟨⟨hr, hop, by simp, by simp; omega⟩, by simp [State.collected]; omega, ?_,
        fun j hj h₁ hlt => h.stored_setIfInBounds k hj h₁ (Nat.le_of_lt_succ hlt)⟩
      exact (byteAt_of_length_le (by simp; omega)).symm
    · right
      rw [keepBit_of_last k h7 hp.ge]
      refine ⟨⟨hr, rfl⟩, rfl, rfl, rfl, by simp; omega, Vector.ext fun j hj => ?_⟩
      rw [seedPool_getElem, Vector.getElem_set]
      rcases Nat.eq_zero_or_pos j with rfl | h₁
      · rfl
      · rw [if_neg (by omega), if_neg (by omega), h.stored_setIfInBounds k hj h₁ (by omega)]
  · left
    have hval : (s.bitcnt + 1).val = s.bitcnt.val + 1 := Fin.val_add_one_of_lt' (by omega)
    rw [keepBit_of_unfinished k h7]
    refine ⟨⟨hr, hop, hpos, hle⟩, ?_, h.shift_concat k, fun _ hj h₁ hlt => h.stored_concat k hj h₁ hlt⟩
    simp [State.collected, hval]; omega

end

/-! ### Samples -/

/-- The bits a seed has kept once these samples have come too, if it has kept the given ones so far. -/
def State.bitsWith (s : State) (bits : List Bool) (xs : List Byte) : List Bool :=
  bits ++ keptBits (s.heldSample ++ xs)

theorem bitsWith_of_not_held {s : State} (h : s.nsHave = false) (bits : List Bool) (xs : List Byte) :
    s.bitsWith bits xs = bits ++ keptBits xs := by
  simp [State.bitsWith, State.heldSample, h]

theorem bitsWith_of_held {s : State} (h : s.nsHave = true) (bits : List Bool) (xs : List Byte) :
    s.bitsWith bits xs = bits ++ keptBits (bitByte s.nsFirst :: xs) := by
  simp [State.bitsWith, State.heldSample, h]

/-- A sample taken by a seed: with those to come it makes the bits it would have made, or it completes the seed. -/
theorem consumeSample_hasKept {s : State} {bits : List Bool} (h : s.HasKept bits) (x : Byte) :
    (∃ bits', (consumeSample x s).HasKept bits' ∧
      ∀ xs, (consumeSample x s).bitsWith bits' xs = s.bitsWith bits (x :: xs)) ∨
    ∀ xs, (consumeSample x s).SeededBy (s.bitsWith bits (x :: xs)) := by
  obtain ⟨⟨hr, hop, hpos, hle⟩, hlen, hshift, hstored⟩ := h
  have held : ∀ first have', State.HasKept { s with nsFirst := first, nsHave := have' } bits := fun _ _ =>
    ⟨⟨hr, hop, hpos, hle⟩, hlen, hshift, hstored⟩
  cases hns : s.nsHave with
  | false =>
    rw [consumeSample_of_first x hns]
    refine .inl ⟨bits, held _ _, fun xs => ?_⟩
    rw [bitsWith_of_not_held hns, bitsWith_of_held rfl, keptBits_cons_congr (noiseBitOf_bitByte _)]
  | true =>
    by_cases hb : noiseBitOf x = s.nsFirst
    · rw [consumeSample_of_equal hns hb]
      refine .inl ⟨bits, held _ _, fun xs => ?_⟩
      rw [bitsWith_of_not_held rfl, bitsWith_of_held hns]
      simp [keptBits, hb]
    · rw [consumeSample_of_differ hns hb]
      have hbits : ∀ xs, s.bitsWith bits (x :: xs) = (bits ++ [noiseBitOf x]) ++ keptBits xs := fun xs => by
        rw [bitsWith_of_held hns]
        simp [keptBits, Ne.symm hb]
      rcases keepBit_hasKept (held s.nsFirst false) (noiseBitOf x) with hk | hk
      · refine .inl ⟨_, hk, fun xs => ?_⟩
        rw [hbits, bitsWith_of_not_held (by simp)]
      · exact .inr fun xs => hbits xs ▸ hk.append _

/-- A seed that goes on leaves SEEDED and DONE. -/
theorem consumeSample_of_still_seeding {s : State} {x : Byte} (h : (consumeSample x s).op = .seed) :
    (consumeSample x s).seeded = s.seeded ∧ (consumeSample x s).done = s.done := by
  rcases consumeSample_cases x s with ⟨_, hseeded, hdone, _⟩ | ⟨hop, _⟩
  · exact ⟨hseeded, hdone⟩
  · simp [h] at hop

/-! ### A seed amid host traffic -/

/-- KEY, DATA and RNG_OUT are the same. -/
def SameResults (s t : State) : Prop :=
  t.key = s.key ∧ t.data = s.data ∧ t.rngOutLo = s.rngOutLo ∧ t.rngOutHi = s.rngOutHi

theorem SameResults.trans {s t u : State} (h₁ : SameResults s t) (h₂ : SameResults t u) : SameResults s u := by
  obtain ⟨hk₁, hd₁, hl₁, hh₁⟩ := h₁
  obtain ⟨hk₂, hd₂, hl₂, hh₂⟩ := h₂
  exact ⟨hk₂.trans hk₁, hd₂.trans hd₁, hl₂.trans hl₁, hh₂.trans hh₁⟩

/-- The bits a seed has kept after `n` steps, if it has kept the given ones so far and is in flight that long. -/
def State.bitsBy (s : State) (bits : List Bool) (n : Nat) : List Bool :=
  s.bitsWith bits (samplesIn (s.eventsUpTo n))

theorem bitsBy_zero (s : State) (bits : List Bool) : s.bitsBy bits 0 = bits := by
  simp only [State.bitsBy, State.bitsWith, State.heldSample, State.eventsUpTo]
  split <;> exact List.append_nil bits

/-- A seed just accepted has kept nothing. -/
theorem State.seedJustAccepted.hasKept {s : State} (h : s.seedJustAccepted) :
    s.HasKept [] ∧ ∀ n, s.bitsBy [] n = s.bitsKeptBy n := by
  have hc := h.collecting.1
  obtain ⟨_, _, hns, hshift, hb, hp⟩ := h
  refine ⟨⟨hc, by simp [State.collected, hb, hp], by rw [hshift, byteAt_of_length_le (by simp)],
    fun j _ h₁ hlt => ?_⟩, fun n => bitsWith_of_not_held hns [] _⟩
  have hp' : s.byteptr.val = 1 := by simp [hp]
  omega

theorem BlockKept.hasKept {s t : State} {bits : List Bool} (h : BlockKept s t) (hs : s.HasKept bits) :
    t.HasKept bits ∧ (∀ xs, t.bitsWith bits xs = s.bitsWith bits xs) := by
  have hc := (h.collecting hs.collecting).1
  obtain ⟨_, _, _, _, rfl⟩ := h
  exact ⟨⟨hc, hs.length_eq, hs.shift_eq, hs.stored⟩, fun _ => rfl⟩

theorem BlockKept.sameResults {s t : State} (h : BlockKept s t) :
    SameResults s t ∧ t.seeded = s.seeded ∧ t.done = s.done := by
  obtain ⟨_, _, _, _, rfl⟩ := h
  exact ⟨⟨rfl, rfl, rfl, rfl⟩, rfl, rfl⟩

/-- What an ordinary step does to a seed: it leaves the block alone, or it takes a sample. -/
theorem step_of_seeding {s : State} (h : s.Collecting) (hw : s.progWf) (ho : s.nextEvent.isOrdinary = true) :
    ∃ t, step s = .next t ∧ t.progWf ∧
      ((BlockKept s t ∧ ∀ es, samplesIn (s.nextEvent :: es) = samplesIn es) ∨
        ∃ x, s.nextEvent = .sample x ∧ t = consumeSample x s.popped) := by
  rcases isOrdinary_cases ho with he | he | ⟨x, he⟩
  · obtain ⟨t, ht, hwt, hk⟩ := step_host_inFlight he h.inFlight hw
    exact ⟨t, ht, hwt, .inl ⟨hk, fun es => by rw [he]; rfl⟩⟩
  · have ht : step s = .next s.popped := by
      rw [step_of_engine he, engineStep_of_seed (by simpa using h.seeding)]
    exact ⟨_, ht, by simpa [State.progWf] using hw, .inl ⟨blockKept_popped s, fun es => by rw [he]; rfl⟩⟩
  · have ht : step s = .next (consumeSample x s.popped) := by
      rw [step_of_sample he, offerSample_of_seeding x (by simpa using h.running) (by simpa using h.seeding)]
    exact ⟨_, ht, by simpa [State.progWf] using hw, .inr ⟨x, he, rfl⟩⟩

/-- After an ordinary step the seed goes on towards the same bits, or they have completed it. -/
theorem step_hasKept {s : State} {bits : List Bool} (h : s.HasKept bits) (hw : s.progWf)
    (ho : s.nextEvent.isOrdinary = true) :
    ∃ t, step s = .next t ∧ t.progWf ∧ SameResults s t ∧
      ((∃ bits', t.HasKept bits' ∧ (t.seeded = s.seeded ∧ t.done = s.done) ∧
          ∀ n, t.bitsBy bits' n = s.bitsBy bits (n + 1)) ∨
        ∀ n, t.SeededBy (s.bitsBy bits (n + 1))) := by
  obtain ⟨t, ht, hwt, ⟨hk, hes⟩ | ⟨x, he, rfl⟩⟩ := step_of_seeding h.collecting hw ho
  · obtain ⟨hkept, hwith⟩ := hk.hasKept h
    obtain ⟨hsame, hgoes⟩ := hk.sameResults
    refine ⟨t, ht, hwt, hsame, .inl ⟨bits, hkept, hgoes, fun n => ?_⟩⟩
    rw [State.bitsBy, hwith, State.bitsBy, eventsUpTo_of_step ht, hes]
  · obtain ⟨hpopped, hwith⟩ := (blockKept_popped s).hasKept h
    have hby : ∀ n, s.bitsBy bits (n + 1) =
        s.popped.bitsWith bits (x :: samplesIn ((consumeSample x s.popped).eventsUpTo n)) := fun n => by
      rw [State.bitsBy, eventsUpTo_of_step ht, he, hwith]
      rfl
    refine ⟨_, ht, hwt, by simp [SameResults], ?_⟩
    rcases consumeSample_hasKept hpopped x with ⟨bits', hkept, hbits⟩ | hdone
    · have hgoes := consumeSample_of_still_seeding hkept.collecting.seeding
      exact .inl ⟨bits', hkept, by simpa using hgoes, fun n => by rw [hby, ← hbits, State.bitsBy]⟩
    · exact .inr fun n => hby n ▸ hdone _

/-- As long as fewer than 120 bits have been kept, the seed is in flight. -/
theorem run_hasKept {s : State} {bits : List Bool} (n : Nat) (h : s.HasKept bits) (hw : s.progWf)
    (ho : ∀ k, (s.eventAt k).isOrdinary = true) (hn : (s.bitsBy bits n).length < 120) :
    ∃ t, run n s = .next t ∧ t.op = .seed ∧ (t.seeded = s.seeded ∧ t.done = s.done) ∧ SameResults s t := by
  induction n generalizing s bits with
  | zero => exact ⟨s, rfl, h.collecting.seeding, ⟨rfl, rfl⟩, rfl, rfl, rfl, rfl⟩
  | succ n ih =>
    obtain ⟨t, ht, hwt, hsame, ⟨bits', hkept, ⟨hseeded, hdone⟩, hby⟩ | hend⟩ :=
      step_hasKept h hw (eventAt_zero s ▸ ho 0)
    · obtain ⟨u, hu, hop, ⟨hseeded', hdone'⟩, hsame'⟩ :=
        ih hkept hwt (fun k => by rw [eventAt_of_step ht]; exact ho (k + 1)) (by rwa [hby])
      exact ⟨u, (run_succ_of_next n ht).trans hu, hop, ⟨hseeded'.trans hseeded, hdone'.trans hdone⟩,
        hsame.trans hsame'⟩
    · exact absurd (hend n).enough (by omega)

/-- The step that brings the 120th bit completes the seed. -/
theorem run_hasKept_completes {s : State} {bits : List Bool} (n : Nat) (h : s.HasKept bits) (hw : s.progWf)
    (ho : ∀ k, (s.eventAt k).isOrdinary = true) (hn : (s.bitsBy bits n).length < 120)
    (hn' : 120 ≤ (s.bitsBy bits (n + 1)).length) :
    ∃ t, run (n + 1) s = .next t ∧ t.SeededBy (s.bitsBy bits (n + 1)) ∧ SameResults s t := by
  induction n generalizing s bits with
  | zero =>
    obtain ⟨t, ht, _, hsame, ⟨bits', hkept, _, hby⟩ | hend⟩ := step_hasKept h hw (eventAt_zero s ▸ ho 0)
    · rw [← hby, bitsBy_zero] at hn'
      exact absurd hkept.length_lt (by omega)
    · exact ⟨t, run_succ_of_next 0 ht, hend 0, hsame⟩
  | succ n ih =>
    obtain ⟨t, ht, hwt, hsame, ⟨bits', hkept, _, hby⟩ | hend⟩ := step_hasKept h hw (eventAt_zero s ▸ ho 0)
    · obtain ⟨u, hu, hdone, hsame'⟩ :=
        ih hkept hwt (fun k => by rw [eventAt_of_step ht]; exact ho (k + 1)) (by rwa [hby]) (by rwa [hby])
      exact ⟨u, (run_succ_of_next (n + 1) ht).trans hu, hby (n + 1) ▸ hdone, hsame.trans hsame'⟩
    · exact absurd (hend n).enough (by omega)

/-- Settles O48: between the samples nothing happens to the seed, which from its acceptance on holds the bits kept. -/
theorem seedIgnoresHostTraffic : Obligations.SeedIgnoresHostTraffic := by
  unfold Obligations.SeedIgnoresHostTraffic
  intro s n hseed ha hw hn
  have ho := eventAt_ordinary ha
  obtain ⟨hkept, hby⟩ := hseed.hasKept
  refine ⟨?inFlight, fun hn' => ?completes⟩
  case inFlight =>
    obtain ⟨t, ht, hop, ⟨hseeded, hdone⟩, hsame⟩ := run_hasKept n hkept hw ho (by rwa [hby])
    exact ⟨t, ht, hop, hseeded, hdone, hsame⟩
  case completes =>
    obtain ⟨t, ht, hend, hsame⟩ := run_hasKept_completes n hkept hw ho (by rwa [hby]) (by rwa [hby])
    exact ⟨t, ht, hend.ready, hend.done, hend.seeded, hend.idx, hby (n + 1) ▸ hend.pool, hsame⟩

end Sys2Proof.Machine
end

section
/-!
PROOFS. The command decoder: which byte is which command's, and what each byte written to CMD does to an idle block and
to a busy one (spec/30_encoding.md R80 to R83).
-/

namespace Sys2Proof.Machine

/-! ### The opcode table -/

/-- Every row's mask is the whole byte, so a row matches its pattern and no other byte (R80). -/
theorem covers_iff {row : OpcodeRow} (h : row ∈ opcodeRows) (c : Byte) : row.covers c = true ↔ c = row.pattern := by
  have hmask : ∀ r ∈ opcodeRows, r.mask = 0xFF := by decide
  have hbyte : c &&& 0xFF = c := BitVec.and_allOnes
  rw [OpcodeRow.covers, hmask row h, hbyte, beq_iff_eq]

/-- A row's pattern is the encoding of its command. -/
theorem encode_instr_of_mem {row : OpcodeRow} (h : row ∈ opcodeRows) : encode row.instr = row.pattern := by
  revert row; decide

theorem opcodeRows_pattern_injective {r r' : OpcodeRow} (h : r ∈ opcodeRows) (h' : r' ∈ opcodeRows)
    (hp : r.pattern = r'.pattern) : r = r' := by
  have hrows : ∀ q ∈ opcodeRows, ∀ q' ∈ opcodeRows, q.pattern = q'.pattern → q = q' := by decide
  exact hrows r h r' h' hp

/-! ### Decoding -/

/-- A byte decodes to a command exactly when it is that command's encoding. -/
theorem decode_eq_command_iff (c : Byte) (i : Instr) : decode c = .command i ↔ encode i = c := by
  refine ⟨fun h => ?_, fun h => h ▸ decode_encode i⟩
  unfold decode at h
  split at h
  case h_1 row hfind =>
    have hmem : row ∈ opcodeRows := List.mem_of_find?_eq_some hfind
    have hcovers : row.covers c = true := List.find?_some (p := fun r : OpcodeRow => r.covers c) hfind
    have hc : c = row.pattern := (covers_iff hmem c).1 hcovers
    obtain rfl : row.instr = i := Decoded.command.inj h
    exact (encode_instr_of_mem hmem).trans hc.symm
  case h_2 => cases h

/-- A byte is illegal exactly when it is no command's encoding (R83). -/
theorem decode_eq_illegal_iff (c : Byte) : decode c = .illegal ↔ ∀ i, encode i ≠ c := by
  simp only [ne_eq, ← decode_eq_command_iff]
  cases decode c <;> simp

/-- The encodings are the five opcodes of the map (R82). -/
theorem forall_encode_ne_iff (c : Byte) :
    (∀ i, encode i ≠ c) ↔ c ∉ [0x00#8, 0x01#8, 0x10#8, 0x11#8, 0x12#8] := by
  simp only [List.mem_cons, List.not_mem_nil, or_false, not_or]
  constructor
  · exact fun h => ⟨(h .nop).symm, (h .enc).symm, (h .rngSeed).symm, (h .rngU8).symm, (h .rngU16).symm⟩
  · rintro ⟨h₀, h₁, h₂, h₃, h₄⟩ (_ | _)
    exacts [Ne.symm h₀, Ne.symm h₁, Ne.symm h₂, Ne.symm h₃, Ne.symm h₄]

/-- The bytes outside the map are the two ranges of R83. -/
theorem not_mem_opcodes_iff (c : Byte) :
    c ∉ [0x00#8, 0x01#8, 0x10#8, 0x11#8, 0x12#8] ↔ (0x02 ≤ c.toNat ∧ c.toNat ≤ 0x0F) ∨ 0x13 ≤ c.toNat := by
  simp only [List.mem_cons, List.not_mem_nil, or_false, ← BitVec.toNat_inj, BitVec.toNat_ofNat]
  omega

/-- Settles O1: the decoder gives every command back from its encoding, and the encodings compute to these bytes. -/
theorem opcodeBytesDecodeToCommands : Obligations.OpcodeBytesDecodeToCommands := by
  unfold Obligations.OpcodeBytesDecodeToCommands
  exact ⟨⟨decode_encode .nop, decode_encode .enc, decode_encode .rngSeed, decode_encode .rngU8, decode_encode .rngU16⟩,
    rfl, rfl, rfl, rfl, rfl⟩

/-- Settles O3: decoding inverts encoding, and a byte is the pattern of every row that covers it. -/
theorem decodeAndEncodeAgree : Obligations.DecodeAndEncodeAgree := by
  unfold Obligations.DecodeAndEncodeAgree
  refine ⟨fun i => ⟨?wf, decode_encode i⟩, fun c i => (decode_eq_command_iff c i).1, fun c r r' h h' hc hc' => ?rows⟩
  case wf => cases i <;> rfl
  case rows =>
    have hp : r.pattern = r'.pattern := ((covers_iff h c).1 hc).symm.trans ((covers_iff h' c).1 hc')
    exact opcodeRows_pattern_injective h h' hp

/-! ### The write to CMD -/

/-- On an idle block a command's byte has that command's effect. -/
theorem hostWrite_encode_of_ready (i : Instr) {s : State} (h : s.ready) :
    hostWrite 0x00 (encode i) s = .next (commandEffect i s) := by
  rw [hostWrite_cmd (decode_encode i), exec_eq, whenIdle_of_idle _ h.1 h.2]

/-- On an idle block an illegal byte raises ERR_ILLEGAL (R232). -/
theorem hostWrite_illegal_of_ready {c : Byte} {s : State} (hd : decode c = .illegal) (h : s.ready) :
    hostWrite 0x00 c s = .next (raise .illegal s) := by
  rw [hostWrite, (windowReg_cmd_iff 0x00).2 rfl, commandWrite, hd, illegalCommand, whenIdle_of_idle _ h.1 h.2]

/-- Settles O2: the illegal bytes are those outside the map, and raising the flag is all that one of them does. -/
theorem illegalBytesOnlySetErrIllegal : Obligations.IllegalBytesOnlySetErrIllegal := by
  unfold Obligations.IllegalBytesOnlySetErrIllegal
  refine ⟨fun c => ?_, fun c s hd h => hostWrite_illegal_of_ready hd h⟩
  exact ((decode_eq_illegal_iff c).trans (forall_encode_ne_iff c)).trans (not_mem_opcodes_iff c)

/-- Settles O6: an idle block takes a command's effect or raises ERR_ILLEGAL, and a busy one rejects every byte. -/
theorem commandDecoderDispatches : Obligations.CommandDecoderDispatches := by
  unfold Obligations.CommandDecoderDispatches
  refine ⟨fun s h => ?idle, fun s c h => commandWrite_of_busy c h.1 h.2⟩
  refine ⟨hostWrite_encode_of_ready .nop h, hostWrite_encode_of_ready .enc h, hostWrite_encode_of_ready .rngSeed h,
    hostWrite_encode_of_ready .rngU8 h, hostWrite_encode_of_ready .rngU16 h, fun c hc => ?_⟩
  have hd : decode c = .illegal := (decode_eq_illegal_iff c).2 ((forall_encode_ne_iff c).2 hc)
  exact hostWrite_illegal_of_ready hd h

end Sys2Proof.Machine
end

section
/-!
PROOFS. A WRKEY program on an idle block: in a run without reset no event but the host's transaction touches the block,
and every byte of the key is stored or still to be written (spec/30_encoding.md R86, spec/43_modes.md R200).
-/

namespace Sys2Proof.Machine

/-! ### A run without reset -/

/-- The agenda holds no reset. -/
def State.noReset (s : State) : Prop := ∀ e ∈ s.agenda, e ≠ .resetPin false

/-- Without a reset on the agenda there is none next: a free choice is never one. -/
theorem State.noReset.nextEvent_ne {s : State} (h : s.noReset) : s.nextEvent ≠ .resetPin false := by
  unfold State.nextEvent
  split
  case h_1 e rest ha => exact h e (by simp [ha])
  case h_2 => rcases freeEvent_cases s.freeNext with he | he | he <;> simp [he]

theorem State.noReset.popped {s : State} (h : s.noReset) : s.popped.noReset := by
  unfold State.popped
  split
  case h_1 e' rest ha => exact fun e he => h e (ha ▸ List.mem_cons_of_mem e' he)
  case h_2 => exact h

/-- On an idle block every event but a reset and the host's transaction changes nothing. -/
theorem step_of_ready {s t : State} (hs : s.ready) (hne : s.nextEvent ≠ .resetPin false) (ht : step s = .next t) :
    (s.nextEvent = .host ∧ hostStep s.popped = .next t) ∨ t = s.popped := by
  have hr : s.popped.rstN = true := (popped_rstN s).trans hs.1
  have hop : s.popped.op = .none := (popped_op s).trans hs.2
  rw [step_eq] at ht
  cases he : s.nextEvent with
  | host => exact .inl ⟨rfl, by rwa [he] at ht⟩
  | engine =>
    rw [he, perform, engineStep_of_idle hop] at ht
    exact .inr (Host.Outcome.next.inj ht).symm
  | sample x =>
    rw [he, perform, offerSample_of_not_seeding x (by rw [hop]; decide)] at ht
    exact .inr (Host.Outcome.next.inj ht).symm
  | resetPin level =>
    cases level with
    | false => exact absurd he hne
    | true =>
      have hpin : setResetPin true s.popped = s.popped := by rw [setResetPin, if_pos rfl, ← hr]
      rw [he, perform, hpin] at ht
      exact .inr (Host.Outcome.next.inj ht).symm
  | secondHost =>
    rw [he] at ht
    cases ht

/-- What every step keeps holds when a host program ends. -/
theorem runProgram_induction {P : State → Prop} (hstep : ∀ {s t}, P s → step s = .next t → P t) {fuel : Nat}
    {s t : State} (hs : P s) (h : runProgram fuel s = some t) : P t ∧ programEnded t = true := by
  have ended : ∀ {s}, P s → programEnded s = true → some s = some t → P t ∧ programEnded t = true := by
    rintro s hs hp ⟨⟩
    exact ⟨hs, hp⟩
  induction fuel generalizing s with
  | zero =>
    unfold runProgram at h
    split at h
    case isTrue hp => exact ended hs hp h
    case isFalse => cases h
  | succ fuel ih =>
    unfold runProgram at h
    split at h
    case isTrue hp => exact ended hs hp h
    case isFalse =>
      split at h
      case h_1 u hu => exact ih (hstep hs hu) h
      case h_2 => cases h
      case h_3 => cases h

/-! ### Loading the key -/

theorem keyOffset_injective {i j : Fin 16} (h : keyOffset i = keyOffset j) : i = j :=
  WindowReg.key.inj (by rw [← windowReg_keyOffset, h, windowReg_keyOffset])

/-- A WRKEY of `k`, begun in `s₀`, is under way: every write still to come is one of its writes, and every byte whose
write is not to come is stored. -/
structure LoadingKey (s₀ : State) (k : Block) (s : State) : Prop where
  ready : s.ready
  noReset : s.noReset
  data : s.data = s₀.data
  error : s.error = s₀.error
  pending : ∀ b ∈ s.host.prog, ∃ i : Fin 16, b = .wr (keyOffset i) k[i]
  stored : ∀ i : Fin 16, s.key[i] = k[i] ∨ .wr (keyOffset i) k[i] ∈ s.host.prog

theorem loadingKey_loadProg {s : State} (k : Block) (hs : s.ready) (ha : s.noReset) :
    LoadingKey s k (loadProg (wrKeyProg k) s) where
  ready := hs
  noReset := ha
  data := rfl
  error := rfl
  pending b hb := by
    obtain ⟨i, _, rfl⟩ := List.mem_map.1 hb
    exact ⟨i, rfl⟩
  stored i := .inr (List.mem_map.2 ⟨i, List.mem_finRange i, rfl⟩)

theorem LoadingKey.popped {s₀ s : State} {k : Block} (h : LoadingKey s₀ k s) : LoadingKey s₀ k s.popped where
  ready := by simpa [State.ready] using h.ready
  noReset := h.noReset.popped
  data := by simpa using h.data
  error := by simpa using h.error
  pending := by simpa using h.pending
  stored := by simpa using h.stored

/-- The program's next write stores its byte. -/
theorem LoadingKey.setKey {s₀ s : State} {k : Block} {i : Fin 16} {rest : List BusOp} (h : LoadingKey s₀ k s)
    (hp : s.host.prog = .wr (keyOffset i) k[i] :: rest) :
    LoadingKey s₀ k (setKey i k[i] (setProg rest s)) where
  ready := h.ready
  noReset := h.noReset
  data := h.data
  error := h.error
  pending b hb := h.pending b (hp ▸ List.mem_cons_of_mem _ hb)
  stored j := by
    rcases eq_or_ne i j with rfl | hne
    · exact .inl (by simp)
    · have hij : i.val ≠ j.val := Fin.val_ne_of_ne hne
      refine (h.stored j).imp (fun hkey => ?_) fun hmem => ?_
      · simpa [Vector.getElem_set, hij] using hkey
      · rw [hp, List.mem_cons] at hmem
        exact hmem.resolve_left fun heq => hne (keyOffset_injective (BusOp.wr.inj heq).1).symm

theorem LoadingKey.hostStep {s₀ s t : State} {k : Block} (h : LoadingKey s₀ k s) (ht : hostStep s = .next t) :
    LoadingKey s₀ k t := by
  unfold Machine.hostStep at ht
  split at ht
  case h_1 => exact Host.Outcome.next.inj ht ▸ h
  case h_2 b rest hp =>
    obtain ⟨i, rfl⟩ := h.pending b (by simp [hp])
    rw [transaction, hostWrite_key, whenIdle_of_idle (s := setProg rest s) _ h.ready.1 h.ready.2] at ht
    exact Host.Outcome.next.inj ht ▸ h.setKey hp

theorem LoadingKey.step {s₀ s t : State} {k : Block} (h : LoadingKey s₀ k s) (ht : step s = .next t) :
    LoadingKey s₀ k t := by
  rcases step_of_ready h.ready h.noReset.nextEvent_ne ht with ⟨_, hhost⟩ | rfl
  · exact h.popped.hostStep hhost
  · exact h.popped

/-- With no write to come the whole key is stored. -/
theorem LoadingKey.key_eq {s₀ s : State} {k : Block} (h : LoadingKey s₀ k s) (hp : s.host.prog = []) : s.key = k :=
  Vector.ext fun i hi => (h.stored ⟨i, hi⟩).resolve_right (by simp [hp])

/-- Settles O52: every step keeps the key loading, which ends with no write to come. -/
theorem hostLoadKeyStoresKey : Obligations.HostLoadKeyStoresKey := by
  unfold Obligations.HostLoadKeyStoresKey
  intro fuel k s t hs ha hrun
  obtain ⟨h, hend⟩ := runProgram_induction LoadingKey.step (loadingKey_loadProg k hs ha) hrun
  have hp : t.host.prog = [] := by
    simp only [programEnded, Bool.and_eq_true, List.isEmpty_iff] at hend
    exact hend.1
  exact ⟨h.key_eq hp, h.data, h.error, h.ready⟩

end Sys2Proof.Machine
end

section
/-!
PROOFS. Multiplication of bytes as the field product: the bytes are the polynomials in x over GF(2), of which 0x01 and
`xtime` (times x) generate all, so what is additive and moves through `xtime` is settled at 0x01
(spec/40_aes128.md R101 to R103).
-/

namespace Sys2Proof.Machine

/-! ### Multiplication by x -/

@[simp] theorem xtime_zero : xtime 0#8 = 0#8 := by decide

theorem xtime_xor (a b : Byte) : xtime (a ^^^ b) = xtime a ^^^ xtime b := by
  have hreduce : (if (a ^^^ b).getLsbD 7 then 0x1B else 0x00 : Byte) =
      (if a.getLsbD 7 then 0x1B else 0x00) ^^^ (if b.getLsbD 7 then 0x1B else 0x00) := by
    rw [BitVec.getLsbD_xor]
    cases a.getLsbD 7 <;> cases b.getLsbD 7 <;> rfl
  simp only [xtime, hreduce, BitVec.shiftLeft_xor_distrib]
  ac_rfl

@[simp] theorem xtimePow_zero_right (k : Nat) : xtimePow k 0#8 = 0#8 := by
  induction k with
  | zero => rfl
  | succ k ih => rw [xtimePow, ih, xtime_zero]

theorem xtimePow_xor (k : Nat) (a b : Byte) : xtimePow k (a ^^^ b) = xtimePow k a ^^^ xtimePow k b := by
  induction k with
  | zero => rfl
  | succ k ih => simp only [xtimePow, ih, xtime_xor]

theorem xtimePow_xtime (k : Nat) (a : Byte) : xtimePow k (xtime a) = xtime (xtimePow k a) := by
  induction k with
  | zero => rfl
  | succ k ih => simp only [xtimePow, ih]

/-! ### The product as a sum -/

/-- The sum of `f 0`, ..., `f (n - 1)` in the field, where addition is XOR. -/
def xorSum (f : Nat → Byte) : Nat → Byte
  | 0 => 0#8
  | n + 1 => xorSum f n ^^^ f n

theorem xorSum_xor (f g : Nat → Byte) (n : Nat) :
    xorSum (fun k => f k ^^^ g k) n = xorSum f n ^^^ xorSum g n := by
  induction n with
  | zero => exact BitVec.xor_zero.symm
  | succ n ih =>
    simp only [xorSum, ih]
    ac_rfl

theorem xtime_xorSum (f : Nat → Byte) (n : Nat) : xtime (xorSum f n) = xorSum (fun k => xtime (f k)) n := by
  induction n with
  | zero => exact xtime_zero
  | succ n ih => simp only [xorSum, xtime_xor, ih]

theorem xorSum_induction {P : Byte → Prop} {f : Nat → Byte} (zero : P 0#8)
    (xor : ∀ a b, P a → P b → P (a ^^^ b)) (term : ∀ k, P (f k)) (n : Nat) : P (xorSum f n) := by
  induction n with
  | zero => exact zero
  | succ n ih => exact xor _ _ ih (term n)

/-- `b[k] * x^k * a`: what bit `k` of `b` brings into `gmul(a, b)`. -/
def gmulTerm (a b : Byte) (k : Nat) : Byte := if b.getLsbD k then xtimePow k a else 0#8

theorem gmulTerm_xor_left (a b c : Byte) (k : Nat) : gmulTerm (a ^^^ b) c k = gmulTerm a c k ^^^ gmulTerm b c k := by
  unfold gmulTerm
  split
  · exact xtimePow_xor k a b
  · rfl

theorem gmulTerm_xor_right (a b c : Byte) (k : Nat) : gmulTerm a (b ^^^ c) k = gmulTerm a b k ^^^ gmulTerm a c k := by
  simp only [gmulTerm, BitVec.getLsbD_xor]
  cases b.getLsbD k <;> cases c.getLsbD k <;> simp

theorem gmulTerm_xtime_left (a b : Byte) (k : Nat) : gmulTerm (xtime a) b k = xtime (gmulTerm a b k) := by
  unfold gmulTerm
  split
  · exact xtimePow_xtime k a
  · exact xtime_zero.symm

theorem gmul_eq_xorSum (a b : Byte) : gmul a b = xorSum (gmulTerm a b) 8 := by
  have hstep : (fun (acc : Byte) k => if b.getLsbD k then acc ^^^ xtimePow k a else acc) =
      fun acc k => acc ^^^ gmulTerm a b k := by
    funext acc k
    unfold gmulTerm
    split
    · rfl
    · exact BitVec.xor_zero.symm
  rw [gmul, hstep]
  rfl

theorem gmul_xor_left (a b c : Byte) : gmul (a ^^^ b) c = gmul a c ^^^ gmul b c := by
  simp only [gmul_eq_xorSum, ← xorSum_xor, ← gmulTerm_xor_left]

theorem gmul_xor_right (a b c : Byte) : gmul a (b ^^^ c) = gmul a b ^^^ gmul a c := by
  simp only [gmul_eq_xorSum, ← xorSum_xor, ← gmulTerm_xor_right]

theorem gmul_xtime_left (a b : Byte) : gmul (xtime a) b = xtime (gmul a b) := by
  simp only [gmul_eq_xorSum, xtime_xorSum, ← gmulTerm_xtime_left]

@[simp] theorem zero_gmul (b : Byte) : gmul 0#8 b = 0#8 := by
  simpa using gmul_xor_left 0#8 0#8 b

@[simp] theorem gmul_zero (a : Byte) : gmul a 0#8 = 0#8 := rfl

@[simp] theorem gmul_one (a : Byte) : gmul a 1#8 = a := by
  rw [gmul_eq_xorSum]
  simp [xorSum, gmulTerm, xtimePow]

/-- A byte is the sum of the powers of x that its bits name. -/
@[simp] theorem one_gmul (b : Byte) : gmul 1#8 b = b := by
  revert b; decide +kernel

/-! ### The bytes are generated by 0x01 and x -/

/-- Induction over the bytes as polynomials in x: 0x00 and 0x01, times x, and sums give every byte. -/
theorem byte_polynomial_induction {P : Byte → Prop} (zero : P 0#8) (one : P 1#8)
    (times_x : ∀ a, P a → P (xtime a)) (sum : ∀ a b, P a → P b → P (a ^^^ b)) (a : Byte) : P a := by
  have hpow : ∀ k, P (xtimePow k 1#8) := fun k => by
    induction k with
    | zero => exact one
    | succ k ih => exact times_x _ ih
  have hterm : ∀ k, P (gmulTerm 1#8 a k) := fun k => by
    unfold gmulTerm
    split
    · exact hpow k
    · exact zero
  rw [← one_gmul a, gmul_eq_xorSum]
  exact xorSum_induction zero sum hterm 8

theorem gmul_xtime_right (a b : Byte) : gmul a (xtime b) = xtime (gmul a b) := by
  induction a using byte_polynomial_induction with
  | zero => simp
  | one => simp
  | times_x a ih => simp only [gmul_xtime_left, ih]
  | sum a a' ih ih' => simp only [gmul_xor_left, xtime_xor, ih, ih']

theorem gmul_comm (a b : Byte) : gmul a b = gmul b a := by
  induction a using byte_polynomial_induction with
  | zero => simp
  | one => simp
  | times_x a ih => rw [gmul_xtime_left, gmul_xtime_right, ih]
  | sum a a' ih ih' => rw [gmul_xor_left, gmul_xor_right, ih, ih']

theorem gmul_assoc (a b c : Byte) : gmul (gmul a b) c = gmul a (gmul b c) := by
  induction a using byte_polynomial_induction with
  | zero => simp
  | one => simp
  | times_x a ih => simp only [gmul_xtime_left, ih]
  | sum a a' ih ih' => simp only [gmul_xor_left, ih, ih']

theorem gmul_two (a : Byte) : gmul a 0x02 = xtime a := by
  calc gmul a 0x02 = gmul a (xtime 1#8) := rfl
    _ = xtime a := by rw [gmul_xtime_right, gmul_one]

theorem gmul_three (a : Byte) : gmul a 0x03 = gmul a 0x02 ^^^ a := by
  calc gmul a 0x03 = gmul a (0x02 ^^^ 1#8) := rfl
    _ = gmul a 0x02 ^^^ a := by rw [gmul_xor_right, gmul_one]

/-- Settles O37: a product by 0x02 is `xtime`, which moves through either factor, and both sides of each law agree on
the bytes that 0x01, `xtime` and XOR generate. -/
theorem gmulIsFieldProduct : Obligations.GmulIsFieldProduct := by
  unfold Obligations.GmulIsFieldProduct
  refine ⟨fun a b c => ⟨gmul_xor_left a b c, gmul_xor_right a b c⟩, gmul_comm, fun a b => ?_,
    fun a => ⟨gmul_one a, zero_gmul a, gmul_three a⟩, fun a => ?_⟩
  · rw [gmul_two, gmul_two, gmul_xtime_right]
  · rw [gmul_two, xtime]
    split
    · rfl
    · exact BitVec.xor_zero

end Sys2Proof.Machine
end

section
/-!
PROOFS. The round transformations: the S-box from the field's inverse (spec/40_aes128.md R105), where each byte of
ShiftRows and MixColumns comes from (R107, R108), the key schedule (R110, R111) and the loop of ten rounds (R112).
-/

namespace Sys2Proof.Machine

/-! ### The S-box -/

/-- The affine map of R105. -/
def sboxAffine (b : Byte) : Byte :=
  b ^^^ b.rotateLeft 1 ^^^ b.rotateLeft 2 ^^^ b.rotateLeft 3 ^^^ b.rotateLeft 4 ^^^ 0x63

/-- The inverse of the affine map. -/
def sboxAffineInv (s : Byte) : Byte := s.rotateLeft 1 ^^^ s.rotateLeft 3 ^^^ s.rotateLeft 6 ^^^ 0x05

theorem sboxAffine_sboxAffineInv (s : Byte) : sboxAffine (sboxAffineInv s) = s := by
  revert s; decide +kernel

/-- The table holds the inverse of every non-zero byte, under the affine map: one product per entry. -/
theorem gmul_sboxAffineInv_sbox {a : Byte} (ha : a ≠ 0#8) : gmul a (sboxAffineInv (sbox a)) = 1#8 := by
  revert a; decide +kernel

theorem gmul_inverse_unique {a b c : Byte} (hb : gmul a b = 1#8) (hc : gmul a c = 1#8) : b = c := by
  calc b = gmul (gmul a c) b := by rw [hc, one_gmul]
    _ = gmul (gmul a b) c := by rw [gmul_assoc, gmul_comm c b, ← gmul_assoc]
    _ = c := by rw [hb, one_gmul]

theorem sbox_of_gmul_eq_one {a b : Byte} (h : gmul a b = 1#8) : sbox a = sboxAffine b := by
  have ha : a ≠ 0#8 := by
    rintro rfl
    simp at h
  rw [gmul_inverse_unique h (gmul_sboxAffineInv_sbox ha), sboxAffine_sboxAffineInv]

theorem sbox_zero : sbox 0#8 = sboxAffine 0#8 := by decide

/-- Settles O36: the affine map undone on SBOX gives an inverse of each non-zero byte, and an inverse is unique. -/
theorem sboxIsAffineOfInverse : Obligations.SboxIsAffineOfInverse := by
  unfold Obligations.SboxIsAffineOfInverse
  refine ⟨fun a ha => ⟨_, gmul_sboxAffineInv_sbox ha⟩, fun a b h => ?_⟩
  rcases h with h | ⟨rfl, rfl⟩
  · exact sbox_of_gmul_eq_one h
  · exact sbox_zero

/-! ### ShiftRows and MixColumns -/

theorem getElem_shiftRows (s : Block) (i : Nat) (hi : i < 16) : (shiftRows s)[i] = s[(shiftRowsSource ⟨i, hi⟩).val] := by
  simp [shiftRows]

theorem shiftRowsSource_row_column (r c : Fin 4) :
    (shiftRowsSource ⟨r.val + 4 * c.val, by omega⟩).val = r.val + 4 * ((c.val + r.val) % 4) := by
  have hr : (r.val + 4 * c.val) % 4 = r.val := by omega
  have hc : (r.val + 4 * c.val) / 4 = c.val := by omega
  simp only [shiftRowsSource, hr, hc]

theorem shiftRowsSource_table :
    Vector.ofFn shiftRowsSource = #v[0, 5, 10, 15, 4, 9, 14, 3, 8, 13, 2, 7, 12, 1, 6, 11] := by decide

/-- Settles O35: the source of each byte is computed from its row and column, and for the sixteen bytes is the table. -/
theorem shiftRowsRotatesRows : Obligations.ShiftRowsRotatesRows := by
  unfold Obligations.ShiftRowsRotatesRows
  constructor
  · intro s r c
    simp only [getElem_shiftRows, shiftRowsSource_row_column]
  · intro s
    have hmap : shiftRows s = (Vector.ofFn shiftRowsSource).map fun i => s[i] := by
      ext i hi
      simp [getElem_shiftRows]
    simp [hmap, shiftRowsSource_table]

/-- Byte `r` of column `c`. -/
theorem getElem_mixColumns (s : Block) (c r : Fin 4) :
    (mixColumns s)[4 * c.val + r.val] =
      (mixColumn s[4 * c.val] s[4 * c.val + 1] s[4 * c.val + 2] s[4 * c.val + 3])[r] := by
  have hc : (4 * c.val + r.val) / 4 = c.val := by omega
  have hr : (4 * c.val + r.val) % 4 = r.val := by omega
  simp only [mixColumns, Vector.getElem_ofFn, hc, hr, Fin.eta]

/-- Settles O38: byte `r` of a column is byte `r` of `mixColumn`, for r = 0..3. -/
theorem mixColumnsMixesEachColumn : Obligations.MixColumnsMixesEachColumn := by
  unfold Obligations.MixColumnsMixesEachColumn
  exact fun s c =>
    ⟨getElem_mixColumns s c 0, getElem_mixColumns s c 1, getElem_mixColumns s c 2, getElem_mixColumns s c 3⟩

/-! ### The key schedule -/

theorem rcon_succ {r : Nat} (hr : 1 ≤ r) : rcon (r + 1) = xtime (rcon r) := by
  obtain ⟨n, rfl⟩ := Nat.exists_eq_add_of_le' hr
  rfl

/-- The XOR chain of R111: a byte past the first word is its old value XORed with the new byte one word before. -/
theorem getElem_nextRoundKey_add_four (rk : Block) (r : Nat) (i : Fin 12) :
    (nextRoundKey rk r)[i.val + 4] = rk[i.val + 4] ^^^ (nextRoundKey rk r)[i.val] := by
  fin_cases i <;> rfl

/-- Settles O39: the first word is as `nextRoundKey` writes it, and the rest follows by the XOR chain. -/
theorem roundKeyFollowsFromPredecessor : Obligations.RoundKeyFollowsFromPredecessor := by
  unfold Obligations.RoundKeyFollowsFromPredecessor
  exact ⟨⟨rfl, fun r => rcon_succ⟩, fun k p => rfl,
    fun rk r => ⟨rfl, rfl, rfl, rfl, getElem_nextRoundKey_add_four rk r⟩⟩

/-! ### The loop of rounds -/

/-- Round `r` of R112 on the pair of round key and state. -/
def ruleRound (w : Block × Block) (r : Nat) : Block × Block :=
  let shifted := shiftRows (subBytes w.2)
  let rk := nextRoundKey w.1 r
  (rk, addRoundKey (if r < 10 then mixColumns shifted else shifted) rk)

/-- The registers S, RK and ROUND that hold a pair of round key and state after `r` rounds. -/
def workOfPair (w : Block × Block) (r : Nat) : CipherWork := ⟨w.2, w.1, Fin.ofNat 11 r⟩

/-- ROUND counts to 10 without wrapping, so each of the ten rounds is the rule's round of its number. -/
theorem cipherRound_workOfPair (w : Block × Block) {r : Nat} (hr : r < 10) :
    cipherRound (workOfPair w r) = workOfPair (ruleRound w (r + 1)) (r + 1) := by
  have hround : (Fin.ofNat 11 r).val = r := Nat.mod_eq_of_lt (by omega)
  simp only [cipherRound, workOfPair, ruleRound, Config.rounds, hround]

theorem cipherRounds_workOfPair (w : Block × Block) {n : Nat} (hn : n ≤ 10) :
    cipherRounds n (workOfPair w 0) = workOfPair ((List.range' 1 n).foldl ruleRound w) n := by
  induction n with
  | zero => rfl
  | succ n ih =>
    rw [cipherRounds, ih (by omega), cipherRound_workOfPair _ (by omega), List.range'_1_concat, List.foldl_append,
      Nat.add_comm 1 n]
    rfl

/-- Settles O40: the ten rounds on S, RK and ROUND are the rule's fold, from the pair that `cipherStart` holds. -/
theorem aes128IsTheRuleLoop : Obligations.Aes128IsTheRuleLoop := by
  unfold Obligations.Aes128IsTheRuleLoop
  intro k p
  have hloop := congrArg CipherWork.s (cipherRounds_workOfPair (k, addRoundKey p k) (le_refl 10))
  rw [aes128]
  exact hloop

end Sys2Proof.Machine
end

section
/-!
PROOFS. The cipher unit's commands: what an idle and a busy block make of NOP and ENC, and the completion of ENC
(spec/41_cipher_commands.md R140 to R142).
-/

namespace Sys2Proof.Machine

/-- An idle block takes the command's effect (R81). -/
theorem exec_of_ready (i : Instr) {s : State} (h : s.ready) : exec i s = .next (commandEffect i s) := by
  rw [exec_eq, whenIdle_of_idle _ h.1 h.2]

/-- A busy block rejects every command with ERR_BUSY (R231). -/
theorem exec_of_inFlight (i : Instr) {s : State} (h : s.inFlight) : exec i s = .next (raise .busy s) := by
  rw [exec_eq, whenIdle_of_busy _ h.1 h.2]

/-- Settles O7: the effect of NOP is none, and it passes the same guard as every command. -/
theorem nopChangesNothing : Obligations.NopChangesNothing := by
  unfold Obligations.NopChangesNothing
  exact ⟨rfl, fun _ => exec_of_ready .nop, fun _ => exec_of_inFlight .nop⟩

/-- Settles O8: the effect of ENC is its acceptance, and it passes the same guard as every command. -/
theorem encIsAccepted : Obligations.EncIsAccepted := by
  unfold Obligations.EncIsAccepted
  exact ⟨rfl, fun _ => exec_of_ready .enc, fun _ => exec_of_inFlight .enc⟩

/-- The engine's move on an ENC in flight is its completion, with the event taken off the agenda. -/
theorem step_of_engine_enc {s : State} {rest : List Event} (hr : s.rstN = true) (hop : s.op = .enc)
    (ha : s.agenda = .engine :: rest) : step s = .next (encComplete (setAgenda rest s)) := by
  have hengine : engineStep (setAgenda rest s) = encComplete (setAgenda rest s) := engineStep_of_enc hr hop
  rw [step_of_cons ha, perform, hengine]

/-- Settles O9: the step is the completion, which writes DATA, OP, DONE and the datapath's registers and nothing else. -/
theorem encCompletionEncryptsData : Obligations.EncCompletionEncryptsData := by
  unfold Obligations.EncCompletionEncryptsData
  intro s rest hr hop ha
  rw [step_of_engine_enc hr hop ha, encComplete, disturbWork, complete]
  rfl

end Sys2Proof.Machine
end

section
/-!
PROOFS. Entropy collection: which samples count, what a pair of them keeps, the byte that eight kept bits make, and a
seed under samples alone, from its acceptance to its end and beyond (spec/42_rng.md R161 to R165, R172).
-/

namespace Sys2Proof.Machine

/-! ### Samples and pairs -/

theorem noiseReq_iff (s : State) : s.noiseReq = true ↔ s.rstN = true ∧ s.op = .seed := by
  simp [State.noiseReq]

/-- Settles O30: a sample counts exactly while `noise_req` is 1. -/
theorem samplesCountOnlyWhileSeeding : Obligations.SamplesCountOnlyWhileSeeding := by
  unfold Obligations.SamplesCountOnlyWhileSeeding
  exact fun s x => ⟨noiseReq_iff s, offerSample_of_seeding x, offerSample_of_not_seeding x⟩

/-- A sample is known by its chosen bit only (R162). -/
theorem consumeSample_congr {x y : Byte} (h : noiseBitOf x = noiseBitOf y) (s : State) :
    consumeSample x s = consumeSample y s := by
  rw [consumeSample, h, consumeSample]

/-- A pair of samples: the second one's bit is kept if the two differ (R162). -/
theorem consumeSample_pair {s : State} (x y : Byte) (h : s.nsHave = false) :
    consumeSample y (consumeSample x s) =
      if noiseBitOf x = noiseBitOf y then { s with nsFirst := noiseBitOf x }
      else keepBit (noiseBitOf y) { s with nsFirst := noiseBitOf x } := by
  rw [consumeSample_of_first x h]
  split
  case isTrue heq => rw [consumeSample_of_equal rfl heq.symm, h]
  case isFalse hne => rw [consumeSample_of_differ rfl (Ne.symm hne), h]

/-- Settles O31: the bit of a sample that is used is bit 0. -/
theorem samplePairKeepsSecondDifferingBit : Obligations.SamplePairKeepsSecondDifferingBit := by
  unfold Obligations.SamplePairKeepsSecondDifferingBit
  exact ⟨fun _ => consumeSample_pair, fun _ => consumeSample_of_first, fun s _ _ h => consumeSample_congr h s⟩

/-! ### Eight kept bits -/

/-- The next lower bit enters behind the higher ones (R163). -/
theorem shiftLeft_or_bit (v : Byte) {n : Nat} (hn : n < 8) :
    ((v >>> (8 - n)) <<< 1) ||| bitByte (v.getLsbD (7 - n)) = v >>> (7 - n) := by
  refine BitVec.eq_of_getLsbD_eq fun i hi => ?_
  cases i with
  | zero => simp [bitByte]
  | succ i =>
    have hplace : 8 - n + i = 7 - n + (i + 1) := by omega
    simp [bitByte, hplace, hi]

/-- Up to seven bits of a byte, from bit 7 down, are held in SHIFT. -/
theorem keepBits_of_unfinished {s : State} (v : Byte) (hshift : s.shift = 0x00) (hbits : s.bitcnt = 0) {n : Nat}
    (hn : n < 8) :
    (List.range n).foldl (fun t j => keepBit (v.getLsbD (7 - j)) t) s =
      { s with shift := v >>> (8 - n), bitcnt := ⟨n, hn⟩ } := by
  induction n with
  | zero =>
    have hempty : v >>> (8 - 0) = s.shift := (BitVec.ushiftRight_eq_zero (Nat.le_refl 8)).trans hshift.symm
    have hnone : (⟨0, hn⟩ : Fin 8) = s.bitcnt := hbits.symm
    rw [hempty, hnone]
    rfl
  | succ n ih =>
    have hne : (⟨n, by omega⟩ : Fin 8) ≠ 7 := Fin.ne_of_val_ne (show n ≠ 7 by omega)
    have hcnt : (⟨n, by omega⟩ : Fin 8) + 1 = ⟨n + 1, hn⟩ := Fin.ext (Nat.mod_eq_of_lt hn)
    rw [List.range_succ, List.foldl_append, ih (by omega), List.foldl_cons, List.foldl_nil, keepBit_of_unfinished _ hne]
    simp only [shiftLeft_or_bit v (show n < 8 by omega), hcnt, show 8 - (n + 1) = 7 - n by omega]

/-- Settles O32: seven bits are held in SHIFT, and the eighth stores the byte. -/
theorem eightKeptBitsStoreTheirByte : Obligations.EightKeptBitsStoreTheirByte := by
  unfold Obligations.EightKeptBitsStoreTheirByte
  intro s v hshift hbits hptr
  have hbyte : ((v >>> (8 - 7)) <<< 1) ||| bitByte (v.getLsbD (7 - 7)) = v :=
    (shiftLeft_or_bit v (by decide)).trans (BitVec.ushiftRight_zero v)
  have hnext : (⟨s.byteptr.val + 1, by omega⟩ : Fin 17) = Fin.ofNat 17 (s.byteptr.val + 1) :=
    Fin.ext (Nat.mod_eq_of_lt (by omega)).symm
  have heighth := keepBit_of_eighth (s := { s with shift := v >>> (8 - 7), bitcnt := 7 }) (v.getLsbD (7 - 7)) rfl hptr
  rw [List.range_succ, List.foldl_append, keepBits_of_unfinished v hshift hbits (by decide)]
  refine heighth.trans ?_
  simp only [hbyte, hnext, hshift, hbits]

/-! ### A seed under samples alone -/

/-- The block's results, its ERROR register and the host are the same: what no sample changes. -/
def SampleFrame (s t : State) : Prop := SameResults s t ∧ t.error = s.error ∧ t.host = s.host

theorem SampleFrame.trans {s t u : State} (h₁ : SampleFrame s t) (h₂ : SampleFrame t u) : SampleFrame s u := by
  obtain ⟨hr₁, he₁, hh₁⟩ := h₁
  obtain ⟨hr₂, he₂, hh₂⟩ := h₂
  exact ⟨hr₁.trans hr₂, he₂.trans he₁, hh₂.trans hh₁⟩

theorem bitsWith_nil (s : State) (bits : List Bool) : s.bitsWith bits [] = bits := bitsBy_zero s bits

/-- Samples of no seed are ignored, however many there are (R161). -/
theorem run_samples_ignored {s : State} (xs : List Byte) (hop : s.op ≠ .seed) (ha : s.agenda = xs.map .sample) :
    run xs.length s = .next (setAgenda [] s) := by
  induction xs generalizing s with
  | nil => rw [← show s.agenda = [] from ha]; rfl
  | cons x xs ih =>
    have hstep : step s = .next (setAgenda (xs.map .sample) s) := by
      rw [step_of_cons ha, perform, offerSample_of_not_seeding (s := setAgenda (xs.map .sample) s) x hop]
    exact (run_succ_of_next xs.length hstep).trans (ih hop rfl)

/-- Samples alone bring a seed to the bits they keep: it is in flight, or they have completed it. -/
theorem run_samples_hasKept {s : State} {bits : List Bool} (xs : List Byte) (h : s.HasKept bits)
    (ha : s.agenda = xs.map .sample) :
    ∃ t, run xs.length s = .next t ∧ SampleFrame s t ∧
      ((t.HasKept (s.bitsWith bits xs) ∧ t.seeded = s.seeded ∧ t.done = s.done) ∨
        t.SeededBy (s.bitsWith bits xs)) := by
  induction xs generalizing s bits with
  | nil => exact ⟨s, rfl, ⟨⟨rfl, rfl, rfl, rfl⟩, rfl, rfl⟩, .inl ⟨(bitsWith_nil s bits).symm ▸ h, rfl, rfl⟩⟩
  | cons x xs ih =>
    obtain ⟨hkept, hwith⟩ := (blockKept_popped s).hasKept h
    have hstep : step s = .next (consumeSample x s.popped) := by
      rw [step_of_sample (nextEvent_of_cons ha),
        offerSample_of_seeding x hkept.collecting.running hkept.collecting.seeding]
    have hrest : (consumeSample x s.popped).agenda = xs.map .sample := by
      rw [consumeSample_agenda, popped_of_cons ha, setAgenda_agenda]
    have hframe : SampleFrame s (consumeSample x s.popped) := by simp [SampleFrame, SameResults]
    rw [List.length_cons, run_succ_of_next _ hstep, ← hwith]
    rcases consumeSample_hasKept hkept x with ⟨bits', hkept', hbits⟩ | hdone
    · obtain ⟨t, ht, hframe', hend⟩ := ih hkept' hrest
      refine ⟨t, ht, hframe.trans hframe', ?_⟩
      have hgoes := consumeSample_of_still_seeding hkept'.collecting.seeding
      simpa [hbits, hgoes] using hend
    · obtain ⟨hready, hd, hs, hidx, henough, hpool⟩ := hdone xs
      exact ⟨_, run_samples_ignored xs (by simp [hready.2]) hrest, hframe,
        .inr ⟨hready, hd, hs, hidx, henough, hpool⟩⟩

/-- Settles O33: the bits of all the samples are those that `HasKept` counts up to the 120th. -/
theorem seedCompletesWithThe120thKeptBit : Obligations.SeedCompletesWithThe120thKeptBit := by
  unfold Obligations.SeedCompletesWithThe120thKeptBit
  intro s xs hr hop hns hshift hbits hptr ha
  have hseed : s.seedJustAccepted := ⟨hr, hop, hns, hshift, hbits, hptr⟩
  obtain ⟨t, ht, ⟨⟨hk, hdata, hlo, hhi⟩, herror, hhost⟩, hend⟩ := run_samples_hasKept xs hseed.hasKept.1 ha
  refine ⟨t, ht, hk, hdata, herror, hlo, hhi, hhost, ?_⟩
  rw [bitsWith_of_not_held hns, List.nil_append] at hend
  rcases hend with ⟨hkept, hseeded, hdone⟩ | hdone
  · rw [if_pos hkept.length_lt]
    exact ⟨hkept.collecting.seeding, hseeded, hdone⟩
  · rw [if_neg (Nat.not_lt.2 hdone.enough)]
    exact ⟨hdone.ready.2, hdone.seeded, hdone.done, hdone.idx, hdone.pool⟩

end Sys2Proof.Machine
end

section
/-!
PROOFS. The draws: what an idle and a busy block make of the randomness unit's commands, the bytes a completion takes,
and the stream that repeated whitening gives (spec/42_rng.md R166 to R171).
-/

namespace Sys2Proof.Machine

/-! ### Acceptance -/

/-- Settles O10: the effect of RNG_SEED is its acceptance, and it passes the same guard as every command. -/
theorem rngSeedIsAccepted : Obligations.RngSeedIsAccepted := by
  unfold Obligations.RngSeedIsAccepted
  exact ⟨rfl, fun _ => exec_of_ready .rngSeed, fun _ => exec_of_inFlight .rngSeed⟩

/-- A seeded idle block accepts a draw (R168, R169). -/
theorem exec_draw_of_seeded {i : Instr} {op : Op} (hi : commandEffect i = acceptDraw op) {s : State} (h : s.ready)
    (hs : s.seeded = true) : exec i s = .next (accept op s) := by
  rw [exec_of_ready i h, hi, acceptDraw_of_seeded op hs]

/-- An unseeded one rejects it with ERR_UNSEEDED (R233). -/
theorem exec_draw_of_unseeded {i : Instr} {op : Op} (hi : commandEffect i = acceptDraw op) {s : State} (h : s.ready)
    (hs : s.seeded = false) : exec i s = .next (raise .unseeded s) := by
  rw [exec_of_ready i h, hi, acceptDraw_of_unseeded op hs]

/-! ### Completion -/

theorem step_of_engine_u8 {s : State} {rest : List Event} (hr : s.rstN = true) (hop : s.op = .u8)
    (ha : s.agenda = .engine :: rest) : step s = .next (u8Complete (setAgenda rest s)) := by
  rw [step_of_engine (nextEvent_of_cons ha), popped_of_cons ha, engineStep_of_u8 (s := setAgenda rest s) hr hop]

theorem step_of_engine_u16 {s : State} {rest : List Event} (hr : s.rstN = true) (hop : s.op = .u16)
    (ha : s.agenda = .engine :: rest) : step s = .next (u16Complete (setAgenda rest s)) := by
  rw [step_of_engine (nextEvent_of_cons ha), popped_of_cons ha, engineStep_of_u16 (s := setAgenda rest s) hr hop]

/-- A draw inside the pool, by the hardware's key. -/
theorem rngDraw_of_lt {s : State} (i : Fin 16) (h : s.idx.val = i.val) :
    rngDraw s = (s.pool[i], { s with idx := i.succ }) :=
  rngDrawWith_of_lt Config.rngKey i h

/-- A draw from a used-up pool, by the hardware's key. -/
theorem rngDraw_of_used {s : State} (h : s.idx = 16) :
    rngDraw s = ((aes128 Config.rngKey s.pool)[0], { rewhiten Config.rngKey s with idx := 1 }) :=
  rngDrawWith_of_used Config.rngKey h

theorem u8Complete_eq {s t : State} {b : Byte} (h : rngDraw s = (b, t)) :
    u8Complete s = complete { t with rngOutLo := b, rngOutHi := 0x00 } := by
  rw [rngDraw] at h
  rw [u8Complete, u8CompleteWith, h]

theorem u16Complete_eq {s t u : State} {hi lo : Byte} (hhi : rngDraw s = (hi, t)) (hlo : rngDraw t = (lo, u)) :
    u16Complete s = complete { u with rngOutHi := hi, rngOutLo := lo } := by
  rw [rngDraw] at hhi hlo
  rw [u16Complete, u16CompleteWith]
  simp only [hhi, hlo]

theorem u8Complete_of_lt {s : State} (i : Fin 16) (h : s.idx.val = i.val) :
    u8Complete s = { s with
      rngOutLo := s.pool[i], rngOutHi := 0x00, idx := i.succ, op := .none, done := true } :=
  u8Complete_eq (rngDraw_of_lt i h)

theorem u8Complete_of_used {s : State} (h : s.idx = 16) :
    u8Complete s = { rewhiten Config.rngKey s with
      rngOutLo := (aes128 Config.rngKey s.pool)[0], rngOutHi := 0x00, idx := 1, op := .none, done := true } :=
  u8Complete_eq (rngDraw_of_used h)

/-- Both bytes are in the pool. -/
theorem u16Complete_of_lt {s : State} (i : Fin 15) (h : s.idx.val = i.val) :
    u16Complete s = { s with
      rngOutHi := s.pool[i.val], rngOutLo := s.pool[i.val + 1], idx := i.succ.succ, op := .none, done := true } :=
  u16Complete_eq (rngDraw_of_lt i.castSucc h) (rngDraw_of_lt i.succ rfl)

/-- The high byte is the pool's last, and the low byte is the first after the re-whitening. -/
theorem u16Complete_of_last {s : State} (h : s.idx = 15) :
    u16Complete s = { rewhiten Config.rngKey s with
      rngOutHi := s.pool[15], rngOutLo := (aes128 Config.rngKey s.pool)[0], idx := 1, op := .none, done := true } :=
  u16Complete_eq (rngDraw_of_lt 15 (congrArg Fin.val h)) (rngDraw_of_used rfl)

/-- Both bytes come after the re-whitening. -/
theorem u16Complete_of_used {s : State} (h : s.idx = 16) :
    u16Complete s = { rewhiten Config.rngKey s with
      rngOutHi := (aes128 Config.rngKey s.pool)[0], rngOutLo := (aes128 Config.rngKey s.pool)[1], idx := 2,
      op := .none, done := true } :=
  u16Complete_eq (rngDraw_of_used h) (rngDraw_of_lt 1 rfl)

/-- Settles O11: the draw finds a byte in the pool, or it re-whitens the pool first. -/
theorem rngU8DrawsOneByte : Obligations.RngU8DrawsOneByte := by
  unfold Obligations.RngU8DrawsOneByte
  refine ⟨rfl, fun _ => exec_draw_of_seeded (op := .u8) rfl, fun _ => exec_draw_of_unseeded (op := .u8) rfl,
    fun _ => exec_of_inFlight .rngU8, fun s rest hr hop ha => ?_⟩
  rw [step_of_engine_u8 hr hop ha]
  exact ⟨fun i hi => congrArg Host.Outcome.next (u8Complete_of_lt (s := setAgenda rest s) i hi),
    fun hi => congrArg Host.Outcome.next (u8Complete_of_used (s := setAgenda rest s) hi)⟩

/-- Settles O12: the second draw finds the pool as the first one has left it. -/
theorem rngU16DrawsHighByteFirst : Obligations.RngU16DrawsHighByteFirst := by
  unfold Obligations.RngU16DrawsHighByteFirst
  refine ⟨rfl, fun _ => exec_draw_of_seeded (op := .u16) rfl, fun _ => exec_draw_of_unseeded (op := .u16) rfl,
    fun _ => exec_of_inFlight .rngU16, fun s rest hr hop ha => ?_⟩
  rw [step_of_engine_u16 hr hop ha]
  exact ⟨fun i hi => congrArg Host.Outcome.next (u16Complete_of_lt (s := setAgenda rest s) i hi),
    fun hi => congrArg Host.Outcome.next (u16Complete_of_last (s := setAgenda rest s) hi),
    fun hi => congrArg Host.Outcome.next (u16Complete_of_used (s := setAgenda rest s) hi)⟩

/-- A draw reads POOL and IDX only. -/
theorem rngDraw_congr {s t : State} (hpool : t.pool = s.pool) (hidx : t.idx = s.idx) :
    (rngDraw t).1 = (rngDraw s).1 ∧ (rngDraw t).2.pool = (rngDraw s).2.pool ∧
      (rngDraw t).2.idx = (rngDraw s).2.idx := by
  rcases idx_cases s with ⟨i, hi⟩ | hi
  · rw [rngDraw_of_lt i hi, rngDraw_of_lt i (hidx ▸ hi)]
    exact ⟨by rw [hpool], hpool, rfl⟩
  · rw [rngDraw_of_used hi, rngDraw_of_used (hidx.trans hi), hpool]
    exact ⟨rfl, congrArg (aes128 Config.rngKey) hpool, rfl⟩

/-- Settles O13: the completion between the two draws leaves POOL and IDX, all that the second one reads. -/
theorem wordDrawIsTwoByteDraws : Obligations.WordDrawIsTwoByteDraws := by
  unfold Obligations.WordDrawIsTwoByteDraws
  intro s
  obtain ⟨hbyte, hpool, hidx⟩ := rngDraw_congr (s := (rngDraw s).2) (t := u8Complete s) rfl rfl
  exact ⟨hpool.symm, hidx.symm, rfl, hbyte.symm⟩

/-! ### The stream -/

/-- Byte `j` of `X1 || X2 || ...`, where X0 is the given pool (R170). -/
def streamByte (x : Block) (j : Nat) : Byte := (whitened (j / 16 + 1) x)[j % 16]'(Nat.mod_lt j (by decide))

/-- After `m` draws: POOL is the block being drawn from, and IDX the place in it. -/
def State.HasDrawn (s : State) (x : Block) (m : Nat) : Prop :=
  ∃ k, s.pool = whitened k x ∧ 16 * k + s.idx.val = m + 16

/-- The byte at place `i` of block `X(k)`. -/
theorem streamByte_eq {x : Block} {m k i : Nat} (hi : i < 16) (hm : 16 * k + i = m + 16) :
    streamByte x m = (whitened k x)[i] := by
  obtain rfl : k = m / 16 + 1 := by omega
  obtain rfl : i = m % 16 := by omega
  rfl

/-- Each draw is the next byte of the stream (R167). -/
theorem State.HasDrawn.rngDraw {s : State} {x : Block} {m : Nat} (h : s.HasDrawn x m) :
    (rngDraw s).1 = streamByte x m ∧ (rngDraw s).2.HasDrawn x (m + 1) := by
  obtain ⟨k, hpool, hm⟩ := h
  rcases idx_cases s with ⟨i, hi⟩ | hi
  · rw [rngDraw_of_lt i hi, streamByte_eq i.isLt (hi ▸ hm)]
    exact ⟨by simp [hpool], k, hpool, by rw [Fin.val_succ]; omega⟩
  · have hm' : 16 * (k + 1) + 0 = m + 16 := by rw [← hm, hi]; rfl
    rw [rngDraw_of_used hi, streamByte_eq (by decide) hm']
    exact ⟨by rw [hpool]; rfl, k + 1, congrArg (aes128 Config.rngKey) hpool, congrArg (· + 1) hm'⟩

theorem drawMany_of_hasDrawn {s : State} {x : Block} {m : Nat} (n : Nat) (h : s.HasDrawn x m) :
    (drawMany n s).1 = (List.range' m n).map (streamByte x) := by
  induction n generalizing s m with
  | zero => rfl
  | succ n ih =>
    obtain ⟨hbyte, hnext⟩ := h.rngDraw
    rw [drawMany, hbyte, ih hnext, List.range'_succ, List.map_cons]

/-- Settles O34: a pool used up has had no byte drawn from its successor X1. -/
theorem streamIsRepeatedWhitening : Obligations.StreamIsRepeatedWhitening := by
  unfold Obligations.StreamIsRepeatedWhitening
  intro s n hidx
  have hstart : s.HasDrawn s.pool 0 := ⟨0, rfl, by rw [hidx]; rfl⟩
  rw [drawMany_of_hasDrawn n hstart, ← List.range_eq_range']
  rfl

/-! ### Which steps change POOL and IDX -/

@[simp] theorem encComplete_pool (s : State) : (encComplete s).pool = s.pool := rfl
@[simp] theorem encComplete_idx (s : State) : (encComplete s).idx = s.idx := rfl

theorem WriteResult.pool_idx_eq {off v : Byte} {s t : State} (h : WriteResult off v s t) :
    t.pool = s.pool ∧ t.idx = s.idx := by
  cases h <;> simp

/-- Settles O28: no step but a reset, a draw's completion and a sample of a seed touches POOL or IDX. -/
theorem poolChangesOnlyBySeedAndDraws : Obligations.PoolChangesOnlyBySeedAndDraws := by
  unfold Obligations.PoolChangesOnlyBySeedAndDraws
  intro s t h hchanged
  have hne : ¬ (t.pool = s.pool ∧ t.idx = s.idx) := not_and_or.2 hchanged
  cases stepResult_of_step h with
  | untouched hk => obtain ⟨_, _, _, _, _, rfl⟩ := hk; exact absurd ⟨rfl, rfl⟩ hne
  | reset he => exact .inl he
  | enc => exact absurd (by simp) hne
  | u8 he _ ho => exact .inr (.inl ⟨he, .inl ho⟩)
  | u16 he _ ho => exact .inr (.inl ⟨he, .inr ho⟩)
  | sample x he _ ho => exact .inr (.inr ⟨⟨x, he⟩, ho⟩)
  | write off v p _ hw => exact absurd (by simpa using hw.pool_idx_eq) hne

end Sys2Proof.Machine
end

section
/-!
PROOFS. HostEnc under every interleaving without reset: no event takes it out of its stages, so wherever it ends it has
read the ciphertext (spec/43_modes.md R200).
-/

namespace Sys2Proof.Machine

theorem setResetPin_true_of_running {s : State} (h : s.rstN = true) : setResetPin true s = s := by
  rw [setResetPin, if_pos rfl, ← h]

theorem State.noReset.step {s t : State} (h : s.noReset) (ht : step s = .next t) : t.noReset := by
  rw [State.noReset, (step_environment ht).1]
  exact h.popped

/-- No event but a reset takes HostEnc out of its stages: the pin going high on a running block changes nothing, and a
second host stops the machine. -/
theorem EncStage.Holds.step {s₀ s t : State} {p : Block} {st : EncStage} (h : st.Holds s₀ p s)
    (hne : s.nextEvent ≠ .resetPin false) (ht : step s = .next t) : ∃ st' : EncStage, st'.Holds s₀ p t := by
  have ordinary (ho : s.nextEvent.isOrdinary = true) : ∃ st' : EncStage, st'.Holds s₀ p t := by
    obtain ⟨t', ht', h'⟩ := holds_advance h ho
    rw [ht] at ht'
    exact ⟨_, Host.Outcome.next.inj ht' ▸ h'⟩
  cases he : s.nextEvent with
  | host => exact ordinary (by rw [he]; rfl)
  | engine => exact ordinary (by rw [he]; rfl)
  | sample x => exact ordinary (by rw [he]; rfl)
  | resetPin level =>
    cases level with
    | false => exact absurd he hne
    | true =>
      rw [step_eq, he, perform, setResetPin_true_of_running h.popped.running] at ht
      exact ⟨st, Host.Outcome.next.inj ht ▸ h.popped⟩
  | secondHost =>
    rw [step_eq, he] at ht
    cases ht

theorem hostEnc_eq (fuel : Nat) (p : Block) (s : State) : hostEnc fuel p s =
    (runProgram fuel (loadProg (hostEncProg p) s)).bind fun t => some (blockOfList (lastReads 16 t), t) := by
  rw [hostEnc]
  cases runProgram fuel (loadProg (hostEncProg p) s) <;> rfl

/-- Where HostEnc ends it is at its last stage, its result the sixteen bytes read last. -/
theorem hostEnc_ends {fuel : Nat} {p c : Block} {s t : State} (hs : s.ready) (ha : s.noReset)
    (h : hostEnc fuel p s = some (c, t)) :
    ∃ i, 16 ≤ i ∧ (EncStage.reading i).Holds s p t ∧ t.noReset ∧ c = blockOfList (lastReads 16 t) := by
  rw [hostEnc_eq] at h
  obtain ⟨t, hrun, heq⟩ := Option.bind_eq_some_iff.1 h
  obtain ⟨rfl, rfl⟩ := Prod.mk.inj (Option.some.inj heq)
  obtain ⟨⟨⟨st, hst⟩, hno⟩, hend⟩ :=
    runProgram_induction (P := fun u => (∃ st : EncStage, st.Holds s p u) ∧ u.noReset)
      (fun ⟨⟨st, hst⟩, hno⟩ hu => ⟨hst.step hno.nextEvent_ne hu, hno.step hu⟩)
      ⟨⟨_, holds_loadProg p hs⟩, ha⟩ hrun
  obtain ⟨i, hi, rfl⟩ := (programEnded_iff hst).1 hend
  exact ⟨i, hi, hst, hno, rfl⟩

/-- Settles O50: every step keeps HostEnc in a stage, and it ends only at the last one. -/
theorem hostEncReturnsCipherUnderEveryInterleaving : Obligations.HostEncReturnsCipherUnderEveryInterleaving := by
  unfold Obligations.HostEncReturnsCipherUnderEveryInterleaving
  intro fuel p c s t hs ha h
  obtain ⟨i, hi, hst, _, rfl⟩ := hostEnc_ends hs ha h
  exact ⟨lastReads_of_reading hi hst, hst.key, hst.error, hst.running, hst.block.1⟩

end Sys2Proof.Machine
end

section
/-!
PROOFS. The host procedures over an encryption primitive: each is a chain of calls of it, so one that runs on the block
follows the same procedure on the cipher, call by call (spec/43_modes.md R200 to R205).
-/

namespace Sys2Proof.Machine

/-! ### Each procedure as a chain of its calls -/

theorem pureEnc_apply (k p : Block) : pureEnc k p () = some (aes128 k p, ()) := rfl

theorem chainFrom_cons {σ : Type} (enc : Encryptor σ) (t m : Block) (ms : List Block) (s : σ) :
    chainFrom enc t (m :: ms) s = (enc (xorBlock t m) s).bind fun r => chainFrom enc r.1 ms r.2 := by
  rw [chainFrom]
  cases enc (xorBlock t m) s <;> rfl

theorem cmac_eq {σ : Type} (enc : Encryptor σ) (m : List Byte) (s : σ) :
    cmac enc m s =
      (enc zeroBlock s).bind fun r => chainFrom enc zeroBlock (cmacBlocks (dbl r.1) (dbl (dbl r.1)) m) r.2 := by
  rw [cmac]
  cases enc zeroBlock s <;> rfl

theorem frameMic_eq {σ : Type} (enc : Encryptor σ) (f : FrameInput) (msg : List Byte) (s : σ) :
    frameMic enc f msg s = if msg.length < 256 then
      (cmac enc ((micFirstBlock f (BitVec.ofNat 8 msg.length)).toList ++ msg) s).bind fun r => some (micBytes r.1, r.2)
      else none := by
  rw [frameMic]
  cases cmac enc ((micFirstBlock f (BitVec.ofNat 8 msg.length)).toList ++ msg) s <;> rfl

theorem verifyMic_eq {σ : Type} (enc : Encryptor σ) (f : FrameInput) (msg : List Byte) (received : Vector Byte 4)
    (s : σ) : verifyMic enc f msg received s =
      (frameMic enc f msg s).bind fun r => some (r.1 == received, r.2) := by
  rw [verifyMic]
  cases frameMic enc f msg s <;> rfl

theorem keystream_cons {σ : Type} (enc : Encryptor σ) (a : Block) (as : List Block) (s : σ) :
    keystream enc (a :: as) s =
      (enc a s).bind fun r => (keystream enc as r.2).bind fun q => some (r.1.toList ++ q.1, q.2) := by
  rw [keystream]
  cases enc a s with
  | none => rfl
  | some r =>
    dsimp only [Option.bind_some]
    cases keystream enc as r.2 <;> rfl

theorem streamCipher_eq {σ : Type} (enc : Encryptor σ) (counters : List Block) (payload : List Byte) (s : σ) :
    streamCipher enc counters payload s = if keystreamBlockCount payload.length ≤ counters.length then
      (keystream enc (counters.take (keystreamBlockCount payload.length)) s).bind
        fun r => some (List.zipWith (fun p k => p ^^^ k) payload r.1, r.2)
      else none := by
  rw [streamCipher]
  cases keystream enc (counters.take (keystreamBlockCount payload.length)) s <;> rfl

/-! ### Following the cipher -/

/-- Where a procedure over a state `σ` ends, the cipher alone gives the same value, and the state it ends in satisfies
`P`. -/
def Follows {σ α : Type} (P : σ → Prop) (f : Option (α × σ)) (g : Option (α × Unit)) : Prop :=
  ∀ a u, f = some (a, u) → g = some (a, ()) ∧ P u

section
variable {σ α β : Type} {P : σ → Prop}

theorem Follows.some {s : σ} (a : α) (h : P s) : Follows P (some (a, s)) (some (a, ())) := by
  rintro _ _ ⟨⟩
  exact ⟨rfl, h⟩

theorem Follows.bind {f : Option (α × σ)} {g : Option (α × Unit)} {F : α × σ → Option (β × σ)}
    {G : α × Unit → Option (β × Unit)} (h : Follows P f g)
    (hF : ∀ a s, P s → Follows P (F (a, s)) (G (a, ()))) :
    Follows P (f.bind F) (g.bind G) := by
  intro b u hb
  obtain ⟨⟨a, s⟩, ha, hb⟩ := Option.bind_eq_some_iff.1 hb
  obtain ⟨hg, hs⟩ := h a s ha
  rw [hg]
  exact hF a s hs b u hb

/-- Both sides of a check that does not look at the block give nothing where it fails. -/
theorem Follows.guard {c : Prop} [Decidable c] {f : Option (α × σ)} {g : Option (α × Unit)} (h : Follows P f g) :
    Follows P (if c then f else none) (if c then g else none) := by
  split
  · exact h
  · nofun

/-! A primitive that follows the cipher under `k`, and keeps `P`, takes every procedure with it. -/

variable {enc : Encryptor σ} {k : Block} (henc : ∀ p s, P s → Follows P (enc p s) (pureEnc k p ()))
include henc

theorem chainFrom_follows (ms : List Block) (t : Block) {s : σ} (hs : P s) :
    Follows P (chainFrom enc t ms s) (chainFrom (pureEnc k) t ms ()) := by
  induction ms generalizing t s with
  | nil => exact .some t hs
  | cons m ms ih =>
    rw [chainFrom_cons, chainFrom_cons]
    exact (henc _ s hs).bind fun t' _ => ih t'

theorem cmac_follows (m : List Byte) {s : σ} (hs : P s) : Follows P (cmac enc m s) (cmac (pureEnc k) m ()) := by
  rw [cmac_eq, cmac_eq]
  exact (henc _ s hs).bind fun _ _ => chainFrom_follows henc _ _

theorem frameMic_follows (f : FrameInput) (msg : List Byte) {s : σ} (hs : P s) :
    Follows P (frameMic enc f msg s) (frameMic (pureEnc k) f msg ()) := by
  rw [frameMic_eq, frameMic_eq]
  exact .guard ((cmac_follows henc _ hs).bind fun _ _ => .some _)

theorem verifyMic_follows (f : FrameInput) (msg : List Byte) (mic : Vector Byte 4) {s : σ} (hs : P s) :
    Follows P (verifyMic enc f msg mic s) (verifyMic (pureEnc k) f msg mic ()) := by
  rw [verifyMic_eq, verifyMic_eq]
  exact (frameMic_follows henc f msg hs).bind fun _ _ => .some _

theorem keystream_follows (as : List Block) {s : σ} (hs : P s) :
    Follows P (keystream enc as s) (keystream (pureEnc k) as ()) := by
  induction as generalizing s with
  | nil => exact .some [] hs
  | cons a as ih =>
    rw [keystream_cons, keystream_cons]
    exact (henc a s hs).bind fun _ _ h => (ih h).bind fun _ _ => .some _

theorem streamCipher_follows (counters : List Block) (payload : List Byte) {s : σ} (hs : P s) :
    Follows P (streamCipher enc counters payload s) (streamCipher (pureEnc k) counters payload ()) := by
  rw [streamCipher_eq, streamCipher_eq]
  exact .guard ((keystream_follows henc _ hs).bind fun _ _ => .some _)

theorem framePayload_follows (f : FrameInput) (payload : List Byte) {s : σ} (hs : P s) :
    Follows P (framePayload enc f payload s) (framePayload (pureEnc k) f payload ()) :=
  .guard (streamCipher_follows henc _ _ hs)

end

/-! ### The cipher alone -/

/-- The chain of R201 on the cipher, from `t`. -/
def cipherChain (k t : Block) (ms : List Block) : Block := ms.foldl (fun x m => aes128 k (xorBlock x m)) t

/-- The keystream of R205 on the cipher. -/
def cipherStream (k : Block) (as : List Block) : List Byte := as.flatMap fun a => (aes128 k a).toList

theorem cipherChain_cons (k t m : Block) (ms : List Block) :
    cipherChain k t (m :: ms) = cipherChain k (aes128 k (xorBlock t m)) ms := rfl

theorem cipherChain_concat (k t : Block) (ms : List Block) (m : Block) :
    cipherChain k t (ms ++ [m]) = aes128 k (xorBlock (cipherChain k t ms) m) := by
  rw [cipherChain, List.foldl_append, List.foldl_cons, List.foldl_nil, cipherChain]

theorem chainFrom_pureEnc (k t : Block) (ms : List Block) :
    chainFrom (pureEnc k) t ms () = some (cipherChain k t ms, ()) := by
  induction ms generalizing t with
  | nil => rfl
  | cons m ms ih => rw [chainFrom_cons, pureEnc_apply, Option.bind_some, ih, cipherChain_cons]

theorem cmac_pureEnc (k : Block) (m : List Byte) : cmac (pureEnc k) m () =
    some (cipherChain k zeroBlock (cmacBlocks (dbl (aes128 k zeroBlock)) (dbl (dbl (aes128 k zeroBlock))) m), ()) := by
  rw [cmac_eq, pureEnc_apply, Option.bind_some, chainFrom_pureEnc]

theorem keystream_pureEnc (k : Block) (as : List Block) :
    keystream (pureEnc k) as () = some (cipherStream k as, ()) := by
  induction as with
  | nil => rfl
  | cons a as ih =>
    rw [keystream_cons, pureEnc_apply, Option.bind_some, ih, Option.bind_some, cipherStream, cipherStream,
      List.flatMap_cons]

/-! ### On the block -/

/-- Out of reset and idle with `k` in KEY, and no reset to come: where the next host procedure can begin. -/
structure State.IdleUnder (k : Block) (s : State) : Prop where
  ready : s.ready
  noReset : s.noReset
  key : s.key = k

theorem hostEnc_follows (fuel : Nat) {k : Block} (p : Block) (s : State) (hs : s.IdleUnder k) :
    Follows (State.IdleUnder k) (hostEnc fuel p s) (pureEnc k p ()) := by
  intro c t h
  obtain ⟨i, hi, hst, hno, rfl⟩ := hostEnc_ends hs.ready hs.noReset h
  have hc := lastReads_of_reading hi hst
  rw [hs.key] at hc
  exact ⟨by rw [hc, pureEnc_apply], ⟨hst.running, hst.block.1⟩, hno, hst.key.trans hs.key⟩

theorem hostLoadKey_idleUnder {fuel : Nat} {k k' : Block} {s t : State} (hs : s.IdleUnder k')
    (h : hostLoadKey fuel k s = some t) : t.IdleUnder k := by
  obtain ⟨hl, _⟩ := runProgram_induction LoadingKey.step (loadingKey_loadProg k hs.ready hs.noReset) h
  obtain ⟨hk, _, _, hr⟩ := hostLoadKeyStoresKey fuel k s t hs.ready hs.noReset h
  exact ⟨hr, hl.noReset, hk⟩

/-- Settles O53: the chain on the block follows the chain on the cipher, which is the rule's fold. -/
theorem hostCbcMacIsCipherChain : Obligations.HostCbcMacIsCipherChain := by
  unfold Obligations.HostCbcMacIsCipherChain
  intro fuel ms c s t hs ha h
  have hpure := (chainFrom_follows (hostEnc_follows fuel) ms zeroBlock ⟨hs, ha, rfl⟩ c t h).1
  have hfold := (chainFrom_pureEnc s.key zeroBlock ms).symm.trans hpure
  exact ⟨hpure, (congrArg Prod.fst (Option.some.inj hfold)).symm⟩

/-- Settles O54: CMAC on the block follows CMAC on the cipher. -/
theorem hostCmacIsCipherCmac : Obligations.HostCmacIsCipherCmac := by
  unfold Obligations.HostCmacIsCipherCmac
  intro fuel m c s t hs ha h
  exact (cmac_follows (hostEnc_follows fuel) m ⟨hs, ha, rfl⟩ c t h).1

theorem receiveFrame_eq {σ : Type} (load : KeyLoader σ) (enc : Encryptor σ) (nwkKey payloadKey : Block)
    (f : FrameInput) (r : ReceivedFrame) (s : σ) :
    receiveFrame load enc nwkKey payloadKey f r s =
      (load nwkKey s).bind fun s1 => (verifyMic enc f r.msg r.mic s1).bind fun v =>
        if v.1 then (load payloadKey v.2).bind fun s3 =>
          (framePayload enc f r.payload s3).bind fun q => some (.message q.1, q.2)
        else some (.noValidMessage, v.2) := by
  rw [receiveFrame]
  cases load nwkKey s with
  | none => rfl
  | some s1 =>
    dsimp only [Option.bind_some]
    cases verifyMic enc f r.msg r.mic s1 with
    | none => rfl
    | some v =>
      obtain ⟨_ | _, s2⟩ := v
      · rfl
      · dsimp only [Option.bind_some]
        cases load payloadKey s2 with
        | none => rfl
        | some s3 =>
          dsimp only [Option.bind_some, if_pos]
          cases framePayload enc f r.payload s3 <;> rfl

/-- What a comparison that ends has compared. -/
theorem verifyMic_pureEnc_eq_some {k : Block} {f : FrameInput} {msg : List Byte} {mic : Vector Byte 4} {b : Bool}
    (h : verifyMic (pureEnc k) f msg mic () = some (b, ())) :
    ∃ t, cmac (pureEnc k) ((micFirstBlock f (BitVec.ofNat 8 msg.length)).toList ++ msg) () = some (t, ()) ∧
      (b = true ↔ mic = micBytes t) := by
  rw [verifyMic_eq, frameMic_eq] at h
  split at h
  · rw [cmac_pureEnc, Option.bind_some, Option.bind_some] at h
    obtain rfl := congrArg Prod.fst (Option.some.inj h)
    exact ⟨_, cmac_pureEnc k _, by rw [beq_iff_eq, eq_comm]⟩
  · cases h

/-- Settles O57: the comparison follows the cipher under the network session key, and what it answers decides whether the
payload's key is loaded at all. -/
theorem receiveVerifiesMicBeforeUse : Obligations.ReceiveVerifiesMicBeforeUse := by
  unfold Obligations.ReceiveVerifiesMicBeforeUse
  intro fuel nwkKey payloadKey f r answer s u hs ha h
  rw [receiveFrame_eq] at h
  obtain ⟨s1, hload, h⟩ := Option.bind_eq_some_iff.1 h
  obtain ⟨⟨b, s2⟩, hverify, h⟩ := Option.bind_eq_some_iff.1 h
  have hs1 : s1.IdleUnder nwkKey := hostLoadKey_idleUnder ⟨hs, ha, rfl⟩ hload
  obtain ⟨hpure, hs2⟩ := verifyMic_follows (hostEnc_follows fuel) f r.msg r.mic hs1 b s2 hverify
  obtain ⟨t, hcmac, hb⟩ := verifyMic_pureEnc_eq_some hpure
  refine ⟨t, s1, hload, hcmac, ?_⟩
  cases b with
  | false =>
    rw [if_neg Bool.false_ne_true] at h
    obtain ⟨rfl, rfl⟩ := Prod.mk.inj (Option.some.inj h)
    exact ⟨fun _ => ⟨rfl, hverify, hs2.key⟩, fun hmic => absurd (hb.2 hmic) Bool.false_ne_true⟩
  | true =>
    rw [if_pos rfl] at h
    obtain ⟨s3, hload', h⟩ := Option.bind_eq_some_iff.1 h
    obtain ⟨⟨p, s4⟩, hpayload, h⟩ := Option.bind_eq_some_iff.1 h
    obtain ⟨rfl, rfl⟩ := Prod.mk.inj (Option.some.inj h)
    have hs3 := hostLoadKey_idleUnder hs2 hload'
    obtain ⟨hp, hs4⟩ := framePayload_follows (hostEnc_follows fuel) f r.payload hs3 p s4 hpayload
    exact ⟨fun hmic => absurd (hb.1 rfl) hmic, fun _ => ⟨hs4.key, p, hp, rfl⟩⟩

end Sys2Proof.Machine
end

section
/-!
PROOFS. What the host procedures are over the cipher alone: the layouts of the input blocks, CMAC in the rule's own
form, and the stream cipher byte by byte (spec/43_modes.md R202 to R207).
-/

namespace Sys2Proof.Machine

/-! ### Blocks from lists of bytes -/

theorem blockOfList_of_padded {l : List Byte} {b : Block} (n : Nat) (h : b.toList = l ++ List.replicate n 0x00) :
    blockOfList l = b := by
  ext1 i hi
  have hb : b[i] = (l ++ List.replicate n 0x00).getD i 0x00 := by
    rw [← h, List.getD_eq_getElem?_getD, List.getElem?_eq_getElem (by simpa using hi), Option.getD_some,
      Vector.getElem_toList]
  rw [hb, blockOfList, Vector.getElem_ofFn]
  by_cases hl : i < l.length
  · rw [List.getD_append _ _ _ _ hl]
  · rw [List.getD_append_right _ _ _ _ (Nat.not_lt.1 hl), List.getD_replicate,
      List.getD_eq_default _ _ (Nat.not_lt.1 hl)]
    have hlen : 16 = l.length + n := by simpa using congrArg List.length h
    omega

theorem xorBlock_zeroBlock_left (b : Block) : xorBlock zeroBlock b = b := by
  ext1 i hi
  simp [xorBlock, zeroBlock]

/-! ### Layouts -/

theorem bitByte_eq_ite (b : Bool) : bitByte b = if b then 0x01 else 0x00 := by
  cases b <;> rfl

theorem frameLayout_eq (first : Byte) (f : FrameInput) (last : Byte) : frameLayout first f last =
    #v[first, 0x00, 0x00, 0x00, 0x00, if f.downlink then 0x01 else 0x00,
      f.devAddr.extractLsb' 0 8, f.devAddr.extractLsb' 8 8, f.devAddr.extractLsb' 16 8, f.devAddr.extractLsb' 24 8,
      f.fCnt.extractLsb' 0 8, f.fCnt.extractLsb' 8 8, f.fCnt.extractLsb' 16 8, f.fCnt.extractLsb' 24 8, 0x00, last] := by
  rw [frameLayout, bitByte_eq_ite]
  exact blockOfList_of_padded 0 rfl

theorem joinBlock_eq (tag : Byte) (a n : Vector Byte 3) (d : Vector Byte 2) : joinBlock tag a n d =
    #v[tag, a[0], a[1], a[2], n[0], n[1], n[2], d[0], d[1], 0x00, 0x00, 0x00, 0x00, 0x00, 0x00, 0x00] := by
  match a, n, d with
  | ⟨⟨[_, _, _]⟩, rfl⟩, ⟨⟨[_, _, _]⟩, rfl⟩, ⟨⟨[_, _]⟩, rfl⟩ => exact blockOfList_of_padded 7 rfl

/-- Settles O58: both layouts are `frameLayout`. -/
theorem frameBlocksHaveTheirLayout : Obligations.FrameBlocksHaveTheirLayout := by
  unfold Obligations.FrameBlocksHaveTheirLayout
  refine ⟨fun f i => frameLayout_eq 0x01 f i, fun f n => frameLayout_eq 0x49 f n, fun k t f msg hlen h => ?_⟩
  rw [frameMic_eq, if_pos hlen, h, Option.bind_some, micBytes]

/-- Settles O59: the two blocks are `joinBlock` with its two tags. -/
theorem joinKeysAreTwoEncryptions : Obligations.JoinKeysAreTwoEncryptions := by
  unfold Obligations.JoinKeysAreTwoEncryptions
  intro k a n d
  rw [← joinBlock_eq, ← joinBlock_eq]
  rfl

/-! ### Messages block by block -/

/-- The message of these whole blocks. -/
def wholeBlocks (ms : List Block) : List Byte := ms.flatMap Vector.toList

@[simp] theorem wholeBlocks_length (ms : List Block) : (wholeBlocks ms).length = 16 * ms.length := by
  simp [wholeBlocks, List.length_flatMap, Nat.mul_comm]

theorem drop_wholeBlocks_append (ms : List Block) (rest : List Byte) (j : Nat) (h : j ≤ ms.length) :
    (wholeBlocks ms ++ rest).drop (16 * j) = wholeBlocks (ms.drop j) ++ rest := by
  conv_lhs => rw [← List.take_append_drop j ms, wholeBlocks, List.flatMap_append, List.append_assoc]
  exact List.drop_left' (by simpa [wholeBlocks, h] using wholeBlocks_length (ms.take j))

theorem messagePart_of_lt {ms : List Block} (rest : List Byte) {j : Nat} (h : j < ms.length) :
    messagePart (wholeBlocks ms ++ rest) j = ms[j].toList := by
  rw [messagePart, drop_wholeBlocks_append ms rest j h.le, List.drop_eq_getElem_cons h, wholeBlocks, List.flatMap_cons,
    List.append_assoc]
  exact List.take_left' ms[j].length_toList

theorem messagePart_last (ms : List Block) {rest : List Byte} (h : rest.length ≤ 16) :
    messagePart (wholeBlocks ms ++ rest) ms.length = rest := by
  rw [messagePart, drop_wholeBlocks_append ms rest _ le_rfl, List.drop_length]
  exact List.take_of_length_le h

theorem macBlockCount_eq {n r : Nat} (hr : r ≤ 16) (h : 1 ≤ r ∨ n = 0) : macBlockCount (16 * n + r) = n + 1 := by
  unfold macBlockCount
  omega

/-- The blocks of a CMAC over whole blocks and a rest of at most sixteen bytes, empty only in the empty message. -/
theorem cmacBlocks_eq (k1 k2 : Block) (ms : List Block) {rest : List Byte} (hr : rest.length ≤ 16)
    (h : 1 ≤ rest.length ∨ ms = []) : cmacBlocks k1 k2 (wholeBlocks ms ++ rest) =
      ms ++ [if rest.length = 16 then xorBlock (blockOfList rest) k1 else xorBlock (blockOfList (rest ++ [0x80])) k2] := by
  have hcount : macBlockCount (wholeBlocks ms ++ rest).length - 1 = ms.length := by
    rw [List.length_append, wholeBlocks_length, macBlockCount_eq hr (h.imp_right (congrArg List.length)),
      Nat.add_sub_cancel]
  rw [cmacBlocks, cmacLast, hcount, messagePart_last ms hr]
  refine congrArg (· ++ _) (List.ext_getElem (by simp) fun j hj hj' => ?_)
  rw [List.getElem_map, List.getElem_range, messagePart_of_lt rest hj', blockOfList_toList]

/-- CMAC of the cipher over whole blocks: K1 on the last one. -/
theorem cmac_full (k : Block) (ms : List Block) (m : Block) : cmac (pureEnc k) (wholeBlocks ms ++ m.toList) () =
    some (aes128 k (xorBlock (cipherChain k zeroBlock ms) (xorBlock m (dbl (aes128 k zeroBlock)))), ()) := by
  have hlen : m.toList.length = 16 := m.length_toList
  rw [cmac_pureEnc, cmacBlocks_eq _ _ ms hlen.le (.inl (by omega)), if_pos hlen, blockOfList_toList, cipherChain_concat]

/-- CMAC of the cipher over whole blocks and a short one, or over the empty message: padding, and K2 on the last
block. -/
theorem cmac_padded (k : Block) (ms : List Block) {part : List Byte} {m : Block} (hlt : part.length < 16)
    (h : 1 ≤ part.length ∨ ms = []) (hm : m.toList = part ++ 0x80 :: List.replicate (15 - part.length) 0x00) :
    cmac (pureEnc k) (wholeBlocks ms ++ part) () =
      some (aes128 k (xorBlock (cipherChain k zeroBlock ms) (xorBlock m (dbl (dbl (aes128 k zeroBlock))))), ()) := by
  have hblock : blockOfList (part ++ [0x80]) = m := blockOfList_of_padded _ (hm.trans (List.append_cons _ _ _))
  rw [cmac_pureEnc, cmacBlocks_eq _ _ ms hlt.le h, if_neg hlt.ne, hblock, cipherChain_concat]

/-! ### `dbl` -/

/-- The bytes of a list as a big-endian integer. -/
def bytesBits (l : List Byte) : BitVec 128 := l.foldl (fun acc b => (acc <<< 8) ||| b.setWidth 128) 0

theorem blockBits_eq (x : Block) : blockBits x = bytesBits x.toList := by
  rw [blockBits, bytesBits, Vector.foldl_toList]

theorem bytesBits_concat (l : List Byte) (b : Byte) :
    bytesBits (l ++ [b]) = (bytesBits l <<< 8) ||| b.setWidth 128 := by
  rw [bytesBits, List.foldl_append, List.foldl_cons, List.foldl_nil, bytesBits]

/-- Eight bits from bit `8 * i` are byte `i` from the end. -/
theorem getLsbD_bytesBits (l : List Byte) (i : Nat) {j : Nat} (hj : j < 8) (hi : 8 * i + j < 128) :
    (bytesBits l).getLsbD (8 * i + j) = (l.reverse.getD i 0x00).getLsbD j := by
  induction l using List.reverseRecOn generalizing i with
  | nil => simp [bytesBits]
  | append_singleton l b ih =>
    rw [bytesBits_concat, List.reverse_concat, BitVec.getLsbD_or, BitVec.getLsbD_shiftLeft, BitVec.getLsbD_setWidth]
    cases i with
    | zero => simp [hj, show j < 128 by omega]
    | succ i =>
      have hpred : 8 * (i + 1) + j - 8 = 8 * i + j := by omega
      have hhigh : b.getLsbD (8 * (i + 1) + j) = false := BitVec.getLsbD_of_ge _ _ (by omega)
      rw [hpred, ih i (by omega), hhigh]
      simp [hi]
      omega

theorem getLsbD_blockBits (x : Block) {i j : Nat} (hi : i < 16) (hj : j < 8) :
    (blockBits x).getLsbD (8 * (15 - i) + j) = x[i].getLsbD j := by
  have hlen : x.toList.length = 16 := x.length_toList
  rw [blockBits_eq, getLsbD_bytesBits _ _ hj (by omega), List.getD_eq_getElem?_getD, List.getElem?_reverse (by omega),
    hlen, show 16 - 1 - (15 - i) = i by omega, List.getElem?_eq_getElem (by omega), Option.getD_some,
    Vector.getElem_toList]

/-- The bits of byte `i` of `dbl x`: those of the shifted block, with 0x87 XORed into the last byte. -/
theorem getLsbD_dbl (x : Block) {i j : Nat} (hi : i < 16) (hj : j < 8) :
    (dbl x)[i].getLsbD j = ((blockBits x <<< 1).getLsbD (8 * (15 - i) + j) ^^
      (if x[0].getLsbD 7 then 0x87 else 0x00 : Byte).getLsbD (8 * (15 - i) + j)) := by
  have hmask : (if x[0].getLsbD 7 then 0x87 else 0x00 : BitVec 128) =
      (if x[0].getLsbD 7 then 0x87 else 0x00 : Byte).setWidth 128 := by split <;> rfl
  rw [dbl, hexBlock, Vector.getElem_ofFn, BitVec.getLsbD_extractLsb', BitVec.getLsbD_xor, hmask,
    BitVec.getLsbD_setWidth, decide_eq_true hj, decide_eq_true (by omega : 8 * (15 - i) + j < 128), Bool.true_and,
    Bool.true_and]

theorem getLsbD_shiftLeft_one_succ {w : Nat} (v : BitVec w) {j : Nat} (h : j + 1 < w) :
    (v <<< 1).getLsbD (j + 1) = v.getLsbD j := by
  rw [BitVec.getLsbD_shiftLeft, decide_eq_true h, decide_eq_false (by omega), Nat.add_sub_cancel, Bool.not_false,
    Bool.true_and, Bool.true_and]

/-- A bit of the shifted block that stays in its byte. -/
theorem getLsbD_blockBits_shiftLeft_succ (x : Block) {i j : Nat} (hi : i < 16) (hj : j + 1 < 8) :
    (blockBits x <<< 1).getLsbD (8 * (15 - i) + (j + 1)) = x[i].getLsbD j := by
  rw [← Nat.add_assoc, getLsbD_shiftLeft_one_succ _ (by omega), getLsbD_blockBits x hi (by omega)]

/-- The bit that has come in from the next byte. -/
theorem getLsbD_blockBits_shiftLeft_zero (x : Block) {i : Nat} (hi : i < 15) :
    (blockBits x <<< 1).getLsbD (8 * (15 - i)) = x[i + 1].getLsbD 7 := by
  have hcarry : 8 * (15 - i) = 8 * (15 - (i + 1)) + 7 + 1 := by omega
  rw [hcarry, getLsbD_shiftLeft_one_succ _ (by omega), getLsbD_blockBits x (by omega) (by omega)]

theorem getElem_dbl_of_lt (x : Block) {i : Nat} (hi : i < 15) : (dbl x)[i] = (x[i] <<< 1) ||| (x[i + 1] >>> 7) := by
  refine BitVec.eq_of_getLsbD_eq fun j hj => ?_
  rw [getLsbD_dbl x (by omega) hj, BitVec.getLsbD_of_ge (if x[0].getLsbD 7 then 0x87 else 0x00 : Byte) _ (by omega),
    Bool.xor_false, BitVec.getLsbD_or, BitVec.getLsbD_ushiftRight]
  cases j with
  | zero => simpa using getLsbD_blockBits_shiftLeft_zero x hi
  | succ j =>
    rw [getLsbD_blockBits_shiftLeft_succ x (by omega) hj, getLsbD_shiftLeft_one_succ _ hj,
      BitVec.getLsbD_of_ge _ (7 + (j + 1)) (by omega), Bool.or_false]

theorem getElem_dbl_last (x : Block) :
    (dbl x)[15] = (x[15] <<< 1) ^^^ (if x[0].getLsbD 7 then 0x87 else 0x00) := by
  refine BitVec.eq_of_getLsbD_eq fun j hj => ?_
  rw [getLsbD_dbl x (by omega) hj, BitVec.getLsbD_xor]
  cases j with
  | zero => simp
  | succ j => rw [getLsbD_blockBits_shiftLeft_succ x (by omega) hj, getLsbD_shiftLeft_one_succ _ hj, Nat.sub_self,
      Nat.mul_zero, Nat.zero_add]

/-- Settles O55: the empty message is the short last block of no bytes after no whole one. -/
theorem cmacFollowsItsRule : Obligations.CmacFollowsItsRule := by
  unfold Obligations.CmacFollowsItsRule
  refine ⟨fun x => ⟨fun i => getElem_dbl_of_lt x i.isLt, getElem_dbl_last x⟩, ?_⟩
  rintro k k1 k2 rfl rfl
  constructor
  · rw [← xorBlock_zeroBlock_left (xorBlock _ _)]
    exact cmac_padded k [] (by decide) (.inr rfl) rfl
  · rintro ms _ rfl
    refine ⟨fun m => ?_, fun part m hpos hlt hm => cmac_padded k ms hlt (.inl hpos) hm⟩
    rw [List.flatMap_append, List.flatMap_singleton]
    exact cmac_full k ms m

/-! ### The stream cipher -/

theorem cipherStream_length (k : Block) (as : List Block) : (cipherStream k as).length = 16 * as.length := by
  simp [cipherStream, List.length_flatMap, Nat.mul_comm]

theorem getElem?_cipherStream (k : Block) (as : List Block) (n : Nat) :
    (cipherStream k as)[n]? = as[n / 16]?.map fun a => (aes128 k a)[n % 16]'(Nat.mod_lt n (by decide)) := by
  induction as generalizing n with
  | nil => rfl
  | cons a as ih =>
    rw [cipherStream, List.flatMap_cons, ← cipherStream]
    by_cases h : n < 16
    · simp [List.getElem?_append_left, h, Nat.div_eq_of_lt, Nat.mod_eq_of_lt]
    · obtain ⟨m, rfl⟩ : ∃ m, n = m + 16 := ⟨n - 16, by omega⟩
      rw [List.getElem?_append_right (by simp)]
      simp [ih]

/-- A keystream at least as long as the payload. -/
theorem le_length_cipherStream (k : Block) {counters : List Block} {len : Nat}
    (h : keystreamBlockCount len ≤ counters.length) :
    len ≤ (cipherStream k (counters.take (keystreamBlockCount len))).length := by
  rw [cipherStream_length, List.length_take, Nat.min_eq_left h, keystreamBlockCount]
  omega

theorem zipWith_xor_cancel {p ks : List Byte} (h : p.length ≤ ks.length) :
    List.zipWith (fun p k => p ^^^ k) (List.zipWith (fun p k => p ^^^ k) p ks) ks = p :=
  List.ext_getElem (by simp [h]) fun n _ _ => by simp

theorem streamCipher_pureEnc (k : Block) {counters : List Block} {p : List Byte}
    (h : keystreamBlockCount p.length ≤ counters.length) : streamCipher (pureEnc k) counters p () =
      some (List.zipWith (fun p k => p ^^^ k) p (cipherStream k (counters.take (keystreamBlockCount p.length))), ()) := by
  rw [streamCipher_eq, if_pos h, keystream_pureEnc, Option.bind_some]

/-- Settles O56: ceil(len / 16) blocks of keystream cover the payload, and XOR with it twice gives the payload back. -/
theorem streamCipherUndoesItself : Obligations.StreamCipherUndoesItself := by
  unfold Obligations.StreamCipherUndoesItself
  intro k counters p h
  have hks := le_length_cipherStream k h
  have hlen := (List.length_zipWith (f := fun p k : Byte => p ^^^ k)).trans (Nat.min_eq_left hks)
  refine ⟨_, streamCipher_pureEnc k h, hlen, fun n x hx => ?_, ?_⟩
  · have hn : n < p.length := (List.getElem?_eq_some_iff.1 hx).1
    have hblock : n / 16 < keystreamBlockCount p.length := by
      rw [keystreamBlockCount]
      omega
    have ha := List.getElem?_eq_getElem (Nat.lt_of_lt_of_le hblock h)
    refine ⟨_, ha, ?_⟩
    rw [List.getElem?_zipWith, hx, getElem?_cipherStream, List.getElem?_take_of_lt hblock, ha]
    rfl
  · rw [streamCipher_pureEnc k (by rw [hlen]; exact h), hlen, zipWith_xor_cancel hks]

end Sys2Proof.Machine
end

section
/-!
PROOFS. The errors: which host transaction raises which flag, that a rejected write does nothing else, and in what order
a write to CMD is checked (spec/60_exceptions.md R230 to R234).
-/

namespace Sys2Proof.Machine

/-! ### ERR_UNSEEDED -/

/-- An unseeded idle block rejects a draw (R233). -/
theorem hostWrite_draw_of_unseeded {i : Instr} {op : Op} (hi : commandEffect i = acceptDraw op) {s : State}
    (h : s.ready) (hs : s.seeded = false) : hostWrite 0x00 (encode i) s = .next (raise .unseeded s) :=
  (hostWrite_cmd (decode_encode i) s).trans (exec_draw_of_unseeded hi h hs)

/-- Settles O14: both commands are draws, and an unseeded block rejects a draw by raising the flag. -/
theorem unseededDrawIsRejected : Obligations.UnseededDrawIsRejected := by
  unfold Obligations.UnseededDrawIsRejected
  intro s h hs
  exact ⟨hostWrite_draw_of_unseeded (i := .rngU8) rfl h hs, hostWrite_draw_of_unseeded (i := .rngU16) rfl h hs⟩

/-! ### The transactions that raise a flag -/

/-- While a command is in flight a write to CMD, KEY or DATA is dropped (R231). -/
theorem hostWrite_guarded_of_inFlight {off : Byte} {s : State} (hs : s.inFlight)
    (hoff : off = 0x00 ∨ (0x10 ≤ off.toNat ∧ off.toNat ≤ 0x2F)) (v : Byte) :
    hostWrite off v s = .next (raise .busy s) := by
  obtain ⟨hr, hop⟩ := hs
  rcases (windowReg_guarded_iff off).1 hoff with hw | ⟨i, hw⟩ | ⟨i, hw⟩ <;> rw [hostWrite, hw]
  · exact commandWrite_of_busy v hr hop
  · exact congrArg _ (whenIdle_of_busy _ hr hop)
  · exact congrArg _ (whenIdle_of_busy _ hr hop)

/-- The offsets at which a write can be rejected with ERR_BUSY, in numbers (R231). -/
theorem guarded_offset {off : Byte} (h : off = 0x00 ∨ (∃ i, off = keyOffset i) ∨ ∃ i, off = dataOffset i) :
    off = 0x00 ∨ (0x10 ≤ off.toNat ∧ off.toNat ≤ 0x2F) := by
  rw [windowReg_guarded_iff]
  rcases h with rfl | ⟨i, rfl⟩ | ⟨i, rfl⟩
  · exact .inl rfl
  · exact .inr (.inl ⟨i, windowReg_keyOffset i⟩)
  · exact .inr (.inr ⟨i, windowReg_dataOffset i⟩)

/-- The one flag a raise can newly set is its own. -/
theorem eq_of_errorSet_raise {f g : ErrFlag} {s : State} (hs : s.errorSet g = false)
    (ht : (raise f s).errorSet g = true) : g = f := by
  simpa [errorSet_raise, hs] using ht

/-- A write that newly sets a flag is rejected with it: raising it is all the write does (R230). The flag is ERR_BUSY
only for a write to CMD, KEY or DATA while a command is in flight (R231). -/
theorem WriteResult.raised {off v : Byte} {s t : State} {f : ErrFlag} (h : WriteResult off v s t)
    (hs : s.errorSet f = false) (ht : t.errorSet f = true) :
    t = raise f s ∧ (f = .busy → s.inFlight ∧ (off = 0x00 ∨ (0x10 ≤ off.toNat ∧ off.toNat ≤ 0x2F))) := by
  have hne : t.error ≠ s.error := fun he => by simp [errorSet_congr he, hs] at ht
  cases h with
  | cleared _ _ => simp [errorSet_clearErrors, hs] at ht
  | rejectedBusy hoff hfl =>
    obtain rfl := eq_of_errorSet_raise hs ht
    exact ⟨rfl, fun _ => ⟨hfl, guarded_offset hoff⟩⟩
  | rejectedIllegal _ _ _ =>
    obtain rfl := eq_of_errorSet_raise hs ht
    exact ⟨rfl, nofun⟩
  | rejectedUnseeded _ _ _ _ =>
    obtain rfl := eq_of_errorSet_raise hs ht
    exact ⟨rfl, nofun⟩
  | _ => exact absurd (by simp) hne

@[simp] theorem readToHost_error (off : Byte) (s : State) : (readToHost off s).error = s.error := rfl

@[simp] theorem pollOnce_error (off mask val : Byte) (s : State) : (pollOnce off mask val s).error = s.error := by
  rcases pollOnce_cases off mask val s with ⟨_, h⟩ | ⟨_, h⟩ <;> rw [h] <;> rfl

/-- Settles O15: BUSY guards those offsets, and a write that sets ERR_BUSY has been rejected by that guard. -/
theorem busyWritesSetErrBusyOnly : Obligations.BusyWritesSetErrBusyOnly := by
  unfold Obligations.BusyWritesSetErrBusyOnly
  refine ⟨fun s off v hs hoff => hostWrite_guarded_of_inFlight hs hoff v, fun s t off v hunguarded h ht => ?unguarded,
    fun s off mask val => ⟨readToHost_error off s, pollOnce_error off mask val s⟩⟩
  case unguarded =>
    by_contra hs
    obtain ⟨_, hguarded⟩ := (writeResult_of_hostWrite h).raised (Bool.eq_false_of_not_eq_true hs) ht
    exact hunguarded (hguarded rfl)

@[simp] theorem engineStep_error (s : State) : (engineStep s).error = s.error := by
  rcases engineStep_cases s with h | ⟨_, _, h⟩ | ⟨_, _, h⟩ | ⟨_, _, h⟩ <;> rw [h]
  · exact encComplete_error s
  · exact u8Complete_error s
  · exact u16Complete_error s

/-- Settles O17: no completion and no sample writes ERROR, and a write that sets a flag does nothing but raise it. -/
theorem errorsComeFromRejectedWritesOnly : Obligations.ErrorsComeFromRejectedWritesOnly := by
  unfold Obligations.ErrorsComeFromRejectedWritesOnly
  exact ⟨engineStep_error, fun s x => offerSample_error x s,
    fun s t off v f h hs ht => ((writeResult_of_hostWrite h).raised hs ht).1⟩

/-! ### The order of the checks -/

theorem acceptDraw_error (op : Op) (s : State) :
    (acceptDraw op s).error = if s.seeded = false then s.error ||| 0x04 else s.error := by
  cases hs : s.seeded with
  | false => rw [acceptDraw_of_unseeded op hs]; rfl
  | true => rw [acceptDraw_of_seeded op hs]; exact accept_error op s

/-- An idle block raises ERR_UNSEEDED for a command's byte, or nothing: the bytes 0x11 and 0x12 are the draws (R82). -/
theorem commandEffect_error (i : Instr) (s : State) : (commandEffect i s).error =
    if (encode i = 0x11 ∨ encode i = 0x12) ∧ s.seeded = false then s.error ||| 0x04 else s.error := by
  cases i with
  | nop => rfl
  | enc => rfl
  | rngSeed => rfl
  | rngU8 => exact (acceptDraw_error .u8 s).trans (if_congr (and_iff_right (.inl rfl)).symm rfl rfl)
  | rngU16 => exact (acceptDraw_error .u16 s).trans (if_congr (and_iff_right (.inr rfl)).symm rfl rfl)

/-- Settles O16: BUSY is checked before the byte is looked at, and the commands that check SEEDED are the draws. -/
theorem commandWriteErrorPriority : Obligations.CommandWriteErrorPriority := by
  unfold Obligations.CommandWriteErrorPriority
  intro s c hr
  by_cases hop : s.op = .none
  · rw [if_neg (not_not.2 hop)]
    cases hd : decode c with
    | illegal => exact ⟨_, hostWrite_illegal_of_ready hd ⟨hr, hop⟩, rfl⟩
    | command i =>
      obtain rfl := (decode_eq_command_iff c i).1 hd
      rw [if_neg nofun]
      exact ⟨_, hostWrite_encode_of_ready i ⟨hr, hop⟩, commandEffect_error i s⟩
  · rw [if_pos hop]
    exact ⟨_, hostWrite_guarded_of_inFlight ⟨hr, hop⟩ (.inl rfl) c, rfl⟩

end Sys2Proof.Machine
end

section
/-!
PROOFS. Reset and hazards: what a block held in reset does, what a rejected command leaves alone, and the latencies
(spec/70_reset_and_hazards.md R260, R261, R266 to R268).
-/

namespace Sys2Proof.Machine

/-! ### A block held in reset -/

/-- Every effect of a write needs the block out of reset (R260). -/
theorem WriteResult.eq_of_reset {off v : Byte} {s t : State} (h : WriteResult off v s t) (hr : s.rstN = false) :
    t = s := by
  have hnot : s.rstN ≠ true := Bool.eq_false_iff.1 hr
  cases h with
  | unchanged => rfl
  | cleared _ hrun => exact absurd hrun hnot
  | rejectedBusy _ hfl => exact absurd hfl.1 hnot
  | rejectedIllegal _ hready => exact absurd hready.1 hnot
  | rejectedUnseeded _ hready => exact absurd hready.1 hnot
  | accepted _ _ hready => exact absurd hready.1 hnot
  | key _ _ hready => exact absurd hready.1 hnot
  | data _ _ hready => exact absurd hready.1 hnot

theorem hostWrite_of_reset (off v : Byte) {s : State} (hr : s.rstN = false) : hostWrite off v s = .next s := by
  obtain ⟨t, ht, hres⟩ := hostWrite_result off v s
  rw [ht, hres.eq_of_reset hr]

theorem hostRead_of_reset (off : Byte) {s : State} (hr : s.rstN = false) : hostRead off s = 0x00 := by
  rw [hostRead, hr, if_neg Bool.false_ne_true]

theorem noiseReq_of_reset {s : State} (hr : s.rstN = false) : s.noiseReq = false := by
  rw [State.noiseReq, hr, Bool.false_and]

/-- In reset no step but the reset itself does anything to the block (R260, R261). -/
theorem step_of_reset {s t : State} (hr : s.rstN = false) (h : step s = .next t) :
    BlockUntouched s t ∨ t = setResetPin false s.popped := by
  have hnot : s.rstN ≠ true := Bool.eq_false_iff.1 hr
  cases stepResult_of_step h with
  | untouched hk => exact .inl hk
  | reset _ => exact .inr rfl
  | enc _ hrun _ => exact absurd hrun hnot
  | u8 _ hrun _ => exact absurd hrun hnot
  | u16 _ hrun _ => exact absurd hrun hnot
  | sample _ _ hrun _ => exact absurd hrun hnot
  | write _ _ p _ hw =>
    rw [hw.eq_of_reset (by simpa using hr)]
    exact .inl ⟨_, _, _, _, id, by rw [popped_eq]; rfl⟩

theorem BlockUntouched.atResetValues {s t : State} (h : BlockUntouched s t) (hs : s.atResetValues) :
    t.atResetValues := by
  obtain ⟨_, _, _, _, _, rfl⟩ := h
  exact hs

/-- The reset value of OP is NONE (R30). -/
theorem State.atResetValues.op {s : State} (h : s.atResetValues) : s.op = .none := by
  obtain ⟨_, _, _, _, _, _, _, _, _, _, _, _, _, _, hop⟩ := h
  exact hop

/-- Settles O41: taking the pin to 0 writes the reset values, no other step in reset touches the block, every access is
guarded by the pin, and taking it to 1 releases the guards and does nothing else. -/
theorem resetGivesAndHoldsResetValues : Obligations.ResetGivesAndHoldsResetValues := by
  unfold Obligations.ResetGivesAndHoldsResetValues
  refine ⟨fun s rest ha => ?taken, fun s t hr hs h => ?held, fun s off v hr => ?inert, fun s rest _ hs ha => ?released⟩
  case taken => exact ⟨_, step_of_cons ha, atResetValues_setResetPin _, rfl, rfl, rfl⟩
  case held =>
    rcases step_of_reset hr h with hk | rfl
    · exact hk.atResetValues hs
    · exact atResetValues_setResetPin _
  case inert => exact ⟨hostWrite_of_reset off v hr, hostRead_of_reset off hr, noiseReq_of_reset hr⟩
  case released => exact ⟨step_of_cons ha, rfl, hs.op⟩

/-! ### A rejected command -/

/-- Settles O20: a command write that sets a flag does nothing but raise it. -/
theorem rejectedCommandKeepsDone : Obligations.RejectedCommandKeepsDone := by
  unfold Obligations.RejectedCommandKeepsDone
  intro s t c f h hs ht
  obtain ⟨rfl, _⟩ := (writeResult_of_hostWrite h).raised hs ht
  exact ⟨raise_done f s, raise_op f s, raise_seeded f s⟩

/-! ### The latencies -/

theorem willRewhiten_of_u8 {s : State} (hop : s.op = .u8) : willRewhiten s = decide (s.idx.val = 16) := by
  rw [willRewhiten, hop]

theorem willRewhiten_of_u16 {s : State} (hop : s.op = .u16) : willRewhiten s = decide (15 ≤ s.idx.val) := by
  rw [willRewhiten, hop]

theorem latency_of_enc {s : State} (hop : s.op = .enc) : latency s = some Config.aesCycles := by
  rw [latency, hop]

theorem latency_of_draw {s : State} (hop : s.op = .u8 ∨ s.op = .u16) :
    latency s = some (if willRewhiten s then 1 + Config.aesCycles else 1) := by
  rcases hop with hop | hop <;> rw [latency, hop]

/-- The latency reads OP and IDX only (R268). -/
theorem latency_congr {s t : State} (hop : s.op = t.op) (hidx : s.idx = t.idx) : latency s = latency t := by
  have hw : willRewhiten s = willRewhiten t := by rw [willRewhiten, willRewhiten, hop, hidx]
  rw [latency, latency, hop, hw]

/-- The byte draw re-whitens a pool used up, and that one only (R168). -/
theorem u8Complete_pool {s : State} (hop : s.op = .u8) :
    (u8Complete s).pool = if willRewhiten s then aes128 Config.rngKey s.pool else s.pool := by
  rw [willRewhiten_of_u8 hop]
  rcases idx_cases s with ⟨i, hi⟩ | hi
  · rw [u8Complete_of_lt i hi, decide_eq_false (by omega)]
    rfl
  · rw [u8Complete_of_used hi, hi]
    rfl

/-- The word draw re-whitens once, with its first byte or with its second, unless both are in the pool (R169). -/
theorem u16Complete_pool {s : State} (hop : s.op = .u16) :
    (u16Complete s).pool = if willRewhiten s then aes128 Config.rngKey s.pool else s.pool := by
  rw [willRewhiten_of_u16 hop]
  rcases idx_cases s with ⟨i, hi⟩ | hi
  · rcases i.eq_castSucc_or_eq_last with ⟨j, rfl⟩ | rfl
    · rw [u16Complete_of_lt j hi, decide_eq_false (by rw [hi, Fin.val_castSucc]; omega)]
      rfl
    · have hlast : s.idx = 15 := Fin.ext hi
      rw [u16Complete_of_last hlast, hlast]
      rfl
  · rw [u16Complete_of_used hi, hi]
    rfl

/-- A draw's completion re-whitens the pool exactly when the draw was counted as re-whitening (R267). -/
theorem engineStep_pool_of_draw {s : State} (hr : s.rstN = true) (hop : s.op = .u8 ∨ s.op = .u16) :
    (engineStep s).pool = if willRewhiten s then aes128 Config.rngKey s.pool else s.pool := by
  rcases hop with hop | hop
  · rw [engineStep_of_u8 hr hop, u8Complete_pool hop]
  · rw [engineStep_of_u16 hr hop, u16Complete_pool hop]

/-- Settles O44: a draw's latency and its completion's pool turn on the one question whether it re-whitens. -/
theorem latencyDependsOnCommandAndIdxOnly : Obligations.LatencyDependsOnCommandAndIdxOnly := by
  unfold Obligations.LatencyDependsOnCommandAndIdxOnly
  refine ⟨fun _ _ => latency_congr, fun _ => latency_of_enc, fun s hr hop => ?draw⟩
  case draw =>
    rw [latency_of_draw hop, engineStep_pool_of_draw hr hop]
    cases willRewhiten s with
    | false => exact .inl ⟨rfl, rfl⟩
    | true => exact .inr ⟨rfl, rfl⟩

end Sys2Proof.Machine
end
